-- ==== Sys2Proof/Word.lean ====
section
/-! DEFINITION. The widths every access of the block moves: the 64-bit word of a register, a DMEM word, a sample or a
command (rules R5, R20, R60, R80), the byte lane of rule R66, and the 32-bit operand field of rules R32 to R37. -/

namespace Sys2Proof

/-- One 64-bit word: a register, a DMEM word, a binary64 pattern or a command word (rules R5, R20, R60, R80). -/
abbrev Word := BitVec 64

/-- One byte lane of a word (rule R66), and the 8-bit fields of ERRCODE (rule R29). -/
abbrev Byte := BitVec 8

/-- A 32-bit operand field (rules R32 to R34, R36, R37). -/
abbrev Field32 := BitVec 32

/-- The 11-bit register index RIDX (rule R20). -/
abbrev RegIndex := BitVec 11

end Sys2Proof
end

