-- ==== Sys2Proof/Syntax.lean ====
section
/-! DEFINITION. The seven commands of the opcode table (rules R2, R80, R81). -/

namespace Sys2Proof

/-- One constructor per row of the opcode table (rule R81). A command carries no operand but SHIFT, and only DILATE and ERODE
have it (rules R80, R82); every other operand is an operand register (rule R86). -/
inductive Instr where
  /-- IIR_CONFIG, OPC 0x01 (rule R161). -/
  | iirConfig
  /-- IIR_RESET, OPC 0x02 (rule R162). -/
  | iirReset
  /-- IIR_APPLY, OPC 0x03 (rule R163). -/
  | iirApply
  /-- DILATE, OPC 0x10, with its SHIFT flag (rule R122). -/
  | dilate (shift : Bool)
  /-- ERODE, OPC 0x11, with its SHIFT flag (rule R123). -/
  | erode (shift : Bool)
  /-- OPEN, OPC 0x12 (rule R124). -/
  | opening
  /-- PEAKS, OPC 0x20 (rule R140). -/
  | peaks
  deriving DecidableEq, Repr

end Sys2Proof
end

