-- ==== Sys2Proof/Decode.lean ====
section
/-! DEFINITION. The command decoder of rule R83, total on every 64-bit word and naming why a word is ILLEGAL (rule R84); the
encoder of rule R85; the opcode table as data; and the host's view of the decoder. -/

namespace Sys2Proof

/-- Why a command word decodes to ILLEGAL: the three classes of rule R84. -/
inductive Illegal where
  /-- A bit of [63:9] is set. -/
  | reservedBits
  /-- The OPC field is not one of rule R81. -/
  | reservedOpcode
  /-- SHIFT = 1 on an opcode other than DILATE and ERODE. -/
  | shiftNotAllowed
  deriving DecidableEq, Repr

/-- OPC, bits [7:0] of a command word (rule R80). -/
def opcField (w : Word) : Byte := w.extractLsb' 0 8

/-- SHIFT, bit 8 of a command word (rules R80, R82). -/
def shiftField (w : Word) : Bool := w[8]

/-- RSV, bits [63:9] of a command word (rule R80). -/
def rsvField (w : Word) : BitVec 55 := w.extractLsb' 9 55

/-- A command whose SHIFT bit must be 0 (rule R81). -/
def unshifted (shift : Bool) (i : Instr) : Except Illegal Instr :=
  if shift then .error .shiftNotAllowed else .ok i

/-- The decoder of rule R83, with the class of rule R84 for a word that is ILLEGAL. -/
def decodeCommand (w : Word) : Except Illegal Instr :=
  if rsvField w ≠ 0#55 then .error .reservedBits
  else match opcField w with
    | 0x01#8 => unshifted (shiftField w) .iirConfig
    | 0x02#8 => unshifted (shiftField w) .iirReset
    | 0x03#8 => unshifted (shiftField w) .iirApply
    | 0x10#8 => .ok (.dilate (shiftField w))
    | 0x11#8 => .ok (.erode (shiftField w))
    | 0x12#8 => unshifted (shiftField w) .opening
    | 0x20#8 => unshifted (shiftField w) .peaks
    | _ => .error .reservedOpcode

/-- `decode` of rule R83: the command, or none for ILLEGAL. -/
def decode (w : Word) : Option Instr :=
  match decodeCommand w with
  | .ok i => some i
  | .error _ => none

/-- The SHIFT bit in its place in the command word (rule R80). -/
def shiftBit (shift : Bool) : Word := if shift then 0x100#64 else 0#64

/-- The command words of rule R85. -/
def encode : Instr → Word
  | .iirConfig => 0x0000000000000001#64
  | .iirReset => 0x0000000000000002#64
  | .iirApply => 0x0000000000000003#64
  | .dilate shift => 0x0000000000000010#64 ||| shiftBit shift
  | .erode shift => 0x0000000000000011#64 ||| shiftBit shift
  | .opening => 0x0000000000000012#64
  | .peaks => 0x0000000000000020#64

/-- One row of spec/opcode_table.json: a word `w` is this command exactly when `w &&& mask = pattern`. -/
structure OpRow where
  mnemonic : String
  pattern : Word
  mask : Word
  deriving DecidableEq, Repr

/-- The opcode table, row by row as spec/opcode_table.json has it. -/
def opcodeTable : List OpRow :=
  [ { mnemonic := "IIR_CONFIG", pattern := 0x0000000000000001#64, mask := 0xFFFFFFFFFFFFFFFF#64 },
    { mnemonic := "IIR_RESET", pattern := 0x0000000000000002#64, mask := 0xFFFFFFFFFFFFFFFF#64 },
    { mnemonic := "IIR_APPLY", pattern := 0x0000000000000003#64, mask := 0xFFFFFFFFFFFFFFFF#64 },
    { mnemonic := "DILATE", pattern := 0x0000000000000010#64, mask := 0xFFFFFFFFFFFFFEFF#64 },
    { mnemonic := "ERODE", pattern := 0x0000000000000011#64, mask := 0xFFFFFFFFFFFFFEFF#64 },
    { mnemonic := "OPEN", pattern := 0x0000000000000012#64, mask := 0xFFFFFFFFFFFFFFFF#64 },
    { mnemonic := "PEAKS", pattern := 0x0000000000000020#64, mask := 0xFFFFFFFFFFFFFFFF#64 } ]

/-- The mnemonic of a command (rule R81). -/
def mnemonicOf : Instr → String
  | .iirConfig => "IIR_CONFIG"
  | .iirReset => "IIR_RESET"
  | .iirApply => "IIR_APPLY"
  | .dilate _ => "DILATE"
  | .erode _ => "ERODE"
  | .opening => "OPEN"
  | .peaks => "PEAKS"

/-- A word matches a row of the opcode table. -/
def OpRow.covers (r : OpRow) (w : Word) : Bool := w &&& r.mask == r.pattern

/-- The command word that an instruction of `nbits` bits `w`, numbered as the opcode table numbers them, stands for: the bits
at `nbits` and above are 0 (rule R80: one 64-bit word is the only format). -/
def tableWord (nbits w : Nat) : Word := BitVec.ofNat 64 (w % 2 ^ nbits)

/-- What the decoder reads from a word given as the opcode table numbers its bits. -/
def decodeTableWord (nbits w : Nat) : Option Instr := decode (tableWord nbits w)

end Sys2Proof
end

