-- ==== Sys2Proof/Config.lean ====
section
/-! DEFINITION. What an implementation of the block fixes (rule R4) and the values the spec leaves free. A free value is an
opaque constant with no body: no proof can see which value it is. -/

namespace Sys2Proof

/-- The size parameters of rule R4. The spec's model takes them as arguments, so State holds them as plain data (they are
also what the read-only registers of rules R24 to R26 read) and every statement is about every value of them. -/
structure Params where
  /-- DMEM_WORDS: number of 64-bit words of the data memory, 1 to 2^32. -/
  dmemWords : Nat
  /-- MAX_ORDER: largest IIR order the engine accepts, 1 to 255. -/
  maxOrder : Nat
  /-- MAX_WIN: largest structuring-window length, 1 to 2^32 - 1. -/
  maxWin : Nat
  deriving DecidableEq, Repr

/-- The three arithmetic primitives of rule R6, as arguments of NAN_RESULT (rule R4). -/
inductive FloatOp where
  | fadd
  | fsub
  | fmul
  deriving DecidableEq, Repr

/-- The parameters of the block that State.reset describes: those of the spec's own programs (95_test_vectors.md section 3).
DESIGN CHOICE, unsafe (log entry 1): rule R4 leaves them open. No statement rests on them. -/
def Config.params : Params := { dmemWords := 128, maxOrder := 4, maxWin := 16 }

/-- The free part of NAN_RESULT(op, a, b) of rule R4: Machine/Float.lean sets the bits that make it a quiet NaN, all
others come from here. A free value (log entry 2). -/
opaque Config.nanPayload : FloatOp → Word → Word → Word

/-- What byte lane `a % 8` of DMEM word `a / 8` holds from power-on until it is written (rule R240). A free value
(log entry 3). -/
opaque Config.powerOnByte : Nat → Byte

/-- The stream of unspecified words of rules R73 and R231; State.draws says which one is next. A free value
(log entry 4). -/
opaque Config.freeWord : Nat → Word

/-- How many host steps pass between an issue and its core step (rules R101, R239): some finite number. A free value,
indexed by State.draws (log entry 5). -/
opaque Config.coreDelay : Nat → Nat

end Sys2Proof
end

