-- ==== Sys2Proof/Machine/Float.lean ====
section
/-! DEFINITION. Binary64 samples (rule R5), the arithmetic primitives (rule R6), the comparisons (rule R7) and the extreme
folds (rule R8), exactly and on bit patterns. -/

namespace Sys2Proof.Machine

/-- The sign bit of a sample (rule R5). -/
def fsign (w : Word) : Bool := w[63]

/-- The biased exponent, bits [62:52] (rule R5). -/
def fexp (w : Word) : Nat := (w.extractLsb' 52 11).toNat

/-- The fraction, bits [51:0] (rule R5). -/
def ffrac (w : Word) : Nat := (w.extractLsb' 0 52).toNat

/-- The pattern without its sign, bits [62:0]: on non-NaN patterns it is ordered as the magnitudes are. -/
def fbits63 (w : Word) : Nat := (w.extractLsb' 0 63).toNat

def fisNaN (w : Word) : Bool := fexp w == 0x7FF && ffrac w != 0

def fisInf (w : Word) : Bool := fexp w == 0x7FF && ffrac w == 0

/-- A pattern from its sign and bits [62:0]. -/
def fpack (sign : Bool) (low : Nat) : Word := BitVec.ofBool sign ++ BitVec.ofNat 63 low

/-- The pattern of an infinity, less its sign: biased exponent 0x7FF, fraction 0. -/
def infBits : Nat := 0x7FF <<< 52

/-- The magnitude of a finite sample in units of 2^-1074, the smallest subnormal (IEEE 754-2008 binary64). -/
def fmag (w : Word) : Nat :=
  if fexp w = 0 then ffrac w else ((1 <<< 52) + ffrac w) <<< (fexp w - 1)

/-- A finite sample in units of 2^-1074, signed. -/
def fexact (w : Word) : Int := if fsign w then -(fmag w : Int) else (fmag w : Int)

/-- Division by 2^k rounded to nearest, ties to even (rule R6). -/
def shiftRne (n k : Nat) : Nat :=
  let q := n >>> k
  let rest := n - q <<< k
  if 2 * rest > 1 <<< k ∨ (2 * rest = 1 <<< k ∧ q % 2 = 1) then q + 1 else q

/-- Bits [62:0] of the binary64 value nearest to `n * 2^(-1074 - d)`, ties to even, subnormals kept, infinity on overflow
(rule R6). With the significand `q` kept at exponent step `k`, the pattern is `k * 2^52 + q`: the carry of a significand that
rounds up to 2^53, and the step from subnormal to normal, are the addition's own. -/
def roundBits (n d : Nat) : Nat :=
  let shift := max d (n.log2 + 1 - 53)
  min (((shift - d) <<< 52) + shiftRne n shift) infBits

/-- NAN_RESULT(op, a, b) (rules R4, R6): a quiet NaN (exponent all ones, top fraction bit set) whose sign and payload are
free. -/
def nanResult (op : FloatOp) (a b : Word) : Word := Config.nanPayload op a b ||| 0x7FF8000000000000#64

/-- `b` with its sign changed: `a - b` is `a + (-b)` in IEEE 754. -/
def fneg (b : Word) : Word := b ^^^ 0x8000000000000000#64

/-- The IEEE sum of `a` and `c`, with NAN_RESULT named `nan` (rule R6). A sum that is exactly 0 is +0 unless both operands
are negative (round to nearest). -/
def faddWith (nan a c : Word) : Word :=
  if fisNaN a || fisNaN c then nan
  else if fisInf a then (if fisInf c && fsign a != fsign c then nan else a)
  else if fisInf c then c
  else
    let z := fexact a + fexact c
    if z = 0 then fpack (fsign a && fsign c) 0 else fpack (decide (z < 0)) (roundBits z.natAbs 0)

/-- `fadd` of rule R6. -/
def fadd (a b : Word) : Word := faddWith (nanResult .fadd a b) a b

/-- `fsub` of rule R6. -/
def fsub (a b : Word) : Word := faddWith (nanResult .fsub a b) a (fneg b)

/-- `fmul` of rule R6. -/
def fmul (a b : Word) : Word :=
  let nan := nanResult .fmul a b
  let sign := fsign a != fsign b
  if fisNaN a || fisNaN b then nan
  else if fisInf a || fisInf b then (if fmag a = 0 || fmag b = 0 then nan else fpack sign infBits)
  else fpack sign (roundBits (fmag a * fmag b) 1074)

/-- An integer ordered as the non-NaN samples are, the same for both zeros and extending to the infinities. -/
def fkey (w : Word) : Int := if fsign w then -(fbits63 w : Int) else (fbits63 w : Int)

/-- No operand is a NaN: the quiet comparisons are false otherwise (rule R7). -/
def fordered (a b : Word) : Bool := !fisNaN a && !fisNaN b

/-- `a > b` (rule R7). -/
def fgt (a b : Word) : Bool := fordered a b && decide (fkey a > fkey b)

/-- `a < b` (rule R7). -/
def flt (a b : Word) : Bool := fordered a b && decide (fkey a < fkey b)

/-- `a ≤ b` (rule R7). -/
def fle (a b : Word) : Bool := fordered a b && decide (fkey a ≤ fkey b)

/-- `a = b` (rule R7). -/
def feq (a b : Word) : Bool := fordered a b && decide (fkey a = fkey b)

/-- `a ≠ b` (rule R7): true with a NaN. -/
def fne (a b : Word) : Bool := !feq a b

/-- One step of `fold_max` (rule R8). -/
def maxStep (r v : Word) : Word := if fgt v r then v else r

/-- One step of `fold_min` (rule R8). -/
def minStep (r v : Word) : Word := if flt v r then v else r

/-- `fold_max` (rule R8). The rule takes a non-empty sequence, and every caller's is (rules R121, R143). -/
def foldMax : List Word → Word
  | [] => 0#64
  | r :: rest => rest.foldl maxStep r

/-- `fold_min` (rule R8). The rule takes a non-empty sequence, and every caller's is (rules R121, R143). -/
def foldMin : List Word → Word
  | [] => 0#64
  | r :: rest => rest.foldl minStep r

end Sys2Proof.Machine
end

