-- ==== Sys2Proof/Machine/State.lean ====
section
/-! DEFINITION. The state of the block, plain data, and its value after power-on reset (rules R20 to R47, R60, R230). Beside
what the spec gives the block it holds the host agent (rules R11, R87) and two counters of the model's own. -/

namespace Sys2Proof.Machine

/-- The error codes of rule R200. Codes 7 to 255 are reserved and never produced, so they have no constructor. -/
inductive ErrorCode where
  | noError
  | lengthMismatch
  | invalidLength
  | unsupportedParameter
  | illegalCommand
  | addressRange
  | notConfigured
  deriving DecidableEq, Repr

/-- The BUSY, DONE and ERR bits of STATUS (rule R28). IIR_CFG and IIR_RUN of STATUS are the engine's own bits (rule R38),
stored once, there. -/
structure Status where
  busy : Bool
  done : Bool
  err : Bool
  deriving DecidableEq, Repr

/-- ERRCODE (rule R29): the error code and opcode byte of the last completed command. -/
structure ErrCode where
  code : ErrorCode
  opc : Byte
  deriving DecidableEq, Repr

/-- HOSTERR (rule R30): the two sticky host-access error flags. -/
structure HostErr where
  wrBusy : Bool
  cmdBusy : Bool
  deriving DecidableEq, Repr

/-- The operand registers (rules R32 to R35, R37). -/
structure Operands where
  srcBase : Field32
  srcLen : Field32
  dstBase : Field32
  dstLen : Field32
  winM : Field32
  pkMindist : Field32
  pkMinprom : Word
  coefBBase : Field32
  coefBLen : Field32
  coefABase : Field32
  coefALen : Field32
  deriving DecidableEq, Repr

/-- The IIR engine state (rule R38). `cb` and `ca` have MAX_ORDER + 1 entries, `xh` and `yh` MAX_ORDER, oldest sample
first. -/
structure Iir where
  cfg : Bool
  run : Bool
  order : Nat
  cb : List Word
  ca : List Word
  xh : List Word
  yh : List Word
  deriving DecidableEq, Repr

/-- The four host accesses (rules R62 to R65). A DMEM address is an unsigned integer (rule R60). -/
inductive HostAccess where
  | regRead (r : RegIndex)
  | regWrite (r : RegIndex) (v : Word)
  | memRead (a : Nat)
  | memWrite (a : Nat) (v : Word)
  deriving DecidableEq, Repr

/-- A statement of a host program (rule R87): one host access, or `bnz`, which reads a register and jumps to the statement at
`target` (a label's place in the program) when the given bit is 1. -/
inductive HostStmt where
  | access (a : HostAccess)
  | bnz (r : RegIndex) (bit : Fin 64) (target : Nat)
  deriving DecidableEq, Repr

/-- The host agent (rules R11, R87): its program, the index of its next statement, and the values its reads have returned,
oldest first. -/
structure HostSide where
  script : List HostStmt
  pc : Nat
  replies : List Word
  deriving DecidableEq, Repr

/-- DMEM (rule R60), as the bytes written since power-on: byte lane `k` of word `a` (rule R66) is the cell at `8 * a + k`. An
address that is not listed has not been written since power-on (rule R240). -/
abbrev Memory := List Host.Cell

/-- The canonical form of DMEM: addresses strictly rising. An unlisted address holds no written byte at all, so no entry can
equal what an unlisted address holds. -/
abbrev Memory.wf (m : Memory) : Prop := m.Pairwise (fun c d => c.1 < d.1)

/-- The machine's state. -/
structure State where
  /-- DMEM_WORDS, MAX_ORDER and MAX_WIN, read through CFG_DMEM_WORDS, CFG_MAX_ORDER, CFG_MAX_WIN (rules R4, R24 to R26). -/
  params : Params
  /-- CMD_LAST: the last command word accepted for issue (rule R27), pending while BUSY = 1 (rule R47). -/
  cmdLast : Word
  /-- STATUS.BUSY, DONE, ERR (rule R28). -/
  status : Status
  /-- ERRCODE (rule R29). -/
  errcode : ErrCode
  /-- HOSTERR (rule R30). -/
  hosterr : HostErr
  /-- CTRL.IRQ_EN (rule R31). -/
  irqEn : Bool
  /-- The operand registers (rules R32 to R35, R37). -/
  ops : Operands
  /-- PK_COUNT (rule R36). -/
  pkCount : Field32
  /-- The IIR engine (rule R38). -/
  iir : Iir
  /-- DMEM (rule R60). -/
  mem : Memory
  /-- The host agent (rules R11, R87). -/
  host : HostSide
  /-- The MODEL's own: how many free values have been drawn (log entry 4). -/
  draws : Nat
  /-- The MODEL's own: how many more host steps come before the pending command's core step (log entry 5). -/
  coreDelay : Nat
  deriving DecidableEq, Repr

/-- No fault exists: rule R205, "The block has no trap, exception vector, handler, trap-saved state or trap-return
operation", and every host access has a defined effect (rules R21, R64, R65). Nobody raises one. -/
inductive Fault where
  deriving DecidableEq, Repr

/-- Why the model gives an instruction no meaning. -/
inductive Refusal where
  /-- Raised only by an arm of exec whose instruction has no meaning yet. Safe: the model stops. No arm does. -/
  | notModelled (mnemonic : String)
  deriving DecidableEq, Repr

/-- The IIR engine after reset: unconfigured, Idle, order 0, all coefficients and history 0 (rule R230). -/
def Iir.reset (p : Params) : Iir :=
  { cfg := false, run := false, order := 0,
    cb := List.replicate (p.maxOrder + 1) 0#64, ca := List.replicate (p.maxOrder + 1) 0#64,
    xh := List.replicate p.maxOrder 0#64, yh := List.replicate p.maxOrder 0#64 }

/-- The operand registers after reset: all 0 (rules R32 to R37, R230). -/
def Operands.reset : Operands :=
  { srcBase := 0#32, srcLen := 0#32, dstBase := 0#32, dstLen := 0#32, winM := 0#32, pkMindist := 0#32,
    pkMinprom := 0#64, coefBBase := 0#32, coefBLen := 0#32, coefABase := 0#32, coefALen := 0#32 }

/-- Power-on reset of the block with parameters `p` (rule R230); no DMEM word has been written (rule R240) and the host has
no statement to perform. -/
def State.resetWith (p : Params) : State :=
  { params := p, cmdLast := 0#64,
    status := { busy := false, done := false, err := false },
    errcode := { code := .noError, opc := 0#8 },
    hosterr := { wrBusy := false, cmdBusy := false },
    irqEn := false, ops := Operands.reset, pkCount := 0#32, iir := Iir.reset p, mem := [],
    host := { script := [], pc := 0, replies := [] }, draws := 0, coreDelay := 0 }

/-- The machine right after power-on reset (rule R230). -/
def State.reset : State := State.resetWith Config.params

end Sys2Proof.Machine
end

