-- ==== Sys2Proof/Machine/Flags.lean ====
section
/-! DEFINITION. The register images of the status state: STATUS, ERRCODE, HOSTERR, CTRL, and the interrupt output (rules R28 to
R31, R45, R200). -/

namespace Sys2Proof.Machine

/-- The number of an error code (rule R200). -/
def errorNumber : ErrorCode → Byte
  | .noError => 0#8
  | .lengthMismatch => 1#8
  | .invalidLength => 2#8
  | .unsupportedParameter => 3#8
  | .illegalCommand => 4#8
  | .addressRange => 5#8
  | .notConfigured => 6#8

/-- The image of STATUS from its five bits, 4 down to 0 (rule R28). -/
def statusImage (iirRun iirCfg err done busy : Bool) : Word :=
  0#59 ++ BitVec.ofBool iirRun ++ BitVec.ofBool iirCfg ++ BitVec.ofBool err ++ BitVec.ofBool done ++ BitVec.ofBool busy

/-- STATUS as it reads outside the write set (rule R28). -/
def statusWord (s : State) : Word := statusImage s.iir.run s.iir.cfg s.status.err s.status.done s.status.busy

/-- ERRCODE (rule R29): CODE in bits 7:0, OPC in bits 15:8. -/
def errcodeWord (s : State) : Word := 0#48 ++ s.errcode.opc ++ errorNumber s.errcode.code

/-- HOSTERR (rule R30): WR_BUSY in bit 0, CMD_BUSY in bit 1. -/
def hosterrWord (s : State) : Word := 0#62 ++ BitVec.ofBool s.hosterr.cmdBusy ++ BitVec.ofBool s.hosterr.wrBusy

/-- CTRL (rule R31): IRQ_EN in bit 0; SOFT_RESET reads 0. -/
def ctrlWord (s : State) : Word := 0#63 ++ BitVec.ofBool s.irqEn

/-- The interrupt output (rules R45, R206). -/
def irq (s : State) : Bool := s.status.done && s.irqEn

/-- A write of 1 clears a sticky flag, a write of 0 leaves it (rules R28, R30). -/
def writeOneToClear (old : Bool) (written : Bool) : Bool := old && !written

end Sys2Proof.Machine
end

