-- ==== Sys2Proof/Machine/Ops.lean ====
section
/-! DEFINITION. The operations over DMEM (rules R60 to R66) and over a command's life: issue (rule R100), the frame every
command runs in (rules R101, R102) and completion, which records the outcome (rules R103, R202). The block has no trap (rule
R205): what taking an exception is elsewhere is here `complete` with an error code, and there is no return. -/

namespace Sys2Proof.Machine

/-- The byte written last at a byte-lane address, none when nothing has been written there since power-on. -/
def Memory.get : Memory → Nat → Option Byte
  | [], _ => none
  | (x, b) :: rest, a => if x = a then some b else Memory.get rest a

/-- Writes one byte lane, in address order. -/
def Memory.put : Memory → Nat → Byte → Memory
  | [], a, v => [(a, v)]
  | (x, b) :: rest, a, v =>
    if a < x then (a, v) :: (x, b) :: rest
    else if a = x then (a, v) :: rest
    else (x, b) :: Memory.put rest a v

/-- What byte lane `a % 8` of DMEM word `a / 8` holds: what was written there, else its power-on value (rule R240). -/
def Memory.readByte (m : Memory) (a : Nat) : Byte := (Memory.get m a).getD (Config.powerOnByte a)

/-- DMEM[a] (rule R60): byte lane k is bits [8k+7 : 8k] (rule R66). -/
def Memory.readWord (m : Memory) (a : Nat) : Word :=
  Memory.readByte m (8 * a + 7) ++ Memory.readByte m (8 * a + 6) ++ Memory.readByte m (8 * a + 5) ++
  Memory.readByte m (8 * a + 4) ++ Memory.readByte m (8 * a + 3) ++ Memory.readByte m (8 * a + 2) ++
  Memory.readByte m (8 * a + 1) ++ Memory.readByte m (8 * a)

/-- Byte lane `k` of a word (rule R66). -/
def byteLane (v : Word) (k : Nat) : Byte := v.extractLsb' (8 * k) 8

/-- DMEM[a] <- v, all eight byte lanes at once (rules R60, R66, R68). -/
def Memory.writeWord (m : Memory) (a : Nat) (v : Word) : Memory :=
  (List.range 8).foldl (fun m k => Memory.put m (8 * a + k) (byteLane v k)) m

/-- MemRead(a, n) (00_scope.md section 4). -/
def Memory.readWords (m : Memory) (a n : Nat) : List Word := (List.range n).map (fun k => Memory.readWord m (a + k))

/-- MemWrite(a, len vs, vs) (00_scope.md section 4). -/
def Memory.writeWords (m : Memory) (a : Nat) : List Word → Memory
  | [] => m
  | v :: vs => Memory.writeWords (Memory.writeWord m a v) (a + 1) vs

/-- Issue of the command word `w`, whose core step comes after `delay` host steps (rules R100, R101). -/
def issueAfter (delay : Nat) (w : Word) (s : State) : State :=
  { s with
    cmdLast := w
    status := { busy := true, done := false, err := false }
    errcode := { code := .noError, opc := 0#8 }
    coreDelay := delay }

/-- Issue (rule R100). How many host steps come before the core step is unspecified (rules R101, R239): a free value. -/
def issue (w : Word) (s : State) : State :=
  { issueAfter (Config.coreDelay s.draws) w s with draws := s.draws + 1 }

/-- OPC of the pending command word (rules R29, R101). -/
def pendingOpc (s : State) : Byte := s.cmdLast.extractLsb' 0 8

/-- Completion (rule R103), which is also all that a failure records (rule R202). -/
def complete (code : ErrorCode) (s : State) : State :=
  { s with
    status := { busy := false, done := true, err := code != .noError }
    errcode := { code := code, opc := pendingOpc s } }

/-- The code of the first check that fails, noError when all pass (rules R102, R204); each check is given as (it fails, its
code), in the rule's order. -/
def firstFailure : List (Bool × ErrorCode) → ErrorCode
  | [] => .noError
  | (fails, code) :: rest => if fails then code else firstFailure rest

/-- The core step of a legal command (rules R101 to R103): when no check fails it performs its effect, and it completes. -/
def runCommand (code : ErrorCode) (perform : State → State) (s : State) : Host.Outcome State Fault Refusal :=
  .next (complete code (if code = .noError then perform s else s))

end Sys2Proof.Machine
end

