-- ==== Sys2Proof/Machine/Operands.lean ====
section
/-! DEFINITION. Operand decoding (rule R86), the region check (rule R9), the register map (rules R20 to R22) and the plain
value of every register (rules R23 to R44). -/

namespace Sys2Proof.Machine

/-- `inRange(base, n)` (rule R9), in ℕ without wrap-around; a region of length 0 is always in range (log entry 6). -/
def inRange (p : Params) (base n : Nat) : Bool := decide (n = 0) || decide (base + n ≤ p.dmemWords)

/-- `maxPeaks(n)` (rule R140): the size of the output region PEAKS checks. -/
def maxPeaks (n : Nat) : Nat := if n < 3 then 0 else (n - 1 - (n - 1) % 2) / 2

/-- Element `i` of a sequence; every use is in range. -/
def sampleAt (x : List Word) (i : Nat) : Word := x.getD i 0#64

/-- The subsequence of elements `lo` to `hi` inclusive, empty when hi < lo (00_scope.md section 4). -/
def slice (x : List Word) (lo hi : Nat) : List Word := (x.take (hi + 1)).drop lo

/-- `last(s, k)`: the last `k` elements (00_scope.md section 4). -/
def lastOf (x : List Word) (k : Nat) : List Word := x.drop (x.length - k)

/-- The input signal of a command: SRC_LEN words at SRC_BASE (rules R61, R86). -/
def inputSignal (s : State) : List Word := Memory.readWords s.mem s.ops.srcBase.toNat s.ops.srcLen.toNat

/-- The input region lies inside DMEM (rules R9, R78). -/
def srcInRange (s : State) : Bool := inRange s.params s.ops.srcBase.toNat s.ops.srcLen.toNat

/-- The output region of DST_LEN words lies inside DMEM (rules R9, R78). -/
def dstInRange (s : State) : Bool := inRange s.params s.ops.dstBase.toNat s.ops.dstLen.toNat

/-- The registers of the map of rule R20; `unmapped` is every other index (rule R21). -/
inductive Reg where
  | id | cfgDmemWords | cfgMaxOrder | cfgMaxWin
  | cmd | status | errcode | hosterr | ctrl
  | srcBase | srcLen | dstBase | dstLen | winM | pkMindist | pkMinprom | pkCount
  | coefBBase | coefBLen | coefABase | coefALen | iirOrder
  | iirB (k : Nat) | iirA (k : Nat) | iirXH (k : Nat) | iirYH (k : Nat)
  | unmapped
  deriving DecidableEq, Repr

/-- The four windows onto the IIR engine (rules R20, R41 to R44). -/
def windowAt (p : Params) (r : Nat) : Reg :=
  if 0x100 ≤ r ∧ r ≤ 0x100 + p.maxOrder then .iirB (r - 0x100)
  else if 0x200 ≤ r ∧ r ≤ 0x200 + p.maxOrder then .iirA (r - 0x200)
  else if 0x300 ≤ r ∧ r < 0x300 + p.maxOrder then .iirXH (r - 0x300)
  else if 0x400 ≤ r ∧ r < 0x400 + p.maxOrder then .iirYH (r - 0x400)
  else .unmapped

/-- The register map (rule R20). -/
def regAt (p : Params) (r : RegIndex) : Reg :=
  match r.toNat with
  | 0x000 => .id
  | 0x001 => .cfgDmemWords
  | 0x002 => .cfgMaxOrder
  | 0x003 => .cfgMaxWin
  | 0x008 => .cmd
  | 0x009 => .status
  | 0x00A => .errcode
  | 0x00B => .hosterr
  | 0x00C => .ctrl
  | 0x010 => .srcBase
  | 0x011 => .srcLen
  | 0x012 => .dstBase
  | 0x013 => .dstLen
  | 0x014 => .winM
  | 0x015 => .pkMindist
  | 0x016 => .pkMinprom
  | 0x017 => .pkCount
  | 0x018 => .coefBBase
  | 0x019 => .coefBLen
  | 0x01A => .coefABase
  | 0x01B => .coefALen
  | 0x01C => .iirOrder
  | n => windowAt p n

/-- The constant of ID (rule R23). -/
def idWord : Word := 0x4D50534300000001#64

/-- An entry of a window that reads 0 where it does not exist (rules R41 to R44). -/
def windowWord (present : Bool) (x : List Word) (k : Nat) : Word := if present then sampleAt x k else 0#64

/-- The value each register holds (rules R21 to R44), before rule R73. -/
def regWord (s : State) : Reg → Word
  | .id => idWord
  | .cfgDmemWords => BitVec.ofNat 64 s.params.dmemWords
  | .cfgMaxOrder => BitVec.ofNat 64 s.params.maxOrder
  | .cfgMaxWin => BitVec.ofNat 64 s.params.maxWin
  | .cmd => s.cmdLast
  | .status => statusWord s
  | .errcode => errcodeWord s
  | .hosterr => hosterrWord s
  | .ctrl => ctrlWord s
  | .srcBase => s.ops.srcBase.setWidth 64
  | .srcLen => s.ops.srcLen.setWidth 64
  | .dstBase => s.ops.dstBase.setWidth 64
  | .dstLen => s.ops.dstLen.setWidth 64
  | .winM => s.ops.winM.setWidth 64
  | .pkMindist => s.ops.pkMindist.setWidth 64
  | .pkMinprom => s.ops.pkMinprom
  | .pkCount => s.pkCount.setWidth 64
  | .coefBBase => s.ops.coefBBase.setWidth 64
  | .coefBLen => s.ops.coefBLen.setWidth 64
  | .coefABase => s.ops.coefABase.setWidth 64
  | .coefALen => s.ops.coefALen.setWidth 64
  | .iirOrder => if s.iir.cfg then BitVec.ofNat 64 s.iir.order else 0#64
  | .iirB k => windowWord (s.iir.cfg && decide (k ≤ s.iir.order)) s.iir.cb k
  | .iirA k => windowWord (s.iir.cfg && decide (k ≤ s.iir.order)) s.iir.ca k
  | .iirXH k => windowWord (s.iir.cfg && decide (k < s.iir.order)) s.iir.xh k
  | .iirYH k => windowWord (s.iir.cfg && decide (k < s.iir.order)) s.iir.yh k
  | .unmapped => 0#64

/-- A write to an operand register stores the low bits of the value (rules R22, R32 to R35, R37); a write to any other
register stores no operand. -/
def writeOperand (o : Operands) (v : Word) : Reg → Operands
  | .srcBase => { o with srcBase := v.setWidth 32 }
  | .srcLen => { o with srcLen := v.setWidth 32 }
  | .dstBase => { o with dstBase := v.setWidth 32 }
  | .dstLen => { o with dstLen := v.setWidth 32 }
  | .winM => { o with winM := v.setWidth 32 }
  | .pkMindist => { o with pkMindist := v.setWidth 32 }
  | .pkMinprom => { o with pkMinprom := v }
  | .coefBBase => { o with coefBBase := v.setWidth 32 }
  | .coefBLen => { o with coefBLen := v.setWidth 32 }
  | .coefABase => { o with coefABase := v.setWidth 32 }
  | .coefALen => { o with coefALen := v.setWidth 32 }
  | .id | .cfgDmemWords | .cfgMaxOrder | .cfgMaxWin | .cmd | .status | .errcode | .hosterr | .ctrl
  | .pkCount | .iirOrder | .iirB _ | .iirA _ | .iirXH _ | .iirYH _ | .unmapped => o

end Sys2Proof.Machine
end

