-- ==== Sys2Proof/Machine/IirFilter.lean ====
section
/-! DEFINITION. The IIR filter commands IIR_CONFIG, IIR_RESET and IIR_APPLY (rules R160 to R166). -/

namespace Sys2Proof.Machine

/-- The checks of IIR_CONFIG (rule R161), in its order. -/
def iirConfigChecks (s : State) : ErrorCode :=
  let lb := s.ops.coefBLen.toNat
  let la := s.ops.coefALen.toNat
  firstFailure
    [ (decide (lb = 0) || decide (la = 0), .invalidLength),
      (decide (max lb la = 1), .invalidLength),
      (decide (max lb la - 1 > s.params.maxOrder), .unsupportedParameter),
      (!inRange s.params s.ops.coefBBase.toNat lb || !inRange s.params s.ops.coefABase.toNat la, .addressRange) ]

/-- A coefficient sequence of `len` words at `base`, zero-padded to MAX_ORDER + 1 entries (rule R161). -/
def paddedCoefs (s : State) (base len : Nat) : List Word :=
  (List.range (s.params.maxOrder + 1)).map (fun k => if k < len then Memory.readWord s.mem (base + k) else 0#64)

/-- A history of MAX_ORDER zeros (rules R161, R162). -/
def zeroHistory (p : Params) : List Word := List.replicate p.maxOrder 0#64

/-- The effect of IIR_CONFIG (rule R161). -/
def performIirConfig (s : State) : State :=
  { s with
    iir :=
      { cfg := true, run := false,
        order := max s.ops.coefBLen.toNat s.ops.coefALen.toNat - 1,
        cb := paddedCoefs s s.ops.coefBBase.toNat s.ops.coefBLen.toNat,
        ca := paddedCoefs s s.ops.coefABase.toNat s.ops.coefALen.toNat,
        xh := zeroHistory s.params, yh := zeroHistory s.params } }

/-- IIR_CONFIG (rule R161). -/
def execIirConfig (s : State) : Host.Outcome State Fault Refusal := runCommand (iirConfigChecks s) performIirConfig s

/-- The check of IIR_RESET (rule R162). -/
def iirResetChecks (s : State) : ErrorCode := firstFailure [ (!s.iir.cfg, .notConfigured) ]

/-- The effect of IIR_RESET (rule R162). -/
def performIirReset (s : State) : State :=
  { s with iir := { s.iir with run := false, xh := zeroHistory s.params, yh := zeroHistory s.params } }

/-- IIR_RESET (rule R162). -/
def execIirReset (s : State) : Host.Outcome State Fault Refusal := runCommand (iirResetChecks s) performIirReset s

/-- The checks of IIR_APPLY (rule R163), in its order. -/
def iirApplyChecks (s : State) : ErrorCode :=
  firstFailure
    [ (!s.iir.cfg, .notConfigured),
      (s.ops.srcLen != s.ops.dstLen, .lengthMismatch),
      (s.ops.srcLen == 0#32, .invalidLength),
      (!srcInRange s || !dstInRange s, .addressRange) ]

/-- Lag `j` of the recursion added to the accumulator (rule R165). The extended sequences of rule R164 are lists whose index 0
is position -L, so position k is index L + k. -/
def lagStep (e : Iir) (xe ye : List Word) (i : Nat) (acc : Word) (j : Nat) : Word :=
  fadd acc (fsub (fmul (sampleAt e.cb j) (sampleAt xe (e.order + i - j)))
    (fmul (sampleAt e.ca j) (sampleAt ye (e.order + i - j))))

/-- y[i] (rule R165): the b[0]*x[i] seed, then the lags 1 to L in order. -/
def outputAt (e : Iir) (xe ye : List Word) (i : Nat) : Word :=
  (List.range' 1 e.order).foldl (lagStep e xe ye i) (fmul (sampleAt e.cb 0) (sampleAt xe (e.order + i)))

/-- The extended input of rule R164: the carried input history, then x. -/
def extendedInput (e : Iir) (x : List Word) : List Word := e.xh.take e.order ++ x

/-- The extended output of rule R164, grown one output at a time in increasing i (rule R165). -/
def extendedOutput (e : Iir) (x : List Word) : List Word :=
  (List.range x.length).foldl (fun ye i => ye ++ [outputAt e (extendedInput e x) ye i]) (e.yh.take e.order)

/-- `recursion(x)` (rule R165). -/
def recursion (e : Iir) (x : List Word) : List Word := (extendedOutput e x).drop (e.yh.take e.order).length

/-- A history buffer after a call that produced `v` (rule R166): the trailing L samples of the extended sequence; the entries
from L up stay as they are. -/
def trailing (L : Nat) (h v : List Word) : List Word := lastOf (h.take L ++ v) L ++ h.drop L

/-- The engine after an IIR_APPLY of `x` (rules R163, R166). -/
def afterApply (e : Iir) (x : List Word) : Iir :=
  { e with run := true, xh := trailing e.order e.xh x, yh := trailing e.order e.yh (recursion e x) }

/-- The effect of IIR_APPLY (rule R163). -/
def performIirApply (s : State) : State :=
  { s with
    mem := Memory.writeWords s.mem s.ops.dstBase.toNat (recursion s.iir (inputSignal s))
    iir := afterApply s.iir (inputSignal s) }

/-- IIR_APPLY (rule R163). -/
def execIirApply (s : State) : Host.Outcome State Fault Refusal := runCommand (iirApplyChecks s) performIirApply s

end Sys2Proof.Machine
end

