-- ==== Sys2Proof/Machine/Morph.lean ====
section
/-! DEFINITION. The morphology commands DILATE, ERODE and OPEN (rules R120 to R126). -/

namespace Sys2Proof.Machine

/-- The window reach (nl, nr) (rule R120), in ℤ; rule R120 takes m at least 1. -/
def reach (m : Nat) (shift : Bool) : Int × Int :=
  let split : Int × Int :=
    if m % 2 = 1 then (((m : Int) - 1) / 2, ((m : Int) - 1) / 2) else ((m : Int) / 2, (m : Int) / 2 - 1)
  if shift then (split.1 - 1, split.2 + 1) else split

/-- `clamp(v, lo, hi)` (rule R9). -/
def clamp (v lo hi : Int) : Int := max lo (min hi v)

/-- The window bounds [lo, hi] of position `i` of a signal of length `n` (rule R121). -/
def windowBounds (n m : Nat) (shift : Bool) (i : Nat) : Nat × Nat :=
  ((clamp ((i : Int) - (reach m shift).1) 0 ((n : Int) - 1)).toNat,
   (clamp ((i : Int) + (reach m shift).2) 0 ((n : Int) - 1)).toNat)

/-- The window of position `i` (rule R121). -/
def window (x : List Word) (m : Nat) (shift : Bool) (i : Nat) : List Word :=
  slice x (windowBounds x.length m shift i).1 (windowBounds x.length m shift i).2

/-- `dilate_seq` (rule R122). -/
def dilateSeq (x : List Word) (m : Nat) (shift : Bool) : List Word :=
  (List.range x.length).map (fun i => foldMax (window x m shift i))

/-- `erode_seq` (rule R123). -/
def erodeSeq (x : List Word) (m : Nat) (shift : Bool) : List Word :=
  (List.range x.length).map (fun i => foldMin (window x m shift i))

/-- The padded sequence of OPEN (rule R124): the end samples repeated `m` times on each side. -/
def edgePad (x : List Word) (m : Nat) : List Word :=
  List.replicate m (sampleAt x 0) ++ x ++ List.replicate m (sampleAt x (x.length - 1))

/-- The opening of a non-empty signal, padded, eroded, dilated and stripped (rule R124); of an empty one nothing. -/
def openSeq (x : List Word) (m : Nat) : List Word :=
  if x.length = 0 then []
  else ((dilateSeq (erodeSeq (edgePad x m) m false) m false).drop m).take x.length

/-- The checks of DILATE, ERODE and OPEN (rule R125), in its order. -/
def morphChecks (s : State) : ErrorCode :=
  firstFailure
    [ (s.ops.srcLen != s.ops.dstLen, .lengthMismatch),
      (s.ops.winM == 0#32, .invalidLength),
      (decide (s.ops.winM.toNat > s.params.maxWin), .unsupportedParameter),
      (!srcInRange s || !dstInRange s, .addressRange) ]

/-- Reads the whole input, computes the whole output, then writes it at DST_BASE (rules R70, R126). -/
def mapSignal (f : List Word → List Word) (s : State) : State :=
  { s with mem := Memory.writeWords s.mem s.ops.dstBase.toNat (f (inputSignal s)) }

/-- DILATE (rule R122). -/
def execDilate (shift : Bool) (s : State) : Host.Outcome State Fault Refusal :=
  runCommand (morphChecks s) (mapSignal (fun x => dilateSeq x s.ops.winM.toNat shift)) s

/-- ERODE (rule R123). -/
def execErode (shift : Bool) (s : State) : Host.Outcome State Fault Refusal :=
  runCommand (morphChecks s) (mapSignal (fun x => erodeSeq x s.ops.winM.toNat shift)) s

/-- OPEN (rule R124). -/
def execOpen (s : State) : Host.Outcome State Fault Refusal :=
  runCommand (morphChecks s) (mapSignal (fun x => openSeq x s.ops.winM.toNat)) s

end Sys2Proof.Machine
end

