-- ==== Sys2Proof/Machine/Peak.lean ====
section
/-! DEFINITION. The peak detection command PEAKS (rules R140 to R148). -/

namespace Sys2Proof.Machine

/-- `j` of rule R141: the first index after `i` whose sample is not equal to x[i], the signal's length when there is none. -/
def plateauEnd (x : List Word) (i : Nat) : Nat :=
  i + 1 + ((x.drop (i + 1)).takeWhile (fun v => feq v (sampleAt x i))).length

/-- Position `i` is a candidate (rule R141): a rise into it, and a strict decrease right after its plateau. -/
def isCandidate (x : List Word) (i : Nat) : Bool :=
  fgt (sampleAt x i) (sampleAt x (i - 1)) &&
  decide (plateauEnd x i < x.length) && fgt (sampleAt x i) (sampleAt x (plateauEnd x i))

/-- `stageA` (rule R141). -/
def stageA (x : List Word) : List Nat := (List.range' 1 (x.length - 1)).filter (isCandidate x)

/-- The nearest candidate to the left of C[k] that is strictly greater, if any (rule R143). -/
def leftEdge (x : List Word) (C : List Nat) (k : Nat) : Option Nat :=
  (C.take k).reverse.find? (fun q => fgt (sampleAt x q) (sampleAt x (C.getD k 0)))

/-- The nearest candidate to the right of C[k] that is strictly greater, if any (rule R143). -/
def rightEdge (x : List Word) (C : List Nat) (k : Nat) : Option Nat :=
  (C.drop (k + 1)).find? (fun q => fgt (sampleAt x q) (sampleAt x (C.getD k 0)))

/-- `ref` of rule R143: the larger of the minima on the two sides of C[k]. -/
def prominenceRef (x : List Word) (C : List Nat) (k : Nat) : Word :=
  let p := C.getD k 0
  let lo := match leftEdge x C k with
    | none => 0
    | some q => q + 1
  let hi := match rightEdge x C k with
    | none => x.length - 1
    | some q => q
  let minL := foldMin (slice x lo (p - 1))
  let minR := foldMin (slice x (p + 1) hi)
  if fgt minL minR then minL else minR

/-- `prominence` (rule R143). -/
def prominence (x : List Word) (C : List Nat) (k : Nat) : Word :=
  fsub (sampleAt x (C.getD k 0)) (prominenceRef x C k)

/-- `stageB` (rule R144): all prominences are those of the whole list C. -/
def stageB (x : List Word) (C : List Nat) (thr : Word) : List Nat :=
  ((List.range C.length).filter (fun k => !fle (prominence x C k) thr)).map (fun k => C.getD k 0)

/-- The order in which Stage C takes the candidates (rule R145): taller first, equal values by index. -/
def comesBefore (x : List Word) (p q : Nat) : Bool :=
  fgt (sampleAt x p) (sampleAt x q) || (feq (sampleAt x p) (sampleAt x q) && decide (p < q))

/-- The index distance abs(p - q) (rules R10, R145). -/
def indexDistance (p q : Nat) : Nat := ((p : Int) - (q : Int)).natAbs

/-- Keep a candidate that is farther than `dist` from every one already kept (rule R145). -/
def keepStep (dist : Nat) (K : List Nat) (p : Nat) : List Nat :=
  if K.all (fun q => decide (indexDistance p q > dist)) then K ++ [p] else K

/-- `stageC` (rule R145). -/
def stageC (x : List Word) (C : List Nat) (dist : Nat) : List Nat :=
  ((C.insertionSort (fun p q => comesBefore x p q = true)).foldl (keepStep dist) []).insertionSort (fun p q => p ≤ q)

/-- The peak indices of a signal (rules R140, R142, R146): Stage A, then the stages that are enabled. -/
def peakIndices (x : List Word) (dist : Nat) (thr : Word) : List Nat :=
  if x.length < 3 then []
  else
    let A := stageA x
    let B := if fgt thr 0#64 then stageB x A thr else A
    if dist > 0 then stageC x B dist else B

/-- The check of PEAKS (rule R140). -/
def peaksChecks (s : State) : ErrorCode :=
  firstFailure
    [ (!srcInRange s || !inRange s.params s.ops.dstBase.toNat (maxPeaks s.ops.srcLen.toNat), .addressRange) ]

/-- The peaks of the command's input signal. -/
def peaksOf (s : State) : List Nat := peakIndices (inputSignal s) s.ops.pkMindist.toNat s.ops.pkMinprom

/-- `writeback` (rules R147, R148): the indices as 64-bit words at DST_BASE, their number in PK_COUNT. -/
def performPeaks (s : State) : State :=
  { s with
    mem := Memory.writeWords s.mem s.ops.dstBase.toNat ((peaksOf s).map (fun p => BitVec.ofNat 64 p))
    pkCount := BitVec.ofNat 32 (peaksOf s).length }

/-- PEAKS (rule R140). -/
def execPeaks (s : State) : Host.Outcome State Fault Refusal := runCommand (peaksChecks s) performPeaks s

end Sys2Proof.Machine
end

