-- ==== Sys2Proof/Machine/Dispatch.lean ====
section
/-! DEFINITION. One arm per command: its meaning is the core step of that command (rule R101). -/

namespace Sys2Proof.Machine

def exec (i : Instr) (s : State) : Host.Outcome State Fault Refusal :=
  match i with
  | .iirConfig => Sys2Proof.Machine.execIirConfig s
  | .iirReset => Sys2Proof.Machine.execIirReset s
  | .iirApply => Sys2Proof.Machine.execIirApply s
  | .dilate shift => Sys2Proof.Machine.execDilate shift s
  | .erode shift => Sys2Proof.Machine.execErode shift s
  | .opening => Sys2Proof.Machine.execOpen s
  | .peaks => Sys2Proof.Machine.execPeaks s

end Sys2Proof.Machine
end

