-- ==== Sys2Proof/Machine/HostPort.lean ====
section
/-! DEFINITION. The host's side of the block: the write set of the pending command (rule R104), soft reset (rule R231), the
four host accesses (rules R62 to R65, R73, R74) and the statements of a host program (rule R87). -/

namespace Sys2Proof.Machine

/-- The registers in the write set of a pending command (rule R104), STATUS apart. -/
def commandWritesReg : Option Instr → Reg → Bool
  | some .iirConfig, .iirOrder => true
  | some .iirConfig, .iirB _ => true
  | some .iirConfig, .iirA _ => true
  | some .iirConfig, .iirXH _ => true
  | some .iirConfig, .iirYH _ => true
  | some .iirReset, .iirXH _ => true
  | some .iirReset, .iirYH _ => true
  | some .iirApply, .iirXH _ => true
  | some .iirApply, .iirYH _ => true
  | some .peaks, .pkCount => true
  | _, _ => false

/-- CFG, and so STATUS.IIR_CFG, is in the write set (rule R104). -/
def commandWritesCfg : Option Instr → Bool
  | some .iirConfig => true
  | _ => false

/-- RUN, and so STATUS.IIR_RUN, is in the write set (rule R104). -/
def commandWritesRun : Option Instr → Bool
  | some .iirConfig => true
  | some .iirReset => true
  | some .iirApply => true
  | _ => false

/-- How many words from DST_BASE the write set names (rule R104), before the cut at DMEM_WORDS. -/
def writeSetLength (o : Operands) : Option Instr → Nat
  | some .iirApply => o.dstLen.toNat
  | some (.dilate _) => o.dstLen.toNat
  | some (.erode _) => o.dstLen.toNat
  | some .opening => o.dstLen.toNat
  | some .peaks => maxPeaks o.srcLen.toNat
  | some .iirConfig => 0
  | some .iirReset => 0
  | none => 0

/-- How many words from DST_BASE are in the write set: those below DMEM_WORDS (rule R104). -/
def writeSetWords (s : State) : Nat :=
  min (writeSetLength s.ops (decode s.cmdLast)) (s.params.dmemWords - s.ops.dstBase.toNat)

/-- DMEM word `a` is in the write set of the pending command (rule R104). -/
def inWriteSet (s : State) (a : Nat) : Bool :=
  decide (s.ops.dstBase.toNat ≤ a) && decide (a < s.ops.dstBase.toNat + writeSetWords s)

/-- DMEM after a soft reset (rule R231): each word of an abandoned command's write set takes an unspecified value. -/
def abandonedMem (s : State) : Memory :=
  if s.status.busy then
    Memory.writeWords s.mem s.ops.dstBase.toNat
      ((List.range (writeSetWords s)).map (fun k => Config.freeWord (s.draws + k)))
  else s.mem

/-- Soft reset (rule R231): the registers and the IIR engine as after power-on (rule R230), DMEM kept but for an abandoned
command's write set. The block's parameters are constants and the host is another agent. -/
def softReset (s : State) : State :=
  { State.resetWith s.params with
    mem := abandonedMem s
    host := s.host
    draws := s.draws + writeSetWords s }

/-- STATUS as it reads during the BUSY window (rules R73, R104): BUSY, DONE and ERR exactly, IIR_CFG and IIR_RUN unspecified
where the pending command may write them. -/
def busyStatusWord (s : State) : Word :=
  let c := decode s.cmdLast
  let free := Config.freeWord s.draws
  statusImage (if commandWritesRun c then free[4] else s.iir.run)
    (if commandWritesCfg c then free[3] else s.iir.cfg) s.status.err s.status.done s.status.busy

/-- The value `RegRead(r)` returns (rules R62, R73). -/
def regReadValue (s : State) (r : RegIndex) : Word :=
  let reg := regAt s.params r
  if s.status.busy then
    if reg = .status then busyStatusWord s
    else if commandWritesReg (decode s.cmdLast) reg then Config.freeWord s.draws
    else regWord s reg
  else regWord s reg

/-- The value `MemReadHost(a)` returns (rules R64, R73, R240). -/
def memReadValue (s : State) (a : Nat) : Word :=
  if a < s.params.dmemWords then
    if s.status.busy && inWriteSet s a then Config.freeWord s.draws else Memory.readWord s.mem a
  else 0#64

/-- A read returns its value to the host and changes nothing of the block (rules R62, R68); the draw counter is the model's. -/
def reply (v : Word) (s : State) : State :=
  { s with
    host := { s.host with replies := s.host.replies ++ [v] }
    draws := s.draws + 1 }

/-- A host write refused during the BUSY window, other than to CMD (rules R30, R74). -/
def refuseWrite (s : State) : State := { s with hosterr := { s.hosterr with wrBusy := true } }

/-- A write to CMD: an issue (rule R100), or refused during the BUSY window (rules R27, R74). -/
def writeCmd (v : Word) (s : State) : State :=
  if s.status.busy then { s with hosterr := { s.hosterr with cmdBusy := true } } else issue v s

/-- A write to STATUS: the DONE acknowledge (rules R28, R105). -/
def writeStatus (v : Word) (s : State) : State :=
  { s with status := { s.status with done := writeOneToClear s.status.done (v[1]) } }

/-- A write to HOSTERR: each flag is cleared by a 1 (rule R30). -/
def writeHosterr (v : Word) (s : State) : State :=
  { s with
    hosterr :=
      { wrBusy := writeOneToClear s.hosterr.wrBusy (v[0]),
        cmdBusy := writeOneToClear s.hosterr.cmdBusy (v[1]) } }

/-- A write to CTRL: soft reset when bit 1 is 1, else IRQ_EN (rule R31). -/
def writeCtrl (v : Word) (s : State) : State :=
  if v[1] then softReset s else { s with irqEn := v[0] }

/-- A write to any other register: refused during the BUSY window (rule R74), else it stores an operand or is ignored (rules
R21, R22). -/
def writeOther (reg : Reg) (v : Word) (s : State) : State :=
  if s.status.busy then refuseWrite s else { s with ops := writeOperand s.ops v reg }

/-- `RegWrite(r, v)` (rules R63, R74). -/
def regWrite (r : RegIndex) (v : Word) (s : State) : State :=
  match regAt s.params r with
  | .cmd => writeCmd v s
  | .status => writeStatus v s
  | .hosterr => writeHosterr v s
  | .ctrl => writeCtrl v s
  | reg => writeOther reg v s

/-- `MemWriteHost(a, v)` (rules R65, R74). -/
def memWrite (a : Nat) (v : Word) (s : State) : State :=
  if s.status.busy then refuseWrite s
  else if a < s.params.dmemWords then { s with mem := Memory.writeWord s.mem a v }
  else s

/-- One host access (rules R62 to R65). -/
def hostAccess : HostAccess → State → State
  | .regRead r, s => reply (regReadValue s r) s
  | .regWrite r v, s => regWrite r v s
  | .memRead a, s => reply (memReadValue s a) s
  | .memWrite a v, s => memWrite a v s

/-- The host goes on at statement `n` of its program. -/
def hostGoto (n : Nat) (s : State) : State := { s with host := { s.host with pc := n } }

/-- One statement of the host's program (rule R87). -/
def hostStmt : HostStmt → State → State
  | .access a, s => hostGoto (s.host.pc + 1) (hostAccess a s)
  | .bnz r bit target, s =>
    hostGoto (if (regReadValue s r).getLsbD bit then target else s.host.pc + 1) (hostAccess (.regRead r) s)

end Sys2Proof.Machine
end

