-- ==== Sys2Proof/Machine/Turn.lean ====
section
/-! DEFINITION. Whose turn it is and what it does: the two agents of rule R11 take atomic steps in one total order (rule R71);
the core step (rule R101) and the host's (rules R87, R106). -/

namespace Sys2Proof.Machine

/-- The next event of the total order of rule R71. -/
inductive Turn where
  /-- The core step of the pending command. -/
  | core
  /-- The host performs its next statement. -/
  | host (stmt : HostStmt)
  /-- Nothing happens: no command is pending and the host's program has ended. -/
  | idle
  deriving DecidableEq, Repr

/-- The statement the host performs next, none when its program has ended (rule R106). -/
def nextStmt (s : State) : Option HostStmt := s.host.script[s.host.pc]?

/-- The core step is enabled exactly while BUSY = 1 and comes after the drawn number of host steps (rule R101), or when the host
has nothing left to do. -/
def turn (s : State) : Turn :=
  match nextStmt s with
  | none => if s.status.busy then .core else .idle
  | some stmt => if s.status.busy && s.coreDelay == 0 then .core else .host stmt

/-- `core_step()` (rule R101): the command it decodes, or completion with ILLEGAL_COMMAND (rule R84). -/
def coreStep (s : State) : Host.Outcome State Fault Refusal :=
  match decode s.cmdLast with
  | some i => exec i s
  | none => .next (complete .illegalCommand s)

/-- One host step: it brings the pending command's core step one host step nearer. -/
def hostTurn (stmt : HostStmt) (s : State) : State := hostStmt stmt { s with coreDelay := s.coreDelay - 1 }

/-- One event of the total order. -/
def advance (s : State) : Host.Outcome State Fault Refusal :=
  match turn s with
  | .core => coreStep s
  | .host stmt => .next (hostTurn stmt s)
  | .idle => .next s

/-- The pending command becomes `w`, its core step the very next event: what an issue (rule R100) leaves, with no host step
between it and the core step. -/
def placePending (w : Word) (s : State) : State := issueAfter 0 w s

end Sys2Proof.Machine
end

