-- ==== Sys2Proof/Machine/Step.lean ====
section
/-! DEFINITION. One step of the machine, and a command placed where the core fetches its next one: CMD_LAST with BUSY = 1
(rules R47, R101). -/

namespace Sys2Proof.Machine

/-- One event of the total order of rule R71: a core step, a host step, or nothing. -/
def step (s : State) : Host.Outcome State Fault Refusal := advance s

/-- The command of `nbits` bits `w` issued and its core step next. The block fetches from nowhere else (rule R75). -/
def State.withFetchWord (s : State) (nbits w : Nat) : State := placePending (tableWord nbits w) s

end Sys2Proof.Machine
end

