-- ==== Sys2Proof/WellFormed.lean ====
section
/-! DEFINITION. Well-formedness: of an instruction (every term of Instr is one, rule R80), and of the block's size parameters
(the legal values of rule R4). -/

namespace Sys2Proof

/-- A command carries no register number and no immediate but the one-bit SHIFT of DILATE and ERODE (rules R80, R82), so
every term has an encoding and none is ill-formed. -/
def Instr.wf : Instr → Bool
  | .iirConfig => true
  | .iirReset => true
  | .iirApply => true
  | .dilate _ => true
  | .erode _ => true
  | .opening => true
  | .peaks => true

/-- The legal values of DMEM_WORDS, MAX_ORDER and MAX_WIN (rule R4). -/
def Params.wf (p : Params) : Bool :=
  decide (1 ≤ p.dmemWords) && decide (p.dmemWords ≤ 0x100000000) &&
  decide (1 ≤ p.maxOrder) && decide (p.maxOrder ≤ 255) &&
  decide (1 ≤ p.maxWin) && decide (p.maxWin ≤ 0xFFFFFFFF)

end Sys2Proof
end

