-- ==== Sys2Proof/Safety.lean ====
section
/-! DEFINITION. The terms claims are stated in: the invariant of the machine, what a frame leaves alone, when a run has ended,
and the spec's formulas written out once more, apart from the functions the machine computes with. -/

namespace Sys2Proof.Machine

/-- What rule R38 says of the IIR engine: the sizes of its arrays, the order at most MAX_ORDER and at least 1 once
configured, 0 in every entry above the order, and (rule R39) an Idle engine has zero history. -/
structure Iir.Inv (p : Params) (e : Iir) : Prop where
  cbLength : e.cb.length = p.maxOrder + 1
  caLength : e.ca.length = p.maxOrder + 1
  xhLength : e.xh.length = p.maxOrder
  yhLength : e.yh.length = p.maxOrder
  orderLe : e.order ≤ p.maxOrder
  orderPos : e.cfg = true → 1 ≤ e.order
  unconfigured : e.cfg = false → e = Iir.reset p
  cbAbove : ∀ v ∈ e.cb.drop (e.order + 1), v = 0#64
  caAbove : ∀ v ∈ e.ca.drop (e.order + 1), v = 0#64
  xhAbove : ∀ v ∈ e.xh.drop e.order, v = 0#64
  yhAbove : ∀ v ∈ e.yh.drop e.order, v = 0#64
  idleHistory : e.run = false → e.xh = List.replicate p.maxOrder 0#64 ∧ e.yh = List.replicate p.maxOrder 0#64

/-- Every cell lies inside a DMEM of `words` words (rule R60). -/
def Memory.Inside (words : Nat) (m : Memory) : Prop := ∀ c ∈ m, c.1 < 8 * words

/-- The invariant of the machine: legal parameters (rule R4), DMEM in canonical form and inside the address space (rule R60),
STATUS and ERRCODE consistent (rules R28, R29, R73, R100, R103), and the engine's own (rule R38). -/
structure State.Inv (s : State) : Prop where
  paramsLegal : s.params.wf = true
  memCanonical : Memory.wf s.mem
  memInside : Memory.Inside s.params.dmemWords s.mem
  busyClears : s.status.busy = true →
    s.status.done = false ∧ s.status.err = false ∧ s.errcode = { code := .noError, opc := 0#8 }
  errIffCode : s.status.err = (s.errcode.code != .noError)
  engine : Iir.Inv s.params s.iir

/-- Every byte lane outside the words `base` to `base + len - 1` is the same in both memories. -/
def sameOutside (m m' : Memory) (base len : Nat) : Prop :=
  ∀ a, a < 8 * base ∨ 8 * (base + len) ≤ a → Memory.readByte m' a = Memory.readByte m a

/-- The region check of rule R9, written out (a region of length 0: log entry 6). -/
def regionOk (s : State) (base n : Nat) : Prop := n = 0 ∨ base + n ≤ s.params.dmemWords

/-- The input and output regions of a command with DST_LEN outputs are in range. -/
def regionsOk (s : State) : Prop :=
  regionOk s s.ops.srcBase.toNat s.ops.srcLen.toNat ∧ regionOk s s.ops.dstBase.toNat s.ops.dstLen.toNat

/-- The conditions under which DILATE, ERODE and OPEN perform (rule R125). -/
def morphPasses (s : State) : Prop :=
  s.ops.srcLen = s.ops.dstLen ∧ s.ops.winM ≠ 0#32 ∧ s.ops.winM.toNat ≤ s.params.maxWin ∧ regionsOk s

/-- The conditions under which IIR_APPLY performs (rule R163). -/
def applyPasses (s : State) : Prop :=
  s.iir.cfg = true ∧ s.ops.srcLen = s.ops.dstLen ∧ s.ops.srcLen ≠ 0#32 ∧ regionsOk s

/-- The conditions under which IIR_CONFIG performs (rule R161). -/
def configPasses (s : State) : Prop :=
  s.ops.coefBLen ≠ 0#32 ∧ s.ops.coefALen ≠ 0#32 ∧ 2 ≤ max s.ops.coefBLen.toNat s.ops.coefALen.toNat ∧
  max s.ops.coefBLen.toNat s.ops.coefALen.toNat ≤ s.params.maxOrder + 1 ∧
  regionOk s s.ops.coefBBase.toNat s.ops.coefBLen.toNat ∧ regionOk s s.ops.coefABase.toNat s.ops.coefALen.toNat

/-- The condition under which PEAKS performs (rule R140). -/
def peaksPasses (s : State) : Prop :=
  regionOk s s.ops.srcBase.toNat s.ops.srcLen.toNat ∧
  regionOk s s.ops.dstBase.toNat (if s.ops.srcLen.toNat < 3 then 0 else (s.ops.srcLen.toNat - 1) / 2)

/-- STATUS and ERRCODE of a state in which a command has completed with code 0 (rule R103). -/
def succeeded (s t : State) : Prop :=
  t.status = { busy := false, done := true, err := false } ∧
  t.errcode = { code := .noError, opc := s.cmdLast.extractLsb' 0 8 }

/-- What completion records (rule R103): BUSY 0, DONE 1, ERR exactly when the code is not 0, OPC the low byte of the command
word; the interrupt output is then IRQ_EN, and HOSTERR is as it was. -/
def completedFrom (s t : State) : Prop :=
  t.status.busy = false ∧ t.status.done = true ∧ (t.status.err = true ↔ t.errcode.code ≠ .noError) ∧
  t.errcode.opc = s.cmdLast.extractLsb' 0 8 ∧ irq t = s.irqEn ∧ t.hosterr = s.hosterr

/-- Everything but STATUS, ERRCODE, DMEM, PK_COUNT and the IIR engine is the same. -/
def sameElsewhere (s t : State) : Prop :=
  t.params = s.params ∧ t.cmdLast = s.cmdLast ∧ t.hosterr = s.hosterr ∧ t.irqEn = s.irqEn ∧ t.ops = s.ops ∧
  t.host = s.host ∧ t.draws = s.draws ∧ t.coreDelay = s.coreDelay

/-- The window [lo, hi] of rules R120 and R121, written out. -/
def windowRange (n m : Nat) (shift : Bool) (i : Nat) : Nat × Nat :=
  let one : Int := if shift then 1 else 0
  let nl : Int := (if m % 2 = 1 then ((m : Int) - 1) / 2 else (m : Int) / 2) - one
  let nr : Int := (if m % 2 = 1 then ((m : Int) - 1) / 2 else (m : Int) / 2 - 1) + one
  ((max 0 (min ((n : Int) - 1) ((i : Int) - nl))).toNat, (max 0 (min ((n : Int) - 1) ((i : Int) + nr))).toNat)

/-- Element `j` (index 0 is position -L) of the extended input of rule R164 for the pending IIR_APPLY. -/
def extIn (s : State) (j : Nat) : Word :=
  if j < s.iir.order then sampleAt s.iir.xh j
  else Memory.readWord s.mem (s.ops.srcBase.toNat + (j - s.iir.order))

/-- Element `j` of the extended output of rule R164: history of `s`, then the outputs as they stand in DMEM of `t`. -/
def extOut (s t : State) (j : Nat) : Word :=
  if j < s.iir.order then sampleAt s.iir.yh j
  else Memory.readWord t.mem (s.ops.dstBase.toNat + (j - s.iir.order))

/-- A sample that is neither infinite nor a NaN. -/
def isFinite (w : Word) : Bool := fexp w != 0x7FF

/-- Rule R6's rounding, by its meaning: `low` (bits [62:0]) is a finite pattern whose magnitude is nearest to
`n * 2^(-1074 - d)` among all finite ones, with an even last bit where another is as near; or it is infinity and the exact
value is at least 2^1024 - 2^970, where round to nearest overflows. -/
def NearestEven (n d low : Nat) : Prop :=
  (low < infBits ∧ n < ((1 <<< 54) - 1) <<< (2044 + d) ∧
    ∀ other, other < infBits →
      let err := ((fmag (fpack false low) <<< d : Nat) - (n : Int)).natAbs
      let err' := ((fmag (fpack false other) <<< d : Nat) - (n : Int)).natAbs
      err ≤ err' ∧ (err = err' → other ≠ low → low % 2 = 0)) ∨
  (low = infBits ∧ ((1 <<< 54) - 1) <<< (2044 + d) ≤ n)

/-- A run of the host's program has ended (rule R106): its last statement has executed and BUSY = 0. -/
def runEnded (s : State) : Prop := s.host.script.length ≤ s.host.pc ∧ s.status.busy = false

/-- A safe step: the machine goes on. -/
def stepsOn (s : State) : Prop := ∃ t, step s = .next t

end Sys2Proof.Machine
end

