-- ==== Sys2Proof/Certificates/Slice0/Obligations.lean ====
section
/-! DEFINITION. The statements for the provers, one definition each; OBLIGATIONS.json lists them with their rules. -/

open Sys2Proof Sys2Proof.Machine

/-! ### Encoding (30_encoding.md) -/

/-- Rule R85: the command words in full, both ways. A sanity statement on nine words. -/
def Obligations.CommandWordsInFull : Prop :=
  (decode 0x0000000000000001#64 = some .iirConfig ∧ encode .iirConfig = 0x0000000000000001#64) ∧
  (decode 0x0000000000000002#64 = some .iirReset ∧ encode .iirReset = 0x0000000000000002#64) ∧
  (decode 0x0000000000000003#64 = some .iirApply ∧ encode .iirApply = 0x0000000000000003#64) ∧
  (decode 0x0000000000000010#64 = some (.dilate false) ∧ encode (.dilate false) = 0x0000000000000010#64) ∧
  (decode 0x0000000000000110#64 = some (.dilate true) ∧ encode (.dilate true) = 0x0000000000000110#64) ∧
  (decode 0x0000000000000011#64 = some (.erode false) ∧ encode (.erode false) = 0x0000000000000011#64) ∧
  (decode 0x0000000000000111#64 = some (.erode true) ∧ encode (.erode true) = 0x0000000000000111#64) ∧
  (decode 0x0000000000000012#64 = some .opening ∧ encode .opening = 0x0000000000000012#64) ∧
  (decode 0x0000000000000020#64 = some .peaks ∧ encode .peaks = 0x0000000000000020#64)

/-- Rules R83 and R85: a word decodes to a command exactly when it is that command's word, so decoding and encoding are
inverse on every word and every command. -/
def Obligations.DecodeInvertsEncode : Prop :=
  ∀ (w : Word) (i : Instr), decode w = some i ↔ encode i = w

/-- Rules R81 and R83 with the opcode table: a word is a command exactly when a row of the table covers it, and the row is
the command's own. -/
def Obligations.OpcodeTableDecidesDecode : Prop :=
  ∀ w : Word,
    ((∃ i, decode w = some i) ↔ ∃ r ∈ opcodeTable, w &&& r.mask = r.pattern) ∧
    (∀ i, decode w = some i → ∀ r ∈ opcodeTable, w &&& r.mask = r.pattern → r.mnemonic = mnemonicOf i)

/-- Rule R84: which words are ILLEGAL; such a word is accepted for issue, and its core step completes it with
ILLEGAL_COMMAND and changes nothing else. -/
def Obligations.IllegalWordsOnlyReport : Prop :=
  (∀ w : Word, decode w = none ↔
    w.extractLsb' 9 55 ≠ 0#55 ∨
    w.extractLsb' 0 8 ∉ [0x01#8, 0x02#8, 0x03#8, 0x10#8, 0x11#8, 0x12#8, 0x20#8] ∨
    (w[8] = true ∧ w.extractLsb' 0 8 ∈ [0x01#8, 0x02#8, 0x03#8, 0x12#8, 0x20#8])) ∧
  (∀ (w : Word) (s : State), decode w = none → s.status.busy = false →
    (regWrite 0x008#11 w s).status.busy = true ∧ (regWrite 0x008#11 w s).cmdLast = w) ∧
  (∀ s : State, decode s.cmdLast = none →
    coreStep s = .next { s with
      status := { busy := false, done := true, err := true }
      errcode := { code := .illegalCommand, opc := s.cmdLast.extractLsb' 0 8 } })

/-! ### The life of a command (40_control.md) -/

/-- Rule R100: issue, whatever the word decodes to; a write to CMD during the BUSY window is no issue. The step count until
the core step and the draw counter are the model's own fields. -/
def Obligations.IssueStartsTheWindow : Prop :=
  ∀ (w : Word) (s : State),
    (s.status.busy = false →
      regWrite 0x008#11 w s =
        { s with
          cmdLast := w
          status := { busy := true, done := false, err := false }
          errcode := { code := .noError, opc := 0#8 }
          draws := (regWrite 0x008#11 w s).draws
          coreDelay := (regWrite 0x008#11 w s).coreDelay } ∧
      irq (regWrite 0x008#11 w s) = false) ∧
    (s.status.busy = true →
      regWrite 0x008#11 w s = { s with hosterr := { s.hosterr with cmdBusy := true } })

/-- Rule R101, the step: while a command is pending and its turn has come, a step is exec of the decoded command at that very
state, with nothing around it (whose turn it is: log entry 5); and a command placed by withFetchWord is the one the very next step runs. -/
def Obligations.StepRunsTheDecodedCommand : Prop :=
  (∀ (s : State) (i : Instr), s.status.busy = true → s.coreDelay = 0 ∨ nextStmt s = none →
    decode s.cmdLast = some i → step s = exec i s) ∧
  (∀ (s : State) (i : Instr),
    step (s.withFetchWord 64 (encode i).toNat) = exec i (s.withFetchWord 64 (encode i).toNat) ∧
    (s.withFetchWord 64 (encode i).toNat).cmdLast = encode i ∧
    (s.withFetchWord 64 (encode i).toNat).mem = s.mem ∧
    (s.withFetchWord 64 (encode i).toNat).ops = s.ops ∧
    (s.withFetchWord 64 (encode i).toNat).iir = s.iir)

/-- Rules R101, R103 and R239: every command, from every state, completes, and so does every pending word; what completion records. -/
def Obligations.EveryCommandCompletes : Prop :=
  ∀ s : State,
    (∀ i : Instr, ∃ t, exec i s = .next t ∧ completedFrom s t) ∧ ∃ t, coreStep s = .next t ∧ completedFrom s t

/-- Rule R102: a failed command performs nothing, and whether and how a command fails never depends on DMEM. -/
def Obligations.FailedCommandPerformsNothing : Prop :=
  (∀ (i : Instr) (s t : State), exec i s = .next t → t.status.err = true →
    t = { s with
          status := { busy := false, done := true, err := true }
          errcode := { code := t.errcode.code, opc := s.cmdLast.extractLsb' 0 8 } } ∧
    t.errcode.code ≠ .noError) ∧
  (∀ (i : Instr) (s : State) (m : Memory) (t u : State),
    exec i s = .next t → exec i { s with mem := m } = .next u → t.errcode = u.errcode)

/-- Rule R204 (with R9, R125, R140, R161 to R163): the one code each command reports, by its checks in order, with
ILLEGAL_COMMAND decided before any check. A region of length 0 is in range (log entry 6). -/
def Obligations.ErrorPriorityWithinOneCommand : Prop :=
  ∀ s : State,
    let lb := s.ops.coefBLen.toNat
    let la := s.ops.coefALen.toNat
    let n := s.ops.srcLen.toNat
    let fits := fun base len : Nat => len = 0 ∨ base + len ≤ s.params.dmemWords
    let bothFit := fits s.ops.srcBase.toNat n ∧ fits s.ops.dstBase.toNat s.ops.dstLen.toNat
    let morphCode : ErrorCode → Prop := fun c =>
      (n ≠ s.ops.dstLen.toNat → c = .lengthMismatch) ∧
      (n = s.ops.dstLen.toNat → s.ops.winM = 0#32 → c = .invalidLength) ∧
      (n = s.ops.dstLen.toNat → s.ops.winM ≠ 0#32 → s.params.maxWin < s.ops.winM.toNat → c = .unsupportedParameter) ∧
      (n = s.ops.dstLen.toNat → s.ops.winM ≠ 0#32 → s.ops.winM.toNat ≤ s.params.maxWin → ¬ bothFit → c = .addressRange) ∧
      (n = s.ops.dstLen.toNat → s.ops.winM ≠ 0#32 → s.ops.winM.toNat ≤ s.params.maxWin → bothFit → c = .noError)
    (decode s.cmdLast = none → ∃ t, coreStep s = .next t ∧ t.errcode.code = .illegalCommand) ∧
    (∃ t, exec .iirConfig s = .next t ∧
      ((lb = 0 ∨ la = 0) → t.errcode.code = .invalidLength) ∧
      (lb ≠ 0 → la ≠ 0 → max lb la = 1 → t.errcode.code = .invalidLength) ∧
      (lb ≠ 0 → la ≠ 0 → max lb la ≠ 1 → s.params.maxOrder < max lb la - 1 → t.errcode.code = .unsupportedParameter) ∧
      (lb ≠ 0 → la ≠ 0 → max lb la ≠ 1 → max lb la - 1 ≤ s.params.maxOrder →
        ¬ (fits s.ops.coefBBase.toNat lb ∧ fits s.ops.coefABase.toNat la) → t.errcode.code = .addressRange) ∧
      (lb ≠ 0 → la ≠ 0 → max lb la ≠ 1 → max lb la - 1 ≤ s.params.maxOrder →
        fits s.ops.coefBBase.toNat lb ∧ fits s.ops.coefABase.toNat la → t.errcode.code = .noError)) ∧
    (∃ t, exec .iirReset s = .next t ∧
      (s.iir.cfg = false → t.errcode.code = .notConfigured) ∧ (s.iir.cfg = true → t.errcode.code = .noError)) ∧
    (∃ t, exec .iirApply s = .next t ∧
      (s.iir.cfg = false → t.errcode.code = .notConfigured) ∧
      (s.iir.cfg = true → n ≠ s.ops.dstLen.toNat → t.errcode.code = .lengthMismatch) ∧
      (s.iir.cfg = true → n = s.ops.dstLen.toNat → n = 0 → t.errcode.code = .invalidLength) ∧
      (s.iir.cfg = true → n = s.ops.dstLen.toNat → n ≠ 0 → ¬ bothFit → t.errcode.code = .addressRange) ∧
      (s.iir.cfg = true → n = s.ops.dstLen.toNat → n ≠ 0 → bothFit → t.errcode.code = .noError)) ∧
    (∀ shift, ∃ t, exec (.dilate shift) s = .next t ∧ morphCode t.errcode.code) ∧
    (∀ shift, ∃ t, exec (.erode shift) s = .next t ∧ morphCode t.errcode.code) ∧
    (∃ t, exec .opening s = .next t ∧ morphCode t.errcode.code) ∧
    (∃ t, exec .peaks s = .next t ∧
      (fits s.ops.srcBase.toNat n ∧ fits s.ops.dstBase.toNat (if n < 3 then 0 else (n - 1) / 2) →
        t.errcode.code = .noError) ∧
      (¬ (fits s.ops.srcBase.toNat n ∧ fits s.ops.dstBase.toNat (if n < 3 then 0 else (n - 1) / 2)) →
        t.errcode.code = .addressRange))

/-- Rules R101 and R239: the step of every state answers a next state; the block has no trap (rule R205). -/
def Obligations.EveryStepGoesOn : Prop := ∀ s : State, stepsOn s

/-- Rule R101's fairness: a pending command leaves the BUSY window, by its core step or a soft reset, within as many host
steps as its delay says (the model's counter, log entry 5), whatever the host does. -/
def Obligations.PendingCommandLeavesTheWindow : Prop :=
  ∀ s : State, s.status.busy = true →
    ∃ k, k ≤ s.coreDelay + 1 ∧ ∃ t, Sys2Proof.core.run k s = .next t ∧ t.status.busy = false

/-- Rule R106: a run that has ended stays where it is, and a step that does nothing, which is the model's (log
entry 9), is taken only there. -/
def Obligations.EndedRunStays : Prop :=
  ∀ s : State, (runEnded s → step s = .next s) ∧ (turn s = .idle ↔ runEnded s)

/-- Rules R62, R63 and R87: whose turn it is (log entry 5), and that the host's step is its statement's access, made with the
pending core step one host step nearer (the model's counter, log entry 5), after which the host goes on with the next
statement, or, for `bnz`, with the label's statement when the bit of the register it reads is 1. -/
def Obligations.HostStatementsInProgramOrder : Prop :=
  (∀ (s : State) (stmt : HostStmt),
    turn s = .host stmt ↔ s.host.script[s.host.pc]? = some stmt ∧ (s.status.busy = true → s.coreDelay ≠ 0)) ∧
  (∀ (s : State) (a : HostAccess), turn s = .host (.access a) →
    let u := hostAccess a { s with coreDelay := s.coreDelay - 1 }
    step s = .next { u with host := { u.host with pc := s.host.pc + 1 } } ∧ u.host.script = s.host.script) ∧
  (∀ (s : State) (r : RegIndex) (bit : Fin 64) (target : Nat), turn s = .host (.bnz r bit target) →
    let u := hostAccess (.regRead r) { s with coreDelay := s.coreDelay - 1 }
    step s =
      .next { u with
        host := { u.host with pc := if (regReadValue s r).getLsbD bit = true then target else s.host.pc + 1 } } ∧
    u.host.script = s.host.script ∧ u.host.replies = s.host.replies ++ [regReadValue s r]) ∧
  (∀ (s : State) (r : RegIndex) (v : Word), hostAccess (.regWrite r v) s = regWrite r v s)

/-! ### The results of the commands (41_morph.md, 42_peak.md, 43_iir.md) -/

/-- Rules R120 to R122, R125 and R126: DILATE completes, writes the window maxima of the input as it stood, and leaves all
else. That an empty region is in range is log entry 6. -/
def Obligations.DilateWritesWindowMaxima : Prop :=
  ∀ (shift : Bool) (s : State), morphPasses s →
    ∃ t, exec (.dilate shift) s = .next t ∧ succeeded s t ∧
      (∀ i, i < s.ops.srcLen.toNat →
        Memory.readWord t.mem (s.ops.dstBase.toNat + i) =
          let r := windowRange s.ops.srcLen.toNat s.ops.winM.toNat shift i
          foldMax ((List.range' r.1 (r.2 + 1 - r.1)).map (fun k => Memory.readWord s.mem (s.ops.srcBase.toNat + k)))) ∧
      sameOutside s.mem t.mem s.ops.dstBase.toNat s.ops.srcLen.toNat ∧
      sameElsewhere s t ∧ t.iir = s.iir ∧ t.pkCount = s.pkCount

/-- Rules R120, R121, R123, R125 and R126: ERODE completes, writes the window minima of the input as it stood, and leaves all
else. That an empty region is in range is log entry 6. -/
def Obligations.ErodeWritesWindowMinima : Prop :=
  ∀ (shift : Bool) (s : State), morphPasses s →
    ∃ t, exec (.erode shift) s = .next t ∧ succeeded s t ∧
      (∀ i, i < s.ops.srcLen.toNat →
        Memory.readWord t.mem (s.ops.dstBase.toNat + i) =
          let r := windowRange s.ops.srcLen.toNat s.ops.winM.toNat shift i
          foldMin ((List.range' r.1 (r.2 + 1 - r.1)).map (fun k => Memory.readWord s.mem (s.ops.srcBase.toNat + k)))) ∧
      sameOutside s.mem t.mem s.ops.dstBase.toNat s.ops.srcLen.toNat ∧
      sameElsewhere s t ∧ t.iir = s.iir ∧ t.pkCount = s.pkCount

/-- Rules R124 to R126: OPEN completes, writes the padded, eroded, dilated and stripped input, and leaves all else. Sample `j`
of the padded sequence is the input at `j - m`, held at the ends; both stages use the unshifted window. That an empty region is in
range is log entry 6. -/
def Obligations.OpenWritesPaddedOpening : Prop :=
  ∀ s : State, morphPasses s →
    ∃ t, exec .opening s = .next t ∧ succeeded s t ∧
      (let n := s.ops.srcLen.toNat
       let m := s.ops.winM.toNat
       let padded := fun j : Nat => Memory.readWord s.mem (s.ops.srcBase.toNat + min (j - m) (n - 1))
       let eroded := fun j : Nat =>
         let r := windowRange (n + 2 * m) m false j
         foldMin ((List.range' r.1 (r.2 + 1 - r.1)).map padded)
       ∀ i, i < n →
         Memory.readWord t.mem (s.ops.dstBase.toNat + i) =
           let r := windowRange (n + 2 * m) m false (m + i)
           foldMax ((List.range' r.1 (r.2 + 1 - r.1)).map eroded)) ∧
      sameOutside s.mem t.mem s.ops.dstBase.toNat s.ops.srcLen.toNat ∧
      sameElsewhere s t ∧ t.iir = s.iir ∧ t.pkCount = s.pkCount

/-- Rule R161: IIR_CONFIG completes, loads the zero-padded coefficients, clears the history, goes to Idle, and leaves all
else. -/
def Obligations.ConfigLoadsTheFilter : Prop :=
  ∀ s : State, configPasses s →
    ∃ t, exec .iirConfig s = .next t ∧ succeeded s t ∧
      t.iir.cfg = true ∧ t.iir.run = false ∧
      t.iir.order = max s.ops.coefBLen.toNat s.ops.coefALen.toNat - 1 ∧
      t.iir.cb.length = s.params.maxOrder + 1 ∧ t.iir.ca.length = s.params.maxOrder + 1 ∧
      (∀ k, k ≤ s.params.maxOrder →
        t.iir.cb[k]? = some (if k < s.ops.coefBLen.toNat then Memory.readWord s.mem (s.ops.coefBBase.toNat + k) else 0#64) ∧
        t.iir.ca[k]? = some (if k < s.ops.coefALen.toNat then Memory.readWord s.mem (s.ops.coefABase.toNat + k) else 0#64)) ∧
      t.iir.xh = List.replicate s.params.maxOrder 0#64 ∧ t.iir.yh = List.replicate s.params.maxOrder 0#64 ∧
      t.mem = s.mem ∧ sameElsewhere s t ∧ t.pkCount = s.pkCount

/-- Rule R162: IIR_RESET of a constructed filter completes, clears the history and goes to Idle, and leaves all else; without
one it fails with NOT_CONFIGURED. -/
def Obligations.ResetReturnsTheFilterToIdle : Prop :=
  ∀ s : State,
    (s.iir.cfg = true →
      ∃ t, exec .iirReset s = .next t ∧ succeeded s t ∧
        t.iir = { s.iir with
                  run := false
                  xh := List.replicate s.params.maxOrder 0#64
                  yh := List.replicate s.params.maxOrder 0#64 } ∧
        t.mem = s.mem ∧ sameElsewhere s t ∧ t.pkCount = s.pkCount) ∧
    (s.iir.cfg = false →
      exec .iirReset s = .next { s with
        status := { busy := false, done := true, err := true }
        errcode := { code := .notConfigured, opc := s.cmdLast.extractLsb' 0 8 } })

/-- Rules R163 to R166: IIR_APPLY completes, every output is the recursion over the extended sequences in the fixed order of
operations, the history holds their trailing L samples, the engine is Running, and all else is left. -/
def Obligations.ApplyFiltersTheBlock : Prop :=
  ∀ s : State, s.Inv → applyPasses s →
    ∃ t, exec .iirApply s = .next t ∧ succeeded s t ∧
      (∀ i, i < s.ops.srcLen.toNat →
        Memory.readWord t.mem (s.ops.dstBase.toNat + i) =
          (List.range' 1 s.iir.order).foldl
            (fun acc j =>
              fadd acc (fsub (fmul (sampleAt s.iir.cb j) (extIn s (s.iir.order + i - j)))
                (fmul (sampleAt s.iir.ca j) (extOut s t (s.iir.order + i - j)))))
            (fmul (sampleAt s.iir.cb 0) (extIn s (s.iir.order + i)))) ∧
      (∀ k, k < s.iir.order →
        sampleAt t.iir.xh k = extIn s (s.ops.srcLen.toNat + k) ∧
        sampleAt t.iir.yh k = extOut s t (s.ops.srcLen.toNat + k)) ∧
      t.iir.xh.length = s.params.maxOrder ∧ t.iir.yh.length = s.params.maxOrder ∧
      t.iir.xh.drop s.iir.order = s.iir.xh.drop s.iir.order ∧ t.iir.yh.drop s.iir.order = s.iir.yh.drop s.iir.order ∧
      t.iir = { s.iir with run := true, xh := t.iir.xh, yh := t.iir.yh } ∧
      sameOutside s.mem t.mem s.ops.dstBase.toNat s.ops.srcLen.toNat ∧
      sameElsewhere s t ∧ t.pkCount = s.pkCount

/-- Rules R140, R142 and R146 to R148: PEAKS completes, writes the ascending indices its enabled stages leave, counts them in
PK_COUNT, and leaves all else, the rest of its output region included. That an empty region is in range is log entry 6. -/
def Obligations.PeaksWritesTheIndices : Prop :=
  ∀ s : State, peaksPasses s →
    ∃ t, exec .peaks s = .next t ∧ succeeded s t ∧
      (let x := (List.range s.ops.srcLen.toNat).map (fun k => Memory.readWord s.mem (s.ops.srcBase.toNat + k))
       let A := stageA x
       let B := if fgt s.ops.pkMinprom 0#64 then stageB x A s.ops.pkMinprom else A
       let P := if s.ops.srcLen.toNat < 3 then []
         else if s.ops.pkMindist = 0#32 then B else stageC x B s.ops.pkMindist.toNat
       t.pkCount.toNat = P.length ∧
       (∀ k, k < P.length → (Memory.readWord t.mem (s.ops.dstBase.toNat + k)).toNat = P.getD k 0) ∧
       sameOutside s.mem t.mem s.ops.dstBase.toNat P.length) ∧
      sameElsewhere s t ∧ t.iir = s.iir

/-- Rule R39: the Idle and Running transitions of the engine; a failed command makes none. -/
def Obligations.IdleAndRunningTransitions : Prop :=
  ∀ s t : State,
    (exec .iirConfig s = .next t → t.iir.run = if t.status.err then s.iir.run else false) ∧
    (exec .iirReset s = .next t → t.iir.run = if t.status.err then s.iir.run else false) ∧
    (exec .iirApply s = .next t → t.iir.run = if t.status.err then s.iir.run else true) ∧
    ((∃ shift, exec (.dilate shift) s = .next t ∨ exec (.erode shift) s = .next t) ∨
      exec .opening s = .next t ∨ exec .peaks s = .next t → t.iir.run = s.iir.run)

/-- Rules R70, R126 and R149 item 5: what a command computes depends on its input words, its operands and, for IIR_APPLY, the
engine; on nothing else, and not on where the output goes or how it overlaps the input. -/
def Obligations.OutputDependsOnlyOnOperands : Prop :=
  ∀ (i : Instr) (s s' t t' : State),
    s.ops.srcLen = s'.ops.srcLen → inputSignal s = inputSignal s' → s.ops.winM = s'.ops.winM →
    s.ops.pkMindist = s'.ops.pkMindist → s.ops.pkMinprom = s'.ops.pkMinprom →
    (i = .iirApply → s.iir = s'.iir) → i ≠ .iirConfig → i ≠ .iirReset →
    exec i s = .next t → exec i s' = .next t' → t.status.err = false → t'.status.err = false →
    (i = .peaks → t.pkCount = t'.pkCount) ∧
    ∀ k, k < (if i = .peaks then t.pkCount.toNat else s.ops.srcLen.toNat) →
      Memory.readWord t.mem (s.ops.dstBase.toNat + k) = Memory.readWord t'.mem (s'.ops.dstBase.toNat + k)

/-! ### The morphology rules (41_morph.md) -/

/-- Rules R120 and R121: reach, bounds, a window that is never empty and holds its own position when unshifted, and the last
window when nl = -1. -/
def Obligations.WindowsAreNeverEmpty : Prop :=
  ∀ (n m : Nat) (shift : Bool) (i : Nat), 1 ≤ n → 1 ≤ m → i < n →
    (reach m shift).1 + (reach m shift).2 = (m : Int) - 1 ∧
    windowBounds n m shift i = windowRange n m shift i ∧
    (windowBounds n m shift i).1 ≤ (windowBounds n m shift i).2 ∧ (windowBounds n m shift i).2 < n ∧
    (shift = false → (windowBounds n m shift i).1 ≤ i ∧ i ≤ (windowBounds n m shift i).2) ∧
    ((reach m shift).1 = -1 → windowBounds n m shift (n - 1) = (n - 1, n - 1))

/-- Rule R127 item 1: the morphology outputs have the input's length and are input bit patterns. -/
def Obligations.MorphologyCopiesPatterns : Prop :=
  ∀ (x : List Word) (m : Nat) (shift : Bool), 1 ≤ m →
    ((dilateSeq x m shift).length = x.length ∧ ∀ v ∈ dilateSeq x m shift, v ∈ x) ∧
    ((erodeSeq x m shift).length = x.length ∧ ∀ v ∈ erodeSeq x m shift, v ∈ x) ∧
    ((openSeq x m).length = x.length ∧ ∀ v ∈ openSeq x m, v ∈ x)

/-- Rule R123: unshifted, erosion is at most the input and dilation at least, wherever the window holds no NaN. -/
def Obligations.ErosionBelowInputBelowDilation : Prop :=
  ∀ (x : List Word) (m i : Nat), 1 ≤ m → i < x.length →
    (∀ v ∈ window x m false i, fisNaN v = false) →
    fle (sampleAt (erodeSeq x m false) i) (sampleAt x i) = true ∧
    fle (sampleAt x i) (sampleAt (dilateSeq x m false) i) = true

/-- Rule R124: OPEN with m = 1, and OPEN of one sample, give the input back. -/
def Obligations.OpeningCornerCases : Prop :=
  (∀ x : List Word, openSeq x 1 = x) ∧ (∀ (v : Word) (m : Nat), 1 ≤ m → openSeq [v] m = [v])

/-- Rule R124 and conflict C11: with an odd window the opening of a NaN-free signal never exceeds the signal. -/
def Obligations.OddOpeningNeverExceedsInput : Prop :=
  ∀ (x : List Word) (m i : Nat), m % 2 = 1 → i < x.length → (∀ v ∈ x, fisNaN v = false) →
    fle (sampleAt (openSeq x m) i) (sampleAt x i) = true

/-- Rule R127 item 3, which the spec checks and does not prove: the closing of a NaN-free signal is nowhere below its
opening. -/
def Obligations.ClosingIsAboveOpening : Prop :=
  ∀ (x : List Word) (m i : Nat), 1 ≤ m → i < x.length → (∀ v ∈ x, fisNaN v = false) →
    fle (sampleAt (openSeq x m) i) (sampleAt (erodeSeq (dilateSeq x m false) m false) i) = true

/-! ### The number format (00_scope.md) -/

/-- Rule R7: the comparisons are false with a NaN (fne true); the zeros are equal; on finite samples they compare the exact
values, and an infinity compares beyond every finite sample. -/
def Obligations.ComparisonsAreQuietAndExact : Prop :=
  (∀ a b : Word, fisNaN a = true ∨ fisNaN b = true →
    fgt a b = false ∧ flt a b = false ∧ fle a b = false ∧ feq a b = false) ∧
  (∀ a b : Word, fne a b = !feq a b) ∧
  feq 0#64 0x8000000000000000#64 = true ∧
  (∀ a b : Word, isFinite a = true → isFinite b = true →
    (fgt a b = true ↔ fexact b < fexact a) ∧ (flt a b = true ↔ fexact a < fexact b) ∧
    (fle a b = true ↔ fexact a ≤ fexact b) ∧ (feq a b = true ↔ fexact a = fexact b)) ∧
  (∀ a b : Word, fisInf a = true → fisNaN b = false → (isFinite b = true ∨ fsign b ≠ fsign a) →
    fgt a b = !fsign a ∧ flt a b = fsign a ∧ fle a b = fsign a ∧ feq a b = false ∧
    fgt b a = fsign a ∧ flt b a = !fsign a ∧ fle b a = !fsign a ∧ feq b a = false) ∧
  (∀ a b : Word, fisInf a = true → fisInf b = true → fsign a = fsign b →
    fgt a b = false ∧ flt a b = false ∧ fle a b = true ∧ feq a b = true)

/-- Rule R6, finite operands: each primitive is the exact result rounded once to nearest, ties to even, with the exact
result's sign. That an exactly zero sum is +0 unless both operands are negative, and where a result overflows to infinity, are
IEEE 754's details, PRESUMED (log entry 11). -/
def Obligations.ArithmeticRoundsOnceToNearestEven : Prop :=
  ∀ a b : Word, isFinite a = true → isFinite b = true →
    (fexact a + fexact b ≠ 0 →
      fsign (fadd a b) = decide (fexact a + fexact b < 0) ∧
      NearestEven (fexact a + fexact b).natAbs 0 (fbits63 (fadd a b))) ∧
    (fexact a + fexact b = 0 → fadd a b = if fsign a = true ∧ fsign b = true then 0x8000000000000000#64 else 0#64) ∧
    (fexact a - fexact b ≠ 0 →
      fsign (fsub a b) = decide (fexact a - fexact b < 0) ∧
      NearestEven (fexact a - fexact b).natAbs 0 (fbits63 (fsub a b))) ∧
    (fexact a - fexact b = 0 → fsub a b = if fsign a = true ∧ fsign b = false then 0x8000000000000000#64 else 0#64) ∧
    fsign (fmul a b) = (fsign a != fsign b) ∧
    NearestEven (fmag a * fmag b) 1074 (fbits63 (fmul a b))

/-- Rules R4 and R6, infinities and NaNs: an IEEE result that is a NaN is NAN_RESULT, some quiet NaN (a free value: this holds
whatever it is; that a quiet NaN has bit 51 set is PRESUMED, log entry 2). Which operations on infinities give a NaN, and which
infinity the others give, are IEEE 754's details, PRESUMED (log entry 11). -/
def Obligations.ArithmeticOnInfinitiesAndNaNs : Prop :=
  (∀ (op : FloatOp) (a b : Word), fisNaN (nanResult op a b) = true ∧ (nanResult op a b)[51] = true) ∧
  (∀ a b : Word, fisNaN a = true ∨ fisNaN b = true →
    fadd a b = nanResult .fadd a b ∧ fsub a b = nanResult .fsub a b ∧ fmul a b = nanResult .fmul a b) ∧
  (∀ a b : Word, fisInf a = true → fisInf b = true →
    fadd a b = (if fsign a = fsign b then a else nanResult .fadd a b) ∧
    fsub a b = (if fsign a = fsign b then nanResult .fsub a b else a) ∧
    fisInf (fmul a b) = true ∧ fsign (fmul a b) = (fsign a != fsign b)) ∧
  (∀ a b : Word, fisInf a = true → isFinite b = true →
    fadd a b = a ∧ fsub a b = a ∧ fadd b a = a ∧ fsub b a = fneg a ∧
    (fexact b = 0 → fmul a b = nanResult .fmul a b ∧ fmul b a = nanResult .fmul b a) ∧
    (fexact b ≠ 0 → fisInf (fmul a b) = true ∧ fsign (fmul a b) = (fsign a != fsign b) ∧ fmul b a = fmul a b))

/-- Rule R8: the folds return an element of the sequence: a leading NaN, else the first element that attains the extreme,
passing over later NaNs. -/
def Obligations.FoldsReturnTheFirstExtreme : Prop :=
  ∀ (r : Word) (rest : List Word),
    (fisNaN r = true → foldMax (r :: rest) = r ∧ foldMin (r :: rest) = r) ∧
    (fisNaN r = false →
      (∃ pre post, r :: rest = pre ++ foldMax (r :: rest) :: post ∧
        (∀ v ∈ pre, fisNaN v = true ∨ flt v (foldMax (r :: rest)) = true) ∧
        (∀ v ∈ post, fisNaN v = true ∨ fle v (foldMax (r :: rest)) = true) ∧
        fisNaN (foldMax (r :: rest)) = false) ∧
      (∃ pre post, r :: rest = pre ++ foldMin (r :: rest) :: post ∧
        (∀ v ∈ pre, fisNaN v = true ∨ fgt v (foldMin (r :: rest)) = true) ∧
        (∀ v ∈ post, fisNaN v = true ∨ fle (foldMin (r :: rest)) v = true) ∧
        fisNaN (foldMin (r :: rest)) = false))

/-! ### The peak rules (42_peak.md) -/

/-- Rule R141: Stage A's list is strictly ascending and holds exactly the first indices of risen plateaus that are followed by
a strict decrease inside the signal. -/
def Obligations.StageAFindsPlateauMaxima : Prop :=
  ∀ x : List Word,
    (stageA x).Pairwise (fun p q => p < q) ∧
    ∀ i, i ∈ stageA x ↔
      1 ≤ i ∧ i < x.length ∧ fgt (sampleAt x i) (sampleAt x (i - 1)) = true ∧
      ∃ j, i < j ∧ j < x.length ∧ (∀ k, i < k → k < j → feq (sampleAt x k) (sampleAt x i) = true) ∧
        feq (sampleAt x j) (sampleAt x i) = false ∧ fgt (sampleAt x i) (sampleAt x j) = true

/-- Rule R143: the prominence of C[k]: the two ranges, bounded by the nearest strictly taller candidates of the whole list or
the signal's ends, and the larger of their minima taken from the candidate's value. -/
def Obligations.ProminenceUsesNearestTallerCandidates : Prop :=
  ∀ (x : List Word) (C : List Nat) (k : Nat), k < C.length →
    let at' := fun k : Nat => C.getD k 0
    let taller := fun k' : Nat => fgt (sampleAt x (at' k')) (sampleAt x (at' k)) = true
    ∃ lo hi,
      (((∀ k', k' < k → ¬ taller k') ∧ lo = 0) ∨
        ∃ k', k' < k ∧ taller k' ∧ (∀ k'', k' < k'' → k'' < k → ¬ taller k'') ∧ lo = at' k' + 1) ∧
      (((∀ k', k < k' → k' < C.length → ¬ taller k') ∧ hi = x.length - 1) ∨
        ∃ k', k < k' ∧ k' < C.length ∧ taller k' ∧ (∀ k'', k < k'' → k'' < k' → ¬ taller k'') ∧ hi = at' k') ∧
      prominence x C k =
        fsub (sampleAt x (at' k))
          (if fgt (foldMin (slice x lo (at' k - 1))) (foldMin (slice x (at' k + 1) hi))
            then foldMin (slice x lo (at' k - 1)) else foldMin (slice x (at' k + 1) hi))

/-- Rules R143 and R149 item 7: every candidate's prominence is above 0 and no NaN, so PEAKS never meets NAN_RESULT. -/
def Obligations.ProminenceIsPositive : Prop :=
  ∀ (x : List Word) (k : Nat), k < (stageA x).length →
    fisNaN (prominenceRef x (stageA x) k) = false ∧
    flt (prominenceRef x (stageA x) k) (sampleAt x ((stageA x).getD k 0)) = true ∧
    fisNaN (prominence x (stageA x) k) = false ∧ fgt (prominence x (stageA x) k) 0#64 = true

/-- Rule R144: Stage B keeps, in order, exactly the candidates whose prominence, taken in the whole Stage A list, is not at
most the threshold; for an enabled threshold, those whose prominence is above it. -/
def Obligations.StageBKeepsTheProminent : Prop :=
  ∀ (x : List Word) (thr : Word),
    List.Sublist (stageB x (stageA x) thr) (stageA x) ∧
    (∀ q, q ∈ stageB x (stageA x) thr ↔
      ∃ k, k < (stageA x).length ∧ (stageA x).getD k 0 = q ∧ fle (prominence x (stageA x) k) thr = false) ∧
    (fgt thr 0#64 = true → ∀ k, k < (stageA x).length →
      ((stageA x).getD k 0 ∈ stageB x (stageA x) thr ↔ fgt (prominence x (stageA x) k) thr = true))

/-- Rule R145: Stage C keeps, in ascending order, candidates pairwise farther apart than the distance; it drops a candidate
only for a kept one within the distance that is taller, or equal with a lower index; and it empties no list. -/
def Obligations.StageCSpacesByHeight : Prop :=
  ∀ (x : List Word) (C : List Nat) (dist : Nat),
    C.Pairwise (fun p q => p < q) → (∀ p ∈ C, fisNaN (sampleAt x p) = false) →
    List.Sublist (stageC x C dist) C ∧
    (stageC x C dist).Pairwise (fun p q => dist < q - p) ∧
    (∀ p ∈ C, p ∉ stageC x C dist →
      ∃ q ∈ stageC x C dist, max p q - min p q ≤ dist ∧
        (fgt (sampleAt x q) (sampleAt x p) = true ∨ (feq (sampleAt x q) (sampleAt x p) = true ∧ q < p))) ∧
    (C ≠ [] → stageC x C dist ≠ [])

/-- Rule R149 items 1 to 4: the indices PEAKS finds are strictly ascending, inside the signal away from its ends, rises, never
adjacent, a part of Stage A's list, and at most maxPeaks(n) in number. -/
def Obligations.PeakIndicesFitTheRegion : Prop :=
  ∀ (x : List Word) (dist : Nat) (thr : Word),
    (peakIndices x dist thr).Pairwise (fun p q => p + 2 ≤ q) ∧
    List.Sublist (peakIndices x dist thr) (stageA x) ∧
    (∀ p ∈ peakIndices x dist thr, 1 ≤ p ∧ p + 2 ≤ x.length ∧ fisNaN (sampleAt x p) = false ∧
      fgt (sampleAt x p) (sampleAt x (p - 1)) = true) ∧
    (peakIndices x dist thr).length ≤ maxPeaks x.length

/-! ### The filter rules (43_iir.md) -/

/-- Rules R160 and R42: no computation reads a[0]. -/
def Obligations.LeadingFeedbackCoefficientIsUnused : Prop :=
  ∀ (e : Iir) (x : List Word) (v : Word),
    recursion { e with ca := e.ca.set 0 v } x = recursion e x ∧
    (afterApply { e with ca := e.ca.set 0 v } x).yh = (afterApply e x).yh ∧
    (afterApply { e with ca := e.ca.set 0 v } x).xh = (afterApply e x).xh

/-- Rule R167: two successful IIR_APPLY commands write, and leave, bit for bit what one over the joined signal does. -/
def Obligations.FilteringIsContinuousAcrossCalls : Prop :=
  ∀ s s1 s2 t t1 t2 : State, s.Inv → s1.iir = s.iir → s2.iir = t1.iir →
    inputSignal s = inputSignal s1 ++ inputSignal s2 →
    exec .iirApply s = .next t → exec .iirApply s1 = .next t1 → exec .iirApply s2 = .next t2 →
    t.status.err = false → t1.status.err = false → t2.status.err = false →
    (∀ k, k < s1.ops.srcLen.toNat →
      Memory.readWord t.mem (s.ops.dstBase.toNat + k) = Memory.readWord t1.mem (s1.ops.dstBase.toNat + k)) ∧
    (∀ k, k < s2.ops.srcLen.toNat →
      Memory.readWord t.mem (s.ops.dstBase.toNat + (s1.ops.srcLen.toNat + k)) =
        Memory.readWord t2.mem (s2.ops.dstBase.toNat + k)) ∧
    t2.iir.xh = t.iir.xh ∧ t2.iir.yh = t.iir.yh ∧ t2.iir.run = t.iir.run

/-- Rule R168: an IIR_APPLY after IIR_RESET equals one after an IIR_CONFIG that gives the same coefficients and order. -/
def Obligations.ResetEqualsFreshConfiguration : Prop :=
  ∀ s c t u s' c' t' u' : State, s.params = c.params →
    exec .iirReset s = .next t → exec .iirConfig c = .next u → t.status.err = false → u.status.err = false →
    u.iir.cb = s.iir.cb → u.iir.ca = s.iir.ca → u.iir.order = s.iir.order →
    s'.iir = t.iir → c'.iir = u.iir → inputSignal s' = inputSignal c' →
    exec .iirApply s' = .next t' → exec .iirApply c' = .next u' → t'.status.err = false → u'.status.err = false →
    (∀ k, k < s'.ops.srcLen.toNat →
      Memory.readWord t'.mem (s'.ops.dstBase.toNat + k) = Memory.readWord u'.mem (c'.ops.dstBase.toNat + k)) ∧
    t'.iir = u'.iir

/-! ### The host's accesses (10_state.md, 20_memory.md) -/

/-- Rules R62 and R68: a host read of a register or of DMEM returns its value and changes nothing of the block; only the host's
list of replies and the model's draw counter (log entry 4) move. -/
def Obligations.HostReadsChangeNothing : Prop :=
  ∀ s : State,
    (∀ r, hostAccess (.regRead r) s =
      { s with host := { s.host with replies := s.host.replies ++ [regReadValue s r] }, draws := s.draws + 1 }) ∧
    (∀ a, hostAccess (.memRead a) s =
      { s with host := { s.host with replies := s.host.replies ++ [memReadValue s a] }, draws := s.draws + 1 })

/-- Rules R64 and R65: host DMEM accesses outside the BUSY window, inside and outside the address range; a word never written
reads its power-on value (rule R240, a free value: log entry 3). -/
def Obligations.HostMemoryAccess : Prop :=
  ∀ (s : State) (a : Nat) (v : Word), s.status.busy = false →
    (a < s.params.dmemWords →
      memReadValue (hostAccess (.memWrite a v) s) a = v ∧
      (∀ b, b ≠ a → memReadValue (hostAccess (.memWrite a v) s) b = memReadValue s b) ∧
      sameOutside s.mem (hostAccess (.memWrite a v) s).mem a 1 ∧
      hostAccess (.memWrite a v) s = { s with mem := (hostAccess (.memWrite a v) s).mem } ∧
      (∀ k : Fin 8, Memory.get s.mem (8 * a + k.val) = none →
        (memReadValue s a).extractLsb' (8 * k.val) 8 = Config.powerOnByte (8 * a + k.val))) ∧
    (s.params.dmemWords ≤ a → memReadValue s a = 0#64 ∧ hostAccess (.memWrite a v) s = s)

/-- Rules R22, R32 to R35 and R37: a write to an operand register stores the low bits of the value, 64 for PK_MINPROM and 32
for the others, and changes no other register. -/
def Obligations.OperandRegistersKeepTheirBits : Prop :=
  ∀ (s : State) (r r' : RegIndex) (v : Word), s.status.busy = false →
    r ∈ [0x010#11, 0x011#11, 0x012#11, 0x013#11, 0x014#11, 0x015#11, 0x016#11, 0x018#11, 0x019#11, 0x01A#11, 0x01B#11] →
    regReadValue (hostAccess (.regWrite r v) s) r = (if r = 0x016#11 then v else v &&& 0xFFFFFFFF#64) ∧
    (r' ≠ r → regReadValue (hostAccess (.regWrite r v) s) r' = regReadValue s r') ∧
    hostAccess (.regWrite r v) s = { s with ops := (hostAccess (.regWrite r v) s).ops }

/-- Rule R21: an index not in the map, the windows' own limits included, reads 0, and a write to it is ignored; during the BUSY
window that write sets WR_BUSY. -/
def Obligations.UnmappedIndicesReadZero : Prop :=
  ∀ (s : State) (r : RegIndex) (v : Word), s.params.wf = true →
    r.toNat ∉ [0, 1, 2, 3, 8, 9, 0xA, 0xB, 0xC] → ¬ (0x10 ≤ r.toNat ∧ r.toNat ≤ 0x1C) →
    ¬ (0x100 ≤ r.toNat ∧ r.toNat ≤ 0x100 + s.params.maxOrder) → ¬ (0x200 ≤ r.toNat ∧ r.toNat ≤ 0x200 + s.params.maxOrder) →
    ¬ (0x300 ≤ r.toNat ∧ r.toNat < 0x300 + s.params.maxOrder) → ¬ (0x400 ≤ r.toNat ∧ r.toNat < 0x400 + s.params.maxOrder) →
    regReadValue s r = 0#64 ∧
    (s.status.busy = false → hostAccess (.regWrite r v) s = s) ∧
    (s.status.busy = true → hostAccess (.regWrite r v) s = { s with hosterr := { s.hosterr with wrBusy := true } })

/-- Rules R22 to R27, R29, R36, R40 to R44 and R200: outside the BUSY window, the values of the read-only registers and of CMD,
the number of each error code, and that a write to a read-only register is ignored and sets no flag. -/
def Obligations.ReadOnlyRegisterValues : Prop :=
  ∀ s : State, s.Inv → s.status.busy = false →
    regReadValue s 0x000#11 = 0x4D50534300000001#64 ∧
    (regReadValue s 0x001#11).toNat = s.params.dmemWords ∧
    (regReadValue s 0x002#11).toNat = s.params.maxOrder ∧
    (regReadValue s 0x003#11).toNat = s.params.maxWin ∧
    regReadValue s 0x008#11 = s.cmdLast ∧
    (regReadValue s 0x00A#11).extractLsb' 0 8 =
      (match s.errcode.code with
        | .noError => 0#8
        | .lengthMismatch => 1#8
        | .invalidLength => 2#8
        | .unsupportedParameter => 3#8
        | .illegalCommand => 4#8
        | .addressRange => 5#8
        | .notConfigured => 6#8) ∧
    (regReadValue s 0x00A#11).extractLsb' 8 8 = s.errcode.opc ∧ (regReadValue s 0x00A#11).extractLsb' 16 48 = 0#48 ∧
    (regReadValue s 0x017#11).toNat = s.pkCount.toNat ∧
    (regReadValue s 0x01C#11).toNat = s.iir.order ∧
    (∀ k, k ≤ s.params.maxOrder →
      regReadValue s (BitVec.ofNat 11 (0x100 + k)) = (if s.iir.cfg = true ∧ k ≤ s.iir.order then sampleAt s.iir.cb k else 0#64) ∧
      regReadValue s (BitVec.ofNat 11 (0x200 + k)) = (if s.iir.cfg = true ∧ k ≤ s.iir.order then sampleAt s.iir.ca k else 0#64)) ∧
    (∀ k, k < s.params.maxOrder →
      regReadValue s (BitVec.ofNat 11 (0x300 + k)) = (if s.iir.cfg = true ∧ k < s.iir.order then sampleAt s.iir.xh k else 0#64) ∧
      regReadValue s (BitVec.ofNat 11 (0x400 + k)) = (if s.iir.cfg = true ∧ k < s.iir.order then sampleAt s.iir.yh k else 0#64)) ∧
    (∀ v : Word,
      (∀ r ∈ [0x000#11, 0x001#11, 0x002#11, 0x003#11, 0x00A#11, 0x017#11, 0x01C#11], hostAccess (.regWrite r v) s = s) ∧
      (∀ k, k ≤ s.params.maxOrder →
        hostAccess (.regWrite (BitVec.ofNat 11 (0x100 + k)) v) s = s ∧
        hostAccess (.regWrite (BitVec.ofNat 11 (0x200 + k)) v) s = s) ∧
      (∀ k, k < s.params.maxOrder →
        hostAccess (.regWrite (BitVec.ofNat 11 (0x300 + k)) v) s = s ∧
        hostAccess (.regWrite (BitVec.ofNat 11 (0x400 + k)) v) s = s))

/-- Rules R28, R30, R31, R45 and R105: the bits of STATUS, HOSTERR and CTRL outside the BUSY window, their writes, which are
the same inside it, and the interrupt output. -/
def Obligations.StatusAndControlBits : Prop :=
  ∀ (s : State) (v : Word),
    (s.status.busy = false → ∀ k, k < 64 →
      (regReadValue s 0x009#11).getLsbD k =
        (if k = 1 then s.status.done else if k = 2 then s.status.err else if k = 3 then s.iir.cfg
          else if k = 4 then s.iir.run else false)) ∧
    (∀ k, k < 64 → (regReadValue s 0x00B#11).getLsbD k =
      (if k = 0 then s.hosterr.wrBusy else if k = 1 then s.hosterr.cmdBusy else false)) ∧
    (∀ k, k < 64 → (regReadValue s 0x00C#11).getLsbD k = (if k = 0 then s.irqEn else false)) ∧
    (v[1] = true →
      hostAccess (.regWrite 0x009#11 v) s = { s with status := { s.status with done := false } } ∧
      irq (hostAccess (.regWrite 0x009#11 v) s) = false) ∧
    (v[1] = false → hostAccess (.regWrite 0x009#11 v) s = s) ∧
    hostAccess (.regWrite 0x00B#11 v) s =
      { s with
        hosterr :=
          { wrBusy := if v[0] then false else s.hosterr.wrBusy
            cmdBusy := if v[1] then false else s.hosterr.cmdBusy } } ∧
    (v[1] = false → hostAccess (.regWrite 0x00C#11 v) s = { s with irqEn := v[0] }) ∧
    (irq s = true ↔ s.status.done = true ∧ s.irqEn = true)

/-- Rule R74: host writes during the BUSY window: CMD refused with CMD_BUSY, STATUS, HOSTERR and CTRL as always, every other
register and every DMEM address refused with WR_BUSY. -/
def Obligations.HostWritesDuringTheWindow : Prop :=
  ∀ (s : State) (v : Word), s.status.busy = true →
    hostAccess (.regWrite 0x008#11 v) s = { s with hosterr := { s.hosterr with cmdBusy := true } } ∧
    hostAccess (.regWrite 0x009#11 v) s =
      { s with status := { s.status with done := if v[1] then false else s.status.done } } ∧
    hostAccess (.regWrite 0x00B#11 v) s =
      { s with
        hosterr :=
          { wrBusy := if v[0] then false else s.hosterr.wrBusy
            cmdBusy := if v[1] then false else s.hosterr.cmdBusy } } ∧
    hostAccess (.regWrite 0x00C#11 v) s = (if v[1] then softReset s else { s with irqEn := v[0] }) ∧
    (∀ r : RegIndex, r ∉ [0x008#11, 0x009#11, 0x00B#11, 0x00C#11] →
      hostAccess (.regWrite r v) s = { s with hosterr := { s.hosterr with wrBusy := true } }) ∧
    (∀ a : Nat, hostAccess (.memWrite a v) s = { s with hosterr := { s.hosterr with wrBusy := true } })

/-- Rules R73 and R104: reads during the BUSY window. A register or DMEM word of the pending command's write set reads a free
value (log entry 4); every other one reads as always; BUSY, DONE, ERR, ERRCODE and CMD read 1, 0, 0, 0 and the pending word. -/
def Obligations.HostReadsDuringTheWindow : Prop :=
  ∀ s : State, s.Inv → s.status.busy = true →
    let c := decode s.cmdLast
    let iirWindow := fun lo hi : Nat => fun r : RegIndex => lo ≤ r.toNat ∧ r.toNat < hi
    let config := fun r : RegIndex => r = 0x01C#11 ∨
      iirWindow 0x100 (0x101 + s.params.maxOrder) r ∨ iirWindow 0x200 (0x201 + s.params.maxOrder) r ∨
      iirWindow 0x300 (0x300 + s.params.maxOrder) r ∨ iirWindow 0x400 (0x400 + s.params.maxOrder) r
    let history := fun r : RegIndex =>
      iirWindow 0x300 (0x300 + s.params.maxOrder) r ∨ iirWindow 0x400 (0x400 + s.params.maxOrder) r
    let written := fun r : RegIndex =>
      (c = some .iirConfig ∧ config r) ∨ (c = some .iirReset ∧ history r) ∨ (c = some .iirApply ∧ history r) ∨
      (c = some .peaks ∧ r = 0x017#11)
    let length := match c with
      | some .iirApply | some (.dilate _) | some (.erode _) | some .opening => s.ops.dstLen.toNat
      | some .peaks => if s.ops.srcLen.toNat < 3 then 0 else (s.ops.srcLen.toNat - 1) / 2
      | some .iirConfig | some .iirReset | none => 0
    (∀ r, written r → regReadValue s r = Config.freeWord s.draws) ∧
    (∀ r, r ≠ 0x009#11 → ¬ written r →
      regReadValue s r = regReadValue { s with status := { s.status with busy := false } } r) ∧
    (∀ k, k < 3 → (regReadValue s 0x009#11).getLsbD k = decide (k = 0)) ∧
    (∀ k, 5 ≤ k → (regReadValue s 0x009#11).getLsbD k = false) ∧
    (c ≠ some .iirConfig → (regReadValue s 0x009#11)[3] = s.iir.cfg) ∧
    (c ≠ some .iirConfig → c ≠ some .iirReset → c ≠ some .iirApply → (regReadValue s 0x009#11)[4] = s.iir.run) ∧
    regReadValue s 0x00A#11 = 0#64 ∧ regReadValue s 0x008#11 = s.cmdLast ∧
    (∀ a, s.ops.dstBase.toNat ≤ a → a < s.ops.dstBase.toNat + length → a < s.params.dmemWords →
      memReadValue s a = Config.freeWord s.draws) ∧
    (∀ a, ¬ (s.ops.dstBase.toNat ≤ a ∧ a < s.ops.dstBase.toNat + length ∧ a < s.params.dmemWords) →
      memReadValue s a = if a < s.params.dmemWords then Memory.readWord s.mem a else 0#64)

/-- Rule R104: a command changes DMEM only inside the write set its operands fix at issue, PK_COUNT only if it is PEAKS, and
the engine only if it is an IIR command. -/
def Obligations.CommandsStayInTheirWriteSet : Prop :=
  ∀ (s : State) (i : Instr) (t : State), decode s.cmdLast = some i → exec i s = .next t →
    (∀ a, inWriteSet s (a / 8) = false → Memory.readByte t.mem a = Memory.readByte s.mem a) ∧
    (i ≠ .peaks → t.pkCount = s.pkCount) ∧
    (i ≠ .iirConfig → i ≠ .iirReset → i ≠ .iirApply → t.iir = s.iir) ∧
    (i ≠ .iirConfig → t.iir.cfg = s.iir.cfg ∧ t.iir.order = s.iir.order ∧ t.iir.cb = s.iir.cb ∧ t.iir.ca = s.iir.ca) ∧
    sameElsewhere s t

/-! ### Reset (70_reset_and_hazards.md) -/

/-- Rule R230: after power-on reset every register reads 0 but the four constants, no command is pending, the interrupt output
is low, the engine is unconfigured, and DMEM holds its free power-on contents (rule R240, log entry 3). -/
def Obligations.PowerOnResetState : Prop :=
  ∀ (p : Params) (r : RegIndex), p.wf = true →
    regReadValue (State.resetWith p) r =
      (if r = 0x000#11 then 0x4D50534300000001#64 else if r = 0x001#11 then BitVec.ofNat 64 p.dmemWords
        else if r = 0x002#11 then BitVec.ofNat 64 p.maxOrder else if r = 0x003#11 then BitVec.ofNat 64 p.maxWin else 0#64) ∧
    (State.resetWith p).status.busy = false ∧ irq (State.resetWith p) = false ∧
    (State.resetWith p).iir =
      { cfg := false, run := false, order := 0,
        cb := List.replicate (p.maxOrder + 1) 0#64, ca := List.replicate (p.maxOrder + 1) 0#64,
        xh := List.replicate p.maxOrder 0#64, yh := List.replicate p.maxOrder 0#64 } ∧
    (∀ a, Memory.readByte (State.resetWith p).mem a = Config.powerOnByte a)

/-- Rule R231: a soft reset at any time. Every register and the engine as after power-on, IRQ_EN 0 whatever bit 0 was, DMEM
kept but for the write set of a command it abandons, whose words are free values (log entry 4); IIR_RESET and IIR_APPLY then fail with
NOT_CONFIGURED. -/
def Obligations.SoftResetState : Prop :=
  ∀ (s : State) (v : Word), v[1] = true →
    let t := hostAccess (.regWrite 0x00C#11 v) s
    t = { State.resetWith s.params with mem := t.mem, host := s.host, draws := t.draws } ∧
    irq t = false ∧
    (s.status.busy = false → t.mem = s.mem) ∧
    (∀ a, inWriteSet s (a / 8) = false → Memory.readByte t.mem a = Memory.readByte s.mem a) ∧
    (s.status.busy = true → ∀ k, s.ops.dstBase.toNat + k < s.params.dmemWords →
      k < writeSetLength s.ops (decode s.cmdLast) →
      Memory.readWord t.mem (s.ops.dstBase.toNat + k) = Config.freeWord (s.draws + k)) ∧
    (∃ u, exec .iirReset t = .next u ∧ u.errcode.code = .notConfigured) ∧
    (∃ u, exec .iirApply t = .next u ∧ u.errcode.code = .notConfigured)

/-! ### Rules about the whole machine -/

/-- The invariant holds after power-on reset of every legal block, State.reset among them. -/
def Obligations.InvariantHoldsAtReset : Prop :=
  (∀ p : Params, p.wf = true → (State.resetWith p).Inv) ∧ State.reset.Inv

/-- Every step keeps the invariant: DMEM canonical and inside the address space, STATUS and ERRCODE consistent, the engine's
arrays, order, zero tails and Idle history as rule R38 says. -/
def Obligations.StepKeepsTheInvariant : Prop :=
  ∀ s t : State, s.Inv → step s = .next t → t.Inv

/-- Rules R47, R74 and R234: during the BUSY window no host statement but a soft reset changes the pending command, an operand
register, DMEM, PK_COUNT or the engine. -/
def Obligations.WindowFreezesTheOperands : Prop :=
  ∀ (s : State) (stmt : HostStmt), s.status.busy = true →
    let t := hostTurn stmt s
    (t.status.busy = true →
      t.cmdLast = s.cmdLast ∧ t.ops = s.ops ∧ t.mem = s.mem ∧ t.pkCount = s.pkCount ∧ t.iir = s.iir ∧ t.params = s.params ∧
      t.errcode = s.errcode) ∧
    (t.status.busy = false → ∃ v : Word, stmt = .access (.regWrite 0x00C#11 v) ∧ v[1] = true)

/-- Rule R38: only the core step of an IIR command and a soft reset change the engine. -/
def Obligations.OnlyIirCommandsTouchTheEngine : Prop :=
  ∀ s t : State, step s = .next t →
    t.iir = s.iir ∨
    (turn s = .core ∧ (decode s.cmdLast = some .iirConfig ∨ decode s.cmdLast = some .iirReset ∨
      decode s.cmdLast = some .iirApply)) ∨
    (∃ v : Word, turn s = .host (.access (.regWrite 0x00C#11 v)) ∧ v[1] = true ∧ t.iir = Iir.reset s.params)

/-- Rules R45 and R206: IRQ rises only at a core step with IRQ_EN set, or when the host sets IRQ_EN while DONE = 1. -/
def Obligations.OnlyCompletionOrUnmaskingRaisesIrq : Prop :=
  ∀ s t : State, step s = .next t → irq s = false → irq t = true →
    (turn s = .core ∧ s.irqEn = true) ∨
    (∃ v : Word, turn s = .host (.access (.regWrite 0x00C#11 v)) ∧ v[1] = false ∧ v[0] = true ∧
      s.status.done = true)

/-- Rules R47, R100, R101 and R231: what happens to BUSY. Only a write to CMD outside the window opens it; only the core step
and a soft reset close it. -/
def Obligations.WhatOpensAndClosesTheWindow : Prop :=
  ∀ s t : State, step s = .next t →
    (s.status.busy = false → t.status.busy = true →
      ∃ w : Word, turn s = .host (.access (.regWrite 0x008#11 w)) ∧ t.cmdLast = w) ∧
    (s.status.busy = true → t.status.busy = false →
      turn s = .core ∨ ∃ v : Word, turn s = .host (.access (.regWrite 0x00C#11 v)) ∧ v[1] = true)

/-- Rules R84 and R101: while a command is pending and its turn has come (log entry 5), a step is the core step, whatever the
pending word decodes to. -/
def Obligations.StepRunsThePendingWord : Prop :=
  ∀ s : State, s.status.busy = true → s.coreDelay = 0 ∨ s.host.script[s.host.pc]? = none → step s = coreStep s
end

