-- ==== Sys2Proof/Laws/Memory.lean ====
section
/-! SUPPORT. What the DMEM operations do: one spec lemma per operation over bytes, words and runs of words, and that each keeps
the canonical form and the address range. -/

namespace Sys2Proof.Machine

theorem Memory.get_put (m : Memory) (a b : Nat) (v : Byte) :
    Memory.get (Memory.put m a v) b = if b = a then some v else Memory.get m b := by
  induction m with
  | nil => simp [Memory.put, Memory.get, eq_comm]
  | cons c rest ih =>
    obtain ⟨x, y⟩ := c
    simp only [Memory.put]
    split
    · simp [Memory.get, eq_comm]
    · split
      · subst_vars; simp only [Memory.get]; split <;> simp_all [eq_comm]
      · simp only [Memory.get, ih]; split <;> split <;> simp_all

/-- A byte lane is unwritten exactly when no cell lists it. -/
theorem Memory.get_eq_none {m : Memory} {a : Nat} : Memory.get m a = none ↔ ∀ c ∈ m, c.1 ≠ a := by
  induction m with
  | nil => simp [Memory.get]
  | cons c rest ih =>
    obtain ⟨x, b⟩ := c
    by_cases h : x = a <;> simp [Memory.get, h, ih]

/-- An unwritten byte lane reads its power-on value (rule R240). -/
theorem Memory.readByte_unwritten {m : Memory} {a : Nat} (h : Memory.get m a = none) :
    Memory.readByte m a = Config.powerOnByte a := by
  simp [Memory.readByte, h]

theorem Memory.mem_put {m : Memory} {a : Nat} {v : Byte} {c : Host.Cell} (h : c ∈ Memory.put m a v) :
    c = (a, v) ∨ c ∈ m := by
  induction m with
  | nil => simpa [Memory.put] using h
  | cons d rest ih =>
    obtain ⟨x, y⟩ := d
    simp only [Memory.put] at h
    split at h
    · simpa using h
    · split at h
      · simp only [List.mem_cons] at h ⊢; tauto
      · simp only [List.mem_cons] at h ⊢
        rcases h with h | h
        · exact .inr (.inl h)
        · rcases ih h with h | h <;> simp [h]

theorem Memory.put_wf {m : Memory} (a : Nat) (v : Byte) (h : Memory.wf m) : Memory.wf (Memory.put m a v) := by
  induction m with
  | nil => simp [Memory.wf, Memory.put]
  | cons d rest ih =>
    obtain ⟨x, y⟩ := d
    rw [Memory.wf, List.pairwise_cons] at h
    obtain ⟨first, rest_wf⟩ := h
    simp only [Memory.put]
    split
    · rename_i lt
      refine List.pairwise_cons.2 ⟨fun c hc => ?_, List.pairwise_cons.2 ⟨first, rest_wf⟩⟩
      rcases List.mem_cons.1 hc with rfl | hc
      · exact lt
      · exact lt.trans (first c hc)
    · split
      · rename_i eq
        subst eq
        exact List.pairwise_cons.2 ⟨first, rest_wf⟩
      · rename_i nlt ne
        refine List.pairwise_cons.2 ⟨fun c hc => ?_, ih rest_wf⟩
        rcases Memory.mem_put hc with rfl | hc
        · show x < a
          omega
        · exact first c hc

theorem Memory.readByte_put (m : Memory) (a b : Nat) (v : Byte) :
    Memory.readByte (Memory.put m a v) b = if b = a then v else Memory.readByte m b := by
  simp only [Memory.readByte, Memory.get_put]
  split <;> simp_all

/-- A word is eight lanes put one after the other. -/
theorem Memory.writeWord_eq (m : Memory) (a : Nat) (v : Word) :
    Memory.writeWord m a v =
      Memory.put (Memory.put (Memory.put (Memory.put (Memory.put (Memory.put (Memory.put (Memory.put m
        (8 * a + 0) (byteLane v 0)) (8 * a + 1) (byteLane v 1)) (8 * a + 2) (byteLane v 2)) (8 * a + 3) (byteLane v 3))
        (8 * a + 4) (byteLane v 4)) (8 * a + 5) (byteLane v 5)) (8 * a + 6) (byteLane v 6)) (8 * a + 7) (byteLane v 7) := rfl

theorem Memory.writeWord_wf {m : Memory} (a : Nat) (v : Word) (h : Memory.wf m) : Memory.wf (Memory.writeWord m a v) := by
  rw [Memory.writeWord_eq]
  repeat apply Memory.put_wf
  exact h

theorem Memory.mem_writeWord {m : Memory} {a : Nat} {v : Word} {c : Host.Cell} (h : c ∈ Memory.writeWord m a v) :
    (8 * a ≤ c.1 ∧ c.1 < 8 * (a + 1)) ∨ c ∈ m := by
  rw [Memory.writeWord_eq] at h
  iterate 8
    rcases Memory.mem_put h with rfl | h
    · left; constructor <;> simp only <;> omega
  exact .inr h

theorem Memory.readByte_writeWord (m : Memory) (a b : Nat) (v : Word) :
    Memory.readByte (Memory.writeWord m a v) b = if b / 8 = a then byteLane v (b % 8) else Memory.readByte m b := by
  rw [Memory.writeWord_eq]
  simp only [Memory.readByte_put]
  by_cases h : b / 8 = a
  · rw [if_pos h]
    obtain ⟨k, hk, rfl⟩ : ∃ k, k < 8 ∧ b = 8 * a + k := ⟨b % 8, by omega, by omega⟩
    rw [show (8 * a + k) % 8 = k by omega]
    interval_cases k <;> simp
  · have lane (k : Nat) (hk : k < 8) : b ≠ 8 * a + k := by omega
    rw [if_neg h]
    simp only [lane, if_false, Nat.reduceLT]

theorem byteLanes_append (v : Word) :
    byteLane v 7 ++ byteLane v 6 ++ byteLane v 5 ++ byteLane v 4 ++ byteLane v 3 ++ byteLane v 2 ++ byteLane v 1 ++
      byteLane v 0 = v := by
  apply BitVec.eq_of_getLsbD_eq
  intro i hi
  simp only [byteLane, BitVec.getLsbD_append, BitVec.getLsbD_extractLsb']
  have : i < 64 := hi
  interval_cases i <;> simp

theorem byteLane_readWord (m : Memory) (a k : Nat) (hk : k < 8) :
    byteLane (Memory.readWord m a) k = Memory.readByte m (8 * a + k) := by
  apply BitVec.eq_of_getLsbD_eq
  intro i hi
  simp only [byteLane, Memory.readWord, BitVec.getLsbD_append, BitVec.getLsbD_extractLsb']
  have : i < 8 := hi
  interval_cases k <;> interval_cases i <;> simp

/-- Read after write. -/
theorem Memory.readWord_writeWord (m : Memory) (a b : Nat) (v : Word) :
    Memory.readWord (Memory.writeWord m a v) b = if b = a then v else Memory.readWord m b := by
  have quot (k : Nat) (hk : k < 8) : (8 * b + k) / 8 = b := by omega
  have quot0 : 8 * b / 8 = b := by omega
  simp only [Memory.readWord, Memory.readByte_writeWord, quot, quot0, Nat.reduceLT]
  split
  · have rem (k : Nat) (hk : k < 8) : (8 * b + k) % 8 = k := by omega
    simp only [rem, Nat.reduceLT, Nat.mul_mod_right]
    exact byteLanes_append v
  · rfl

/-- Two memories with the same bytes read the same words. -/
theorem Memory.readWord_congr {m m' : Memory} {a : Nat}
    (h : ∀ k, k < 8 → Memory.readByte m (8 * a + k) = Memory.readByte m' (8 * a + k)) :
    Memory.readWord m a = Memory.readWord m' a := by
  simp only [Memory.readWord]
  have h0 := h 0 (by omega)
  rw [Nat.add_zero] at h0
  rw [h 7 (by omega), h 6 (by omega), h 5 (by omega), h 4 (by omega), h 3 (by omega), h 2 (by omega), h 1 (by omega), h0]

theorem Memory.writeWords_wf {m : Memory} (a : Nat) (vs : List Word) (h : Memory.wf m) :
    Memory.wf (Memory.writeWords m a vs) := by
  induction vs generalizing m a with
  | nil => exact h
  | cons v vs ih => exact ih _ (Memory.writeWord_wf a v h)

theorem Memory.mem_writeWords {m : Memory} {a : Nat} {vs : List Word} {c : Host.Cell}
    (h : c ∈ Memory.writeWords m a vs) : (8 * a ≤ c.1 ∧ c.1 < 8 * (a + vs.length)) ∨ c ∈ m := by
  induction vs generalizing m a with
  | nil => exact .inr h
  | cons v vs ih =>
    rcases ih h with h | h
    · left; simp only [List.length_cons]; omega
    · rcases Memory.mem_writeWord h with h | h
      · left; simp only [List.length_cons]; omega
      · exact .inr h

/-- A run of words leaves every byte outside it alone. -/
theorem Memory.readByte_writeWords_outside (m : Memory) (a b : Nat) (vs : List Word)
    (h : b / 8 < a ∨ a + vs.length ≤ b / 8) : Memory.readByte (Memory.writeWords m a vs) b = Memory.readByte m b := by
  induction vs generalizing m a with
  | nil => rfl
  | cons v vs ih =>
    simp only [List.length_cons] at h
    rw [Memory.writeWords, ih _ _ (by omega), Memory.readByte_writeWord, if_neg (by omega)]

theorem Memory.readWord_writeWords_outside (m : Memory) (a b : Nat) (vs : List Word)
    (h : b < a ∨ a + vs.length ≤ b) : Memory.readWord (Memory.writeWords m a vs) b = Memory.readWord m b :=
  Memory.readWord_congr fun _ _ => Memory.readByte_writeWords_outside _ _ _ _ (by omega)

/-- A run of words reads back. -/
theorem Memory.readWord_writeWords (m : Memory) (a k : Nat) (vs : List Word) (h : k < vs.length) :
    Memory.readWord (Memory.writeWords m a vs) (a + k) = vs.getD k 0#64 := by
  induction vs generalizing m a k with
  | nil => simp at h
  | cons v vs ih =>
    rw [Memory.writeWords]
    cases k with
    | zero => rw [Memory.readWord_writeWords_outside _ _ _ _ (by omega), Memory.readWord_writeWord]; simp
    | succ k =>
      have := ih (Memory.writeWord m a v) (a + 1) k (by simpa using h)
      rw [show a + (k + 1) = a + 1 + k by omega, this]
      simp

@[simp] theorem Memory.length_readWords (m : Memory) (a n : Nat) : (Memory.readWords m a n).length = n := by
  simp [Memory.readWords]

theorem Memory.getD_readWords (m : Memory) (a n k : Nat) (h : k < n) :
    (Memory.readWords m a n).getD k 0#64 = Memory.readWord m (a + k) := by
  simp [Memory.readWords, List.getD, h]

end Sys2Proof.Machine
end

