-- ==== Sys2Proof/Laws/State.lean ====
section
/-! SUPPORT. One lemma per field of State and named update: what the update makes of that field. Each is true by rfl and a simp
lemma, so that no later proof unfolds a record update. -/

namespace Sys2Proof.Machine

@[simp] theorem issueAfter_params (d : Nat) (w : Word) (s : State) : (issueAfter d w s).params = s.params := rfl
@[simp] theorem issueAfter_cmdLast (d : Nat) (w : Word) (s : State) : (issueAfter d w s).cmdLast = w := rfl
@[simp] theorem issueAfter_status (d : Nat) (w : Word) (s : State) : (issueAfter d w s).status = { busy := true, done := false, err := false } := rfl
@[simp] theorem issueAfter_errcode (d : Nat) (w : Word) (s : State) : (issueAfter d w s).errcode = { code := .noError, opc := 0#8 } := rfl
@[simp] theorem issueAfter_hosterr (d : Nat) (w : Word) (s : State) : (issueAfter d w s).hosterr = s.hosterr := rfl
@[simp] theorem issueAfter_irqEn (d : Nat) (w : Word) (s : State) : (issueAfter d w s).irqEn = s.irqEn := rfl
@[simp] theorem issueAfter_ops (d : Nat) (w : Word) (s : State) : (issueAfter d w s).ops = s.ops := rfl
@[simp] theorem issueAfter_pkCount (d : Nat) (w : Word) (s : State) : (issueAfter d w s).pkCount = s.pkCount := rfl
@[simp] theorem issueAfter_iir (d : Nat) (w : Word) (s : State) : (issueAfter d w s).iir = s.iir := rfl
@[simp] theorem issueAfter_mem (d : Nat) (w : Word) (s : State) : (issueAfter d w s).mem = s.mem := rfl
@[simp] theorem issueAfter_host (d : Nat) (w : Word) (s : State) : (issueAfter d w s).host = s.host := rfl
@[simp] theorem issueAfter_draws (d : Nat) (w : Word) (s : State) : (issueAfter d w s).draws = s.draws := rfl
@[simp] theorem issueAfter_coreDelay (d : Nat) (w : Word) (s : State) : (issueAfter d w s).coreDelay = d := rfl

@[simp] theorem issue_params (w : Word) (s : State) : (issue w s).params = s.params := rfl
@[simp] theorem issue_cmdLast (w : Word) (s : State) : (issue w s).cmdLast = w := rfl
@[simp] theorem issue_status (w : Word) (s : State) : (issue w s).status = { busy := true, done := false, err := false } := rfl
@[simp] theorem issue_errcode (w : Word) (s : State) : (issue w s).errcode = { code := .noError, opc := 0#8 } := rfl
@[simp] theorem issue_hosterr (w : Word) (s : State) : (issue w s).hosterr = s.hosterr := rfl
@[simp] theorem issue_irqEn (w : Word) (s : State) : (issue w s).irqEn = s.irqEn := rfl
@[simp] theorem issue_ops (w : Word) (s : State) : (issue w s).ops = s.ops := rfl
@[simp] theorem issue_pkCount (w : Word) (s : State) : (issue w s).pkCount = s.pkCount := rfl
@[simp] theorem issue_iir (w : Word) (s : State) : (issue w s).iir = s.iir := rfl
@[simp] theorem issue_mem (w : Word) (s : State) : (issue w s).mem = s.mem := rfl
@[simp] theorem issue_host (w : Word) (s : State) : (issue w s).host = s.host := rfl
@[simp] theorem issue_draws (w : Word) (s : State) : (issue w s).draws = s.draws + 1 := rfl
@[simp] theorem issue_coreDelay (w : Word) (s : State) : (issue w s).coreDelay = Config.coreDelay s.draws := rfl

@[simp] theorem complete_params (c : ErrorCode) (s : State) : (complete c s).params = s.params := rfl
@[simp] theorem complete_cmdLast (c : ErrorCode) (s : State) : (complete c s).cmdLast = s.cmdLast := rfl
@[simp] theorem complete_status (c : ErrorCode) (s : State) : (complete c s).status = { busy := false, done := true, err := c != .noError } := rfl
@[simp] theorem complete_errcode (c : ErrorCode) (s : State) : (complete c s).errcode = { code := c, opc := pendingOpc s } := rfl
@[simp] theorem complete_hosterr (c : ErrorCode) (s : State) : (complete c s).hosterr = s.hosterr := rfl
@[simp] theorem complete_irqEn (c : ErrorCode) (s : State) : (complete c s).irqEn = s.irqEn := rfl
@[simp] theorem complete_ops (c : ErrorCode) (s : State) : (complete c s).ops = s.ops := rfl
@[simp] theorem complete_pkCount (c : ErrorCode) (s : State) : (complete c s).pkCount = s.pkCount := rfl
@[simp] theorem complete_iir (c : ErrorCode) (s : State) : (complete c s).iir = s.iir := rfl
@[simp] theorem complete_mem (c : ErrorCode) (s : State) : (complete c s).mem = s.mem := rfl
@[simp] theorem complete_host (c : ErrorCode) (s : State) : (complete c s).host = s.host := rfl
@[simp] theorem complete_draws (c : ErrorCode) (s : State) : (complete c s).draws = s.draws := rfl
@[simp] theorem complete_coreDelay (c : ErrorCode) (s : State) : (complete c s).coreDelay = s.coreDelay := rfl

@[simp] theorem mapSignal_params (f : List Word → List Word) (s : State) : (mapSignal f s).params = s.params := rfl
@[simp] theorem mapSignal_cmdLast (f : List Word → List Word) (s : State) : (mapSignal f s).cmdLast = s.cmdLast := rfl
@[simp] theorem mapSignal_status (f : List Word → List Word) (s : State) : (mapSignal f s).status = s.status := rfl
@[simp] theorem mapSignal_errcode (f : List Word → List Word) (s : State) : (mapSignal f s).errcode = s.errcode := rfl
@[simp] theorem mapSignal_hosterr (f : List Word → List Word) (s : State) : (mapSignal f s).hosterr = s.hosterr := rfl
@[simp] theorem mapSignal_irqEn (f : List Word → List Word) (s : State) : (mapSignal f s).irqEn = s.irqEn := rfl
@[simp] theorem mapSignal_ops (f : List Word → List Word) (s : State) : (mapSignal f s).ops = s.ops := rfl
@[simp] theorem mapSignal_pkCount (f : List Word → List Word) (s : State) : (mapSignal f s).pkCount = s.pkCount := rfl
@[simp] theorem mapSignal_iir (f : List Word → List Word) (s : State) : (mapSignal f s).iir = s.iir := rfl
@[simp] theorem mapSignal_mem (f : List Word → List Word) (s : State) : (mapSignal f s).mem = Memory.writeWords s.mem s.ops.dstBase.toNat (f (inputSignal s)) := rfl
@[simp] theorem mapSignal_host (f : List Word → List Word) (s : State) : (mapSignal f s).host = s.host := rfl
@[simp] theorem mapSignal_draws (f : List Word → List Word) (s : State) : (mapSignal f s).draws = s.draws := rfl
@[simp] theorem mapSignal_coreDelay (f : List Word → List Word) (s : State) : (mapSignal f s).coreDelay = s.coreDelay := rfl

@[simp] theorem performPeaks_params (s : State) : (performPeaks s).params = s.params := rfl
@[simp] theorem performPeaks_cmdLast (s : State) : (performPeaks s).cmdLast = s.cmdLast := rfl
@[simp] theorem performPeaks_status (s : State) : (performPeaks s).status = s.status := rfl
@[simp] theorem performPeaks_errcode (s : State) : (performPeaks s).errcode = s.errcode := rfl
@[simp] theorem performPeaks_hosterr (s : State) : (performPeaks s).hosterr = s.hosterr := rfl
@[simp] theorem performPeaks_irqEn (s : State) : (performPeaks s).irqEn = s.irqEn := rfl
@[simp] theorem performPeaks_ops (s : State) : (performPeaks s).ops = s.ops := rfl
@[simp] theorem performPeaks_pkCount (s : State) : (performPeaks s).pkCount = BitVec.ofNat 32 (peaksOf s).length := rfl
@[simp] theorem performPeaks_iir (s : State) : (performPeaks s).iir = s.iir := rfl
@[simp] theorem performPeaks_mem (s : State) : (performPeaks s).mem = Memory.writeWords s.mem s.ops.dstBase.toNat ((peaksOf s).map (fun p => BitVec.ofNat 64 p)) := rfl
@[simp] theorem performPeaks_host (s : State) : (performPeaks s).host = s.host := rfl
@[simp] theorem performPeaks_draws (s : State) : (performPeaks s).draws = s.draws := rfl
@[simp] theorem performPeaks_coreDelay (s : State) : (performPeaks s).coreDelay = s.coreDelay := rfl

@[simp] theorem performIirConfig_params (s : State) : (performIirConfig s).params = s.params := rfl
@[simp] theorem performIirConfig_cmdLast (s : State) : (performIirConfig s).cmdLast = s.cmdLast := rfl
@[simp] theorem performIirConfig_status (s : State) : (performIirConfig s).status = s.status := rfl
@[simp] theorem performIirConfig_errcode (s : State) : (performIirConfig s).errcode = s.errcode := rfl
@[simp] theorem performIirConfig_hosterr (s : State) : (performIirConfig s).hosterr = s.hosterr := rfl
@[simp] theorem performIirConfig_irqEn (s : State) : (performIirConfig s).irqEn = s.irqEn := rfl
@[simp] theorem performIirConfig_ops (s : State) : (performIirConfig s).ops = s.ops := rfl
@[simp] theorem performIirConfig_pkCount (s : State) : (performIirConfig s).pkCount = s.pkCount := rfl
@[simp] theorem performIirConfig_mem (s : State) : (performIirConfig s).mem = s.mem := rfl
@[simp] theorem performIirConfig_host (s : State) : (performIirConfig s).host = s.host := rfl
@[simp] theorem performIirConfig_draws (s : State) : (performIirConfig s).draws = s.draws := rfl
@[simp] theorem performIirConfig_coreDelay (s : State) : (performIirConfig s).coreDelay = s.coreDelay := rfl

@[simp] theorem performIirReset_params (s : State) : (performIirReset s).params = s.params := rfl
@[simp] theorem performIirReset_cmdLast (s : State) : (performIirReset s).cmdLast = s.cmdLast := rfl
@[simp] theorem performIirReset_status (s : State) : (performIirReset s).status = s.status := rfl
@[simp] theorem performIirReset_errcode (s : State) : (performIirReset s).errcode = s.errcode := rfl
@[simp] theorem performIirReset_hosterr (s : State) : (performIirReset s).hosterr = s.hosterr := rfl
@[simp] theorem performIirReset_irqEn (s : State) : (performIirReset s).irqEn = s.irqEn := rfl
@[simp] theorem performIirReset_ops (s : State) : (performIirReset s).ops = s.ops := rfl
@[simp] theorem performIirReset_pkCount (s : State) : (performIirReset s).pkCount = s.pkCount := rfl
@[simp] theorem performIirReset_iir (s : State) : (performIirReset s).iir = { s.iir with run := false, xh := zeroHistory s.params, yh := zeroHistory s.params } := rfl
@[simp] theorem performIirReset_mem (s : State) : (performIirReset s).mem = s.mem := rfl
@[simp] theorem performIirReset_host (s : State) : (performIirReset s).host = s.host := rfl
@[simp] theorem performIirReset_draws (s : State) : (performIirReset s).draws = s.draws := rfl
@[simp] theorem performIirReset_coreDelay (s : State) : (performIirReset s).coreDelay = s.coreDelay := rfl

@[simp] theorem performIirApply_params (s : State) : (performIirApply s).params = s.params := rfl
@[simp] theorem performIirApply_cmdLast (s : State) : (performIirApply s).cmdLast = s.cmdLast := rfl
@[simp] theorem performIirApply_status (s : State) : (performIirApply s).status = s.status := rfl
@[simp] theorem performIirApply_errcode (s : State) : (performIirApply s).errcode = s.errcode := rfl
@[simp] theorem performIirApply_hosterr (s : State) : (performIirApply s).hosterr = s.hosterr := rfl
@[simp] theorem performIirApply_irqEn (s : State) : (performIirApply s).irqEn = s.irqEn := rfl
@[simp] theorem performIirApply_ops (s : State) : (performIirApply s).ops = s.ops := rfl
@[simp] theorem performIirApply_pkCount (s : State) : (performIirApply s).pkCount = s.pkCount := rfl
@[simp] theorem performIirApply_iir (s : State) : (performIirApply s).iir = afterApply s.iir (inputSignal s) := rfl
@[simp] theorem performIirApply_mem (s : State) : (performIirApply s).mem = Memory.writeWords s.mem s.ops.dstBase.toNat (recursion s.iir (inputSignal s)) := rfl
@[simp] theorem performIirApply_host (s : State) : (performIirApply s).host = s.host := rfl
@[simp] theorem performIirApply_draws (s : State) : (performIirApply s).draws = s.draws := rfl
@[simp] theorem performIirApply_coreDelay (s : State) : (performIirApply s).coreDelay = s.coreDelay := rfl

@[simp] theorem reply_params (v : Word) (s : State) : (reply v s).params = s.params := rfl
@[simp] theorem reply_cmdLast (v : Word) (s : State) : (reply v s).cmdLast = s.cmdLast := rfl
@[simp] theorem reply_status (v : Word) (s : State) : (reply v s).status = s.status := rfl
@[simp] theorem reply_errcode (v : Word) (s : State) : (reply v s).errcode = s.errcode := rfl
@[simp] theorem reply_hosterr (v : Word) (s : State) : (reply v s).hosterr = s.hosterr := rfl
@[simp] theorem reply_irqEn (v : Word) (s : State) : (reply v s).irqEn = s.irqEn := rfl
@[simp] theorem reply_ops (v : Word) (s : State) : (reply v s).ops = s.ops := rfl
@[simp] theorem reply_pkCount (v : Word) (s : State) : (reply v s).pkCount = s.pkCount := rfl
@[simp] theorem reply_iir (v : Word) (s : State) : (reply v s).iir = s.iir := rfl
@[simp] theorem reply_mem (v : Word) (s : State) : (reply v s).mem = s.mem := rfl
@[simp] theorem reply_host (v : Word) (s : State) : (reply v s).host = { s.host with replies := s.host.replies ++ [v] } := rfl
@[simp] theorem reply_draws (v : Word) (s : State) : (reply v s).draws = s.draws + 1 := rfl
@[simp] theorem reply_coreDelay (v : Word) (s : State) : (reply v s).coreDelay = s.coreDelay := rfl

@[simp] theorem refuseWrite_params (s : State) : (refuseWrite s).params = s.params := rfl
@[simp] theorem refuseWrite_cmdLast (s : State) : (refuseWrite s).cmdLast = s.cmdLast := rfl
@[simp] theorem refuseWrite_status (s : State) : (refuseWrite s).status = s.status := rfl
@[simp] theorem refuseWrite_errcode (s : State) : (refuseWrite s).errcode = s.errcode := rfl
@[simp] theorem refuseWrite_hosterr (s : State) : (refuseWrite s).hosterr = { s.hosterr with wrBusy := true } := rfl
@[simp] theorem refuseWrite_irqEn (s : State) : (refuseWrite s).irqEn = s.irqEn := rfl
@[simp] theorem refuseWrite_ops (s : State) : (refuseWrite s).ops = s.ops := rfl
@[simp] theorem refuseWrite_pkCount (s : State) : (refuseWrite s).pkCount = s.pkCount := rfl
@[simp] theorem refuseWrite_iir (s : State) : (refuseWrite s).iir = s.iir := rfl
@[simp] theorem refuseWrite_mem (s : State) : (refuseWrite s).mem = s.mem := rfl
@[simp] theorem refuseWrite_host (s : State) : (refuseWrite s).host = s.host := rfl
@[simp] theorem refuseWrite_draws (s : State) : (refuseWrite s).draws = s.draws := rfl
@[simp] theorem refuseWrite_coreDelay (s : State) : (refuseWrite s).coreDelay = s.coreDelay := rfl

@[simp] theorem hostGoto_params (n : Nat) (s : State) : (hostGoto n s).params = s.params := rfl
@[simp] theorem hostGoto_cmdLast (n : Nat) (s : State) : (hostGoto n s).cmdLast = s.cmdLast := rfl
@[simp] theorem hostGoto_status (n : Nat) (s : State) : (hostGoto n s).status = s.status := rfl
@[simp] theorem hostGoto_errcode (n : Nat) (s : State) : (hostGoto n s).errcode = s.errcode := rfl
@[simp] theorem hostGoto_hosterr (n : Nat) (s : State) : (hostGoto n s).hosterr = s.hosterr := rfl
@[simp] theorem hostGoto_irqEn (n : Nat) (s : State) : (hostGoto n s).irqEn = s.irqEn := rfl
@[simp] theorem hostGoto_ops (n : Nat) (s : State) : (hostGoto n s).ops = s.ops := rfl
@[simp] theorem hostGoto_pkCount (n : Nat) (s : State) : (hostGoto n s).pkCount = s.pkCount := rfl
@[simp] theorem hostGoto_iir (n : Nat) (s : State) : (hostGoto n s).iir = s.iir := rfl
@[simp] theorem hostGoto_mem (n : Nat) (s : State) : (hostGoto n s).mem = s.mem := rfl
@[simp] theorem hostGoto_host (n : Nat) (s : State) : (hostGoto n s).host = { s.host with pc := n } := rfl
@[simp] theorem hostGoto_draws (n : Nat) (s : State) : (hostGoto n s).draws = s.draws := rfl
@[simp] theorem hostGoto_coreDelay (n : Nat) (s : State) : (hostGoto n s).coreDelay = s.coreDelay := rfl

@[simp] theorem softReset_params (s : State) : (softReset s).params = s.params := rfl
@[simp] theorem softReset_cmdLast (s : State) : (softReset s).cmdLast = 0#64 := rfl
@[simp] theorem softReset_status (s : State) : (softReset s).status = { busy := false, done := false, err := false } := rfl
@[simp] theorem softReset_errcode (s : State) : (softReset s).errcode = { code := .noError, opc := 0#8 } := rfl
@[simp] theorem softReset_hosterr (s : State) : (softReset s).hosterr = { wrBusy := false, cmdBusy := false } := rfl
@[simp] theorem softReset_irqEn (s : State) : (softReset s).irqEn = false := rfl
@[simp] theorem softReset_ops (s : State) : (softReset s).ops = Operands.reset := rfl
@[simp] theorem softReset_pkCount (s : State) : (softReset s).pkCount = 0#32 := rfl
@[simp] theorem softReset_iir (s : State) : (softReset s).iir = Iir.reset s.params := rfl
@[simp] theorem softReset_mem (s : State) : (softReset s).mem = abandonedMem s := rfl
@[simp] theorem softReset_host (s : State) : (softReset s).host = s.host := rfl
@[simp] theorem softReset_draws (s : State) : (softReset s).draws = s.draws + writeSetWords s := rfl
@[simp] theorem softReset_coreDelay (s : State) : (softReset s).coreDelay = 0 := rfl

end Sys2Proof.Machine
end

