-- ==== Sys2Proof/Laws/Ops.lean ====
section
/-! SUPPORT. What the shared operations of a command's life can do, said once: the check chain, the frame of a command, exec as
a whole, and the turn of the two agents. -/

namespace Sys2Proof.Machine

@[simp] theorem firstFailure_nil : firstFailure [] = .noError := rfl

theorem firstFailure_cons (b : Bool) (c : ErrorCode) (rest : List (Bool × ErrorCode)) :
    firstFailure ((b, c) :: rest) = if b = true then c else firstFailure rest := rfl

/-- No check fails exactly when each one's condition is false, if every listed code is an error. -/
theorem firstFailure_eq_noError {l : List (Bool × ErrorCode)} (h : ∀ p ∈ l, p.2 ≠ .noError) :
    firstFailure l = .noError ↔ ∀ p ∈ l, p.1 = false := by
  induction l with
  | nil => simp
  | cons p rest ih =>
    obtain ⟨b, c⟩ := p
    have hc : c ≠ .noError := h (b, c) (by simp)
    have hr := ih fun q hq => h q (List.mem_cons_of_mem _ hq)
    cases b <;> simp [firstFailure_cons, hc, hr]

/-- A command always completes: with its effect when no check fails, else with nothing but the record. -/
theorem runCommand_cases (code : ErrorCode) (f : State → State) (s : State) :
    (code = .noError ∧ runCommand code f s = .next (complete .noError (f s))) ∨
    (code ≠ .noError ∧ runCommand code f s = .next (complete code s)) := by
  by_cases h : code = .noError
  · subst h; exact .inl ⟨rfl, rfl⟩
  · exact .inr ⟨h, by simp [runCommand, h]⟩

/-- The checks of each command. -/
def checksOf : Instr → State → ErrorCode
  | .iirConfig => iirConfigChecks
  | .iirReset => iirResetChecks
  | .iirApply => iirApplyChecks
  | .dilate _ => morphChecks
  | .erode _ => morphChecks
  | .opening => morphChecks
  | .peaks => peaksChecks

/-- The effect of each command. -/
def performOf : Instr → State → State
  | .iirConfig, s => performIirConfig s
  | .iirReset, s => performIirReset s
  | .iirApply, s => performIirApply s
  | .dilate shift, s => mapSignal (fun x => dilateSeq x s.ops.winM.toNat shift) s
  | .erode shift, s => mapSignal (fun x => erodeSeq x s.ops.winM.toNat shift) s
  | .opening, s => mapSignal (fun x => openSeq x s.ops.winM.toNat) s
  | .peaks, s => performPeaks s

theorem exec_eq (i : Instr) (s : State) : exec i s = runCommand (checksOf i s) (performOf i) s := by
  cases i <;> rfl

/-- All that exec can do: the command's effect and completion, or completion alone. -/
theorem exec_cases {i : Instr} {s t : State} (h : exec i s = .next t) :
    (checksOf i s = .noError ∧ t = complete .noError (performOf i s)) ∨
    (checksOf i s ≠ .noError ∧ t = complete (checksOf i s) s) := by
  rw [exec_eq] at h
  rcases runCommand_cases (checksOf i s) (performOf i) s with ⟨hc, hr⟩ | ⟨hc, hr⟩ <;>
    rw [hr] at h <;> injection h with h
  · exact .inl ⟨hc, h.symm⟩
  · exact .inr ⟨hc, h.symm⟩

theorem exec_of_passes {i : Instr} {s : State} (h : checksOf i s = .noError) :
    exec i s = .next (complete .noError (performOf i s)) := by
  rw [exec_eq, runCommand, h, if_pos rfl]

theorem exec_of_fails {i : Instr} {s : State} (h : checksOf i s ≠ .noError) :
    exec i s = .next (complete (checksOf i s) s) := by
  rw [exec_eq, runCommand, if_neg h]

/-- A command that reports no error has passed its checks and performed. -/
theorem exec_success {i : Instr} {s t : State} (h : exec i s = .next t) (ht : t.status.err = false) :
    checksOf i s = .noError ∧ t = complete .noError (performOf i s) := by
  rcases exec_cases h with ⟨hc, rfl⟩ | ⟨hc, rfl⟩
  · exact ⟨hc, rfl⟩
  · simp [hc] at ht

/-- All that a step can do. -/
theorem step_cases {s t : State} (h : step s = .next t) :
    (turn s = .core ∧ ∃ i, decode s.cmdLast = some i ∧ exec i s = .next t) ∨
    (turn s = .core ∧ decode s.cmdLast = none ∧ t = complete .illegalCommand s) ∨
    (∃ stmt, turn s = .host stmt ∧ t = hostTurn stmt s) ∨
    (turn s = .idle ∧ t = s) := by
  unfold step advance at h
  split at h
  · rename_i hturn
    unfold coreStep at h
    split at h
    · rename_i i hi
      exact .inl ⟨hturn, i, hi, h⟩
    · rename_i hi
      injection h with h
      exact .inr (.inl ⟨hturn, hi, h.symm⟩)
  · rename_i stmt hturn
    injection h with h
    exact .inr (.inr (.inl ⟨stmt, hturn, h.symm⟩))
  · rename_i hturn
    injection h with h
    exact .inr (.inr (.inr ⟨hturn, h.symm⟩))

/-- The core's turn comes only while a command is pending. -/
theorem busy_of_turn_core {s : State} (h : turn s = .core) : s.status.busy = true := by
  unfold turn at h
  split at h <;> split at h <;> simp_all

/-- All that a register write can do to the block, by the register it names. -/
theorem regWrite_cases (r : RegIndex) (v : Word) (s : State) :
    (regAt s.params r = .cmd ∧ regWrite r v s = writeCmd v s) ∨
    (regAt s.params r = .status ∧ regWrite r v s = writeStatus v s) ∨
    (regAt s.params r = .hosterr ∧ regWrite r v s = writeHosterr v s) ∨
    (regAt s.params r = .ctrl ∧ regWrite r v s = writeCtrl v s) ∨
    (regWrite r v s = writeOther (regAt s.params r) v s) := by
  unfold regWrite
  split <;> simp_all

/-- The windows name no register of the fixed part of the map. -/
theorem windowAt_cases (p : Params) (n : Nat) :
    (∃ k, windowAt p n = .iirB k) ∨ (∃ k, windowAt p n = .iirA k) ∨ (∃ k, windowAt p n = .iirXH k) ∨
    (∃ k, windowAt p n = .iirYH k) ∨ windowAt p n = .unmapped := by
  unfold windowAt
  repeat' split
  all_goals simp

/-- CTRL is index 0x00C alone. -/
theorem regAt_ctrl {p : Params} {r : RegIndex} (h : regAt p r = .ctrl) : r = 0x00C#11 := by
  have := windowAt_cases p r.toNat
  unfold regAt at h
  split at h <;> simp_all
  apply BitVec.eq_of_toNat_eq; simpa

/-- CMD is index 0x008 alone. -/
theorem regAt_cmd {p : Params} {r : RegIndex} (h : regAt p r = .cmd) : r = 0x008#11 := by
  have := windowAt_cases p r.toNat
  unfold regAt at h
  split at h <;> simp_all
  apply BitVec.eq_of_toNat_eq; simpa

end Sys2Proof.Machine
end

