-- ==== Sys2Proof/Laws/Host.lean ====
section
/-! SUPPORT. All that one host step can do, said once: an inversion lemma for hostTurn that the invariants go through. -/

namespace Sys2Proof.Machine

/-- The state a host step acts on: the pending command's core step is one host step nearer. -/
def nearer (s : State) : State := { s with coreDelay := s.coreDelay - 1 }

/-- What the block looks like after a host statement, but for the host's own place in its program. -/
inductive HostEffect (stmt : HostStmt) (s : State) : State → Prop where
  /-- A read of a register or of DMEM, `bnz` included. -/
  | read (v : Word) : HostEffect stmt s (reply v (nearer s))
  /-- A write to CMD outside the BUSY window. -/
  | issued (w : Word) (idle : s.status.busy = false) (is : stmt = .access (.regWrite 0x008#11 w)) :
      HostEffect stmt s (issue w (nearer s))
  /-- A write to CMD during the BUSY window. -/
  | cmdRefused (busy : s.status.busy = true) :
      HostEffect stmt s { nearer s with hosterr := { s.hosterr with cmdBusy := true } }
  /-- A write to STATUS. -/
  | acknowledged (v : Word) : HostEffect stmt s (writeStatus v (nearer s))
  /-- A write to HOSTERR. -/
  | hosterrCleared (v : Word) : HostEffect stmt s (writeHosterr v (nearer s))
  /-- A write to CTRL with bit 1 set. -/
  | softReset (v : Word) (is : stmt = .access (.regWrite 0x00C#11 v)) (bit : v[1] = true) :
      HostEffect stmt s (softReset (nearer s))
  /-- A write to CTRL with bit 1 clear. -/
  | irqEnable (v : Word) (is : stmt = .access (.regWrite 0x00C#11 v)) (bit : v[1] = false) :
      HostEffect stmt s { nearer s with irqEn := v[0] }
  /-- Any other write during the BUSY window. -/
  | refused (busy : s.status.busy = true) : HostEffect stmt s (refuseWrite (nearer s))
  /-- A write to a register other than CMD, STATUS, HOSTERR and CTRL outside the BUSY window. -/
  | operand (reg : Reg) (v : Word) (idle : s.status.busy = false) :
      HostEffect stmt s { nearer s with ops := writeOperand s.ops v reg }
  /-- A write to a DMEM word outside the BUSY window. -/
  | stored (a : Nat) (v : Word) (idle : s.status.busy = false) (inside : a < s.params.dmemWords) :
      HostEffect stmt s { nearer s with mem := Memory.writeWord s.mem a v }
  /-- A write past the end of DMEM outside the BUSY window. -/
  | ignored (idle : s.status.busy = false) : HostEffect stmt s (nearer s)

theorem regWrite_effect (r : RegIndex) (v : Word) (s : State) :
    HostEffect (.access (.regWrite r v)) s (regWrite r v (nearer s)) := by
  rcases regWrite_cases r v (nearer s) with ⟨h, e⟩ | ⟨_, e⟩ | ⟨_, e⟩ | ⟨h, e⟩ | e <;> rw [e]
  · have hr := regAt_cmd h
    subst hr
    unfold writeCmd
    split
    · exact .cmdRefused ‹_›
    · exact .issued v (Bool.eq_false_iff.2 ‹_›) rfl
  · exact .acknowledged v
  · exact .hosterrCleared v
  · have hr := regAt_ctrl h
    subst hr
    unfold writeCtrl
    split
    · exact .softReset v rfl ‹_›
    · exact .irqEnable v rfl (by simpa using ‹¬ v[1] = true›)
  · unfold writeOther
    split
    · exact .refused ‹_›
    · exact .operand _ v (Bool.eq_false_iff.2 ‹_›)

theorem memWrite_effect (a : Nat) (v : Word) (s : State) :
    HostEffect (.access (.memWrite a v)) s (memWrite a v (nearer s)) := by
  unfold memWrite
  split
  · exact .refused ‹_›
  · have idle : s.status.busy = false := Bool.eq_false_iff.2 ‹_›
    split
    · exact .stored a v idle ‹_›
    · exact .ignored idle

/-- All that a host step can do. -/
theorem hostTurn_cases (stmt : HostStmt) (s : State) :
    ∃ u n, HostEffect stmt s u ∧ hostTurn stmt s = hostGoto n u := by
  cases stmt with
  | bnz r bit target => exact ⟨_, _, .read _, rfl⟩
  | access a =>
    cases a with
    | regRead r => exact ⟨_, _, .read _, rfl⟩
    | memRead a => exact ⟨_, _, .read _, rfl⟩
    | regWrite r v => exact ⟨_, _, regWrite_effect r v s, rfl⟩
    | memWrite a v => exact ⟨_, _, memWrite_effect a v s, rfl⟩

end Sys2Proof.Machine
end

