-- ==== Sys2Proof/Laws/Sequence.lean ====
section
/-! SUPPORT. Lengths and elements of the sequences the engines compute. -/

namespace Sys2Proof.Machine

@[simp] theorem length_inputSignal (s : State) : (inputSignal s).length = s.ops.srcLen.toNat := by
  simp [inputSignal, Memory.readWords]

@[simp] theorem length_dilateSeq (x : List Word) (m : Nat) (shift : Bool) : (dilateSeq x m shift).length = x.length := by
  simp [dilateSeq]

@[simp] theorem length_erodeSeq (x : List Word) (m : Nat) (shift : Bool) : (erodeSeq x m shift).length = x.length := by
  simp [erodeSeq]

@[simp] theorem length_edgePad (x : List Word) (m : Nat) : (edgePad x m).length = x.length + 2 * m := by
  simp [edgePad]; omega

/-- Both inner stages of OPEN have the padded length (rule R214), and stripping gives the input's length back. -/
@[simp] theorem length_openSeq (x : List Word) (m : Nat) : (openSeq x m).length = x.length := by
  unfold openSeq
  split
  · simp [*]
  · simp; omega

theorem sampleAt_dilateSeq (x : List Word) (m : Nat) (shift : Bool) (i : Nat) (h : i < x.length) :
    sampleAt (dilateSeq x m shift) i = foldMax (window x m shift i) := by
  simp [sampleAt, dilateSeq, List.getD, h]

theorem sampleAt_erodeSeq (x : List Word) (m : Nat) (shift : Bool) (i : Nat) (h : i < x.length) :
    sampleAt (erodeSeq x m shift) i = foldMin (window x m shift i) := by
  simp [sampleAt, erodeSeq, List.getD, h]

theorem length_foldl_append_one {α β : Type} (f : List α → β → α) (l : List β) (init : List α) :
    (l.foldl (fun acc b => acc ++ [f acc b]) init).length = init.length + l.length := by
  induction l generalizing init with
  | nil => rfl
  | cons b l ih => simp [ih]; omega

theorem length_extendedOutput (e : Iir) (x : List Word) :
    (extendedOutput e x).length = (e.yh.take e.order).length + x.length := by
  unfold extendedOutput
  rw [length_foldl_append_one (fun ye i => outputAt e (extendedInput e x) ye i)]
  simp

@[simp] theorem length_recursion (e : Iir) (x : List Word) : (recursion e x).length = x.length := by
  simp only [recursion, List.length_drop, length_extendedOutput]
  omega

theorem length_lastOf (x : List Word) (k : Nat) (h : k ≤ x.length) : (lastOf x k).length = k := by
  simp [lastOf]; omega

/-- A history buffer keeps its length (rule R166). -/
theorem length_trailing (L : Nat) (h v : List Word) (hL : L ≤ h.length) : (trailing L h v).length = h.length := by
  rw [trailing, List.length_append, length_lastOf _ _ (by simp [hL])]
  simp; omega

/-- The entries of a history buffer from L up stay as they are (rule R166). -/
theorem drop_trailing (L : Nat) (h v : List Word) (hL : L ≤ h.length) : (trailing L h v).drop L = h.drop L := by
  rw [trailing, List.drop_left' (length_lastOf _ _ (by simp [hL]))]

theorem stageA_sublist (x : List Word) : List.Sublist (stageA x) (List.range' 1 (x.length - 1)) :=
  List.filter_sublist

theorem mem_stageA {x : List Word} {i : Nat} :
    i ∈ stageA x ↔ 1 ≤ i ∧ i < 1 + (x.length - 1) ∧ isCandidate x i = true := by
  simp [stageA, List.mem_range'_1, and_assoc]

end Sys2Proof.Machine
end

