-- ==== Sys2Proof/Laws/Operands.lean ====
section
/-! SUPPORT. What the operand checks and the window bounds say, in the words of Safety.lean, and the order laws of the
comparisons. -/

namespace Sys2Proof.Machine

theorem inRange_iff (p : Params) (base n : Nat) : inRange p base n = true ↔ n = 0 ∨ base + n ≤ p.dmemWords := by
  simp [inRange]

theorem srcInRange_iff (s : State) : srcInRange s = true ↔ regionOk s s.ops.srcBase.toNat s.ops.srcLen.toNat :=
  inRange_iff _ _ _

theorem dstInRange_iff (s : State) : dstInRange s = true ↔ regionOk s s.ops.dstBase.toNat s.ops.dstLen.toNat :=
  inRange_iff _ _ _

/-- Writing a region that lies inside DMEM, or is empty, keeps DMEM inside its address space. -/
theorem Memory.inside_writeWords {m : Memory} {words base : Nat} {vs : List Word} (h : Memory.Inside words m)
    (hb : vs.length = 0 ∨ base + vs.length ≤ words) : Memory.Inside words (Memory.writeWords m base vs) := by
  intro c hc
  rcases Memory.mem_writeWords hc with ⟨h1, h2⟩ | h1
  · omega
  · exact h c h1

/-- `maxPeaks(n)` is floor((n - 1) / 2) (rule R140). -/
theorem maxPeaks_eq (n : Nat) : maxPeaks n = if n < 3 then 0 else (n - 1) / 2 := by
  unfold maxPeaks; split <;> omega

/-- The reach always spans `m` positions (rule R120). -/
theorem reach_span (m : Nat) (shift : Bool) : (reach m shift).1 + (reach m shift).2 = (m : Int) - 1 := by
  unfold reach
  by_cases h : m % 2 = 1 <;> cases shift <;> simp only [h, if_true, if_false, Bool.false_eq_true] <;> omega

/-- The reach is never below -1 on the left and never negative on the right (rule R120). -/
theorem reach_bounds (m : Nat) (shift : Bool) (hm : 1 ≤ m) :
    -1 ≤ (reach m shift).1 ∧ 0 ≤ (reach m shift).2 ∧ (shift = false → 0 ≤ (reach m shift).1) := by
  unfold reach
  by_cases h : m % 2 = 1 <;> cases shift <;> simp only [h, if_true, if_false, Bool.false_eq_true] <;>
    refine ⟨?_, ?_, ?_⟩ <;> first | omega | (intro _; omega) | (intro h; cases h)

/-- The register map of the four windows, for legal parameters (rules R20, R41 to R44). -/
theorem regAt_windows {p : Params} (h : p.wf = true) :
    (∀ k, k ≤ p.maxOrder →
      regAt p (BitVec.ofNat 11 (0x100 + k)) = .iirB k ∧ regAt p (BitVec.ofNat 11 (0x200 + k)) = .iirA k) ∧
    (∀ k, k < p.maxOrder →
      regAt p (BitVec.ofNat 11 (0x300 + k)) = .iirXH k ∧ regAt p (BitVec.ofNat 11 (0x400 + k)) = .iirYH k) := by
  have hm : p.maxOrder ≤ 255 := by simp [Params.wf] at h; omega
  have big : ∀ n, 0x100 ≤ n → n < 0x800 → regAt p (BitVec.ofNat 11 n) = windowAt p n := by
    intro n _ _
    have e : (BitVec.ofNat 11 n).toNat = n := by simp; omega
    unfold regAt
    rw [e]
    split <;> first | omega | rfl
  refine ⟨fun k hk => ⟨?_, ?_⟩, fun k hk => ⟨?_, ?_⟩⟩ <;> rw [big _ (by omega) (by omega)] <;> unfold windowAt
  · rw [if_pos (by omega)]; simp
  · rw [if_neg (by omega), if_pos (by omega)]; simp
  · rw [if_neg (by omega), if_neg (by omega), if_pos (by omega)]; simp
  · rw [if_neg (by omega), if_neg (by omega), if_neg (by omega), if_pos (by omega)]; simp

theorem fgt_iff (a b : Word) : fgt a b = true ↔ fisNaN a = false ∧ fisNaN b = false ∧ fkey b < fkey a := by
  simp [fgt, fordered, and_assoc]

theorem flt_iff (a b : Word) : flt a b = true ↔ fisNaN a = false ∧ fisNaN b = false ∧ fkey a < fkey b := by
  simp [flt, fordered, and_assoc]

theorem fle_iff (a b : Word) : fle a b = true ↔ fisNaN a = false ∧ fisNaN b = false ∧ fkey a ≤ fkey b := by
  simp [fle, fordered, and_assoc]

theorem feq_iff (a b : Word) : feq a b = true ↔ fisNaN a = false ∧ fisNaN b = false ∧ fkey a = fkey b := by
  simp [feq, fordered, and_assoc]

end Sys2Proof.Machine
end

