-- ==== Sys2Proof/Laws/PerInstr.lean ====
section
/-! SUPPORT. A statement for every constructor of Instr: its encoded word is the pattern of its own row of the opcode table under
that row's mask. -/

namespace Sys2Proof.Laws.TableRow

/-- The command is well-formed, and exactly the row of the opcode table with its mnemonic covers its encoded word. -/
def Statement (i : Instr) : Prop :=
  i.wf = true ∧ opcodeTable.filter (fun r => r.covers (encode i)) = opcodeTable.filter (fun r => r.mnemonic == mnemonicOf i)

theorem iirConfig : Statement .iirConfig := by unfold Statement; decide
theorem iirReset : Statement .iirReset := by unfold Statement; decide
theorem iirApply : Statement .iirApply := by unfold Statement; decide
theorem dilate (shift : Bool) : Statement (.dilate shift) := by unfold Statement; cases shift <;> decide
theorem erode (shift : Bool) : Statement (.erode shift) := by unfold Statement; cases shift <;> decide
theorem opening : Statement .opening := by unfold Statement; decide
theorem peaks : Statement .peaks := by unfold Statement; decide

end Sys2Proof.Laws.TableRow
end

