-- ==== Sys2Proof/Laws/Turn.lean ====
section
/-! SUPPORT. Whose turn it is, in the terms of the state's own fields. -/

namespace Sys2Proof.Machine

/-- The core's turn is a pending command whose delay has run out, or whose host has nothing left to do (rule R101). -/
theorem turn_core_iff (s : State) :
    turn s = .core ↔ s.status.busy = true ∧ (s.coreDelay = 0 ∨ nextStmt s = none) := by
  unfold turn
  split
  · rename_i h; cases hb : s.status.busy <;> simp [h]
  · rename_i h; cases hb : s.status.busy <;> simp [h]

end Sys2Proof.Machine
end

