-- ==== Sys2Proof/Machine/Script.lean ====
section
/-! DEFINITION. The host-script language: register names, basic statements (rules R87, R89) and pseudo-instructions (rule R88),
as the statements they stand for. A label is the index of its statement, so an expansion that holds a loop takes the index
`here` at which it starts; `f64(r)` is written as the pattern it stands for. -/

namespace Sys2Proof.Machine

/-- RIDX(CMD) and so on (rule R20). -/
def Ridx.cmd : RegIndex := 0x008#11
def Ridx.status : RegIndex := 0x009#11
def Ridx.errcode : RegIndex := 0x00A#11
def Ridx.hosterr : RegIndex := 0x00B#11
def Ridx.ctrl : RegIndex := 0x00C#11
def Ridx.srcBase : RegIndex := 0x010#11
def Ridx.srcLen : RegIndex := 0x011#11
def Ridx.dstBase : RegIndex := 0x012#11
def Ridx.dstLen : RegIndex := 0x013#11
def Ridx.winM : RegIndex := 0x014#11
def Ridx.pkMindist : RegIndex := 0x015#11
def Ridx.pkMinprom : RegIndex := 0x016#11
def Ridx.pkCount : RegIndex := 0x017#11
def Ridx.coefBBase : RegIndex := 0x018#11
def Ridx.coefBLen : RegIndex := 0x019#11
def Ridx.coefABase : RegIndex := 0x01A#11
def Ridx.coefALen : RegIndex := 0x01B#11
def Ridx.iirOrder : RegIndex := 0x01C#11

/-- `wr NAME, v` (rule R87). -/
def Script.wr (r : RegIndex) (v : Word) : HostStmt := .access (.regWrite r v)

/-- `rd NAME` (rule R87). -/
def Script.rd (r : RegIndex) : HostStmt := .access (.regRead r)

/-- `st a, v` (rule R87). -/
def Script.st (a : Nat) (v : Word) : HostStmt := .access (.memWrite a v)

/-- `ld a` (rule R87). -/
def Script.ld (a : Nat) : HostStmt := .access (.memRead a)

/-- `cmd MNEMONIC` (rule R87): the word of rule R85 written to CMD. -/
def Script.cmd (i : Instr) : HostStmt := Script.wr Ridx.cmd (encode i)

/-- `wait` (rule R88): poll STATUS until BUSY = 0. -/
def Script.wait (here : Nat) : HostStmt := .bnz Ridx.status 0 here

/-- `stv a, [v0, …, vk]` (rule R88). -/
def Script.stv (a : Nat) (vs : List Word) : List HostStmt :=
  (List.range vs.length).map (fun k => Script.st (a + k) (vs.getD k 0#64))

/-- `clrdone` (rule R88). -/
def Script.clrdone : HostStmt := Script.wr Ridx.status 0x2#64

/-- `cmd MNEMONIC; wait`, starting at statement `here`. -/
def Script.cmdWait (here : Nat) (i : Instr) : List HostStmt := [Script.cmd i, Script.wait (here + 1)]

/-- `iir_config bb, bl, ab, al` (rule R88). -/
def Script.iirConfig (here : Nat) (bb bl ab al : Word) : List HostStmt :=
  [Script.wr Ridx.coefBBase bb, Script.wr Ridx.coefBLen bl, Script.wr Ridx.coefABase ab, Script.wr Ridx.coefALen al] ++
  Script.cmdWait (here + 4) .iirConfig

/-- `iir_reset` (rule R88). -/
def Script.iirReset (here : Nat) : List HostStmt := Script.cmdWait here .iirReset

/-- The four region writes shared by the expansions of rule R88. -/
def Script.regions (s d n : Word) : List HostStmt :=
  [Script.wr Ridx.srcBase s, Script.wr Ridx.srcLen n, Script.wr Ridx.dstBase d, Script.wr Ridx.dstLen n]

/-- `iir_apply s, d, n` (rule R88). -/
def Script.iirApply (here : Nat) (s d n : Word) : List HostStmt :=
  Script.regions s d n ++ Script.cmdWait (here + 4) .iirApply

/-- `dilate`, `dilate.s`, `erode`, `erode.s` and `open s, d, n, m` (rule R88), by their command. -/
def Script.morph (here : Nat) (i : Instr) (s d n m : Word) : List HostStmt :=
  Script.regions s d n ++ [Script.wr Ridx.winM m] ++ Script.cmdWait (here + 5) i

/-- `peaks s, d, n, dist, prom` (rule R88). -/
def Script.peaks (here : Nat) (s d n dist prom : Word) : List HostStmt :=
  [Script.wr Ridx.srcBase s, Script.wr Ridx.srcLen n, Script.wr Ridx.dstBase d, Script.wr Ridx.pkMindist dist,
   Script.wr Ridx.pkMinprom prom] ++ Script.cmdWait (here + 5) .peaks

end Sys2Proof.Machine
end

