-- ==== Sys2Proof/Tests/Slice0.lean ====
section
/-! SUPPORT. Tests of the model on values taken from the spec (30_encoding.md rule R85, the vectors of 95_test_vectors.md), and
for every statement with hypotheses a concrete state and operands that meet them. -/

namespace Sys2Proof.Tests

open Sys2Proof.Machine

/-! ### Helpers -/

/-- The binary64 patterns of 0 to 9. -/
def num (k : Nat) : Word :=
  sampleAt
    [0x0000000000000000#64, 0x3FF0000000000000#64, 0x4000000000000000#64, 0x4008000000000000#64, 0x4010000000000000#64,
     0x4014000000000000#64, 0x4018000000000000#64, 0x401C000000000000#64, 0x4020000000000000#64, 0x4022000000000000#64] k

def negOne : Word := 0xBFF0000000000000#64
def posInf : Word := 0x7FF0000000000000#64
def someNaN : Word := 0x7FF8000000000001#64
def negZero : Word := 0x8000000000000000#64

/-- The operands of a command from `src` to `dst` over `n` words with window length `m`. -/
def operands (src n dst m : Nat) : Operands :=
  { Operands.reset with
    srcBase := BitVec.ofNat 32 src
    srcLen := BitVec.ofNat 32 n
    dstBase := BitVec.ofNat 32 dst
    dstLen := BitVec.ofNat 32 n
    winM := BitVec.ofNat 32 m }

/-- The reset state with operands, and `xs` in DMEM at the input base. -/
def loaded (o : Operands) (xs : List Word) : State :=
  { State.reset with ops := o, mem := Memory.writeWords [] o.srcBase.toNat xs }

/-- One step, which is a next state for every state of this machine. -/
def stepped (s : State) : State :=
  match step s with
  | .next t => t
  | .fault _ => s
  | .refused _ => s

/-- The state after the core step of the command word `w`. -/
def after (w : Nat) (s : State) : State := stepped (s.withFetchWord 64 w)

/-- ERRCODE after the command word `w` (as a number). -/
def errAfter (w : Nat) (s : State) : Nat := (errcodeWord (after w s)).toNat

/-- What the command word `w` leaves in `n` words at `dst`. -/
def outAfter (w dst n : Nat) (s : State) : List Word := Memory.readWords (after w s).mem dst n

/-- The signal of 95_test_vectors.md section 2.1, from word 10 to word 30. -/
def signalX : List Word := [3, 1, 4, 1, 5, 9, 2, 6].map num
def xState (m : Nat) : State := loaded (operands 10 8 30 m) signalX

/-- The running cumulative sum filter of 95_test_vectors.md section 1.1, Idle. -/
def sumFilter : Iir :=
  { cfg := true, run := false, order := 1,
    cb := [num 1, num 0, num 0, num 0, num 0], ca := [num 1, negOne, num 0, num 0, num 0],
    xh := [num 0, num 0, num 0, num 0], yh := [num 0, num 0, num 0, num 0] }

/-- The 4-tap moving sum of 95_test_vectors.md section 2.3, of order 3. -/
def tapFilter : Iir :=
  { cfg := true, run := false, order := 3,
    cb := [num 1, num 1, num 1, num 1, num 0], ca := [num 1, num 0, num 0, num 0, num 0],
    xh := [num 0, num 0, num 0, num 0], yh := [num 0, num 0, num 0, num 0] }

def filterState (e : Iir) (xs : List Word) : State := { loaded (operands 10 xs.length 30 0) xs with iir := e }

/-- Coefficients `b = [1, 0]` at word 20 and `a = [1, -1]` at word 24. -/
def coefState (bBase bLen aBase aLen : Nat) : State :=
  { State.reset with
    ops :=
      { Operands.reset with
        coefBBase := BitVec.ofNat 32 bBase
        coefBLen := BitVec.ofNat 32 bLen
        coefABase := BitVec.ofNat 32 aBase
        coefALen := BitVec.ofNat 32 aLen }
    mem := Memory.writeWords (Memory.writeWords [] 20 [num 1, num 0]) 24 [num 1, negOne] }

/-- A PEAKS command over `xs`. -/
def peakState (xs : List Word) (dist : Nat) (thr : Word) : State :=
  loaded { operands 10 xs.length 60 0 with pkMindist := BitVec.ofNat 32 dist, pkMinprom := thr } xs

/-- The state right after the issue of the command word `w`. -/
def pending (w : Nat) (s : State) : State := s.withFetchWord 64 w

/-- A host about to perform one statement. -/
def hosting (stmt : HostStmt) (s : State) : State := { s with host := { s.host with script := [stmt] } }

/-! ### Decoding: words written out from rules R80 and R85 -/

theorem test_decode_iir_config : decode (0#55 ++ 0#1 ++ 0x01#8) = some .iirConfig := by decide
theorem test_decode_iir_reset : decode (0#55 ++ 0#1 ++ 0x02#8) = some .iirReset := by decide
theorem test_decode_iir_apply : decode (0#55 ++ 0#1 ++ 0x03#8) = some .iirApply := by decide
theorem test_decode_dilate :
    decode (0#55 ++ 0#1 ++ 0x10#8) = some (.dilate false) ∧ decode (0#55 ++ 1#1 ++ 0x10#8) = some (.dilate true) := by decide
theorem test_decode_erode :
    decode (0#55 ++ 0#1 ++ 0x11#8) = some (.erode false) ∧ decode (0#55 ++ 1#1 ++ 0x11#8) = some (.erode true) := by decide
theorem test_decode_open : decode (0#55 ++ 0#1 ++ 0x12#8) = some .opening := by decide
theorem test_decode_peaks : decode (0#55 ++ 0#1 ++ 0x20#8) = some .peaks := by decide

/-- The ILLEGAL words of 95_test_vectors.md section 2.5, each with the class of rule R84. -/
theorem test_decode_illegal :
    decodeCommand 0x0000000000000000#64 = .error .reservedOpcode ∧ decodeCommand 0x0000000000000013#64 = .error .reservedOpcode ∧
    decodeCommand 0x00000000000000FF#64 = .error .reservedOpcode ∧ decodeCommand 0x0000000000000112#64 = .error .shiftNotAllowed ∧
    decodeCommand 0x0000000000000101#64 = .error .shiftNotAllowed ∧ decodeCommand 0x0000000000000120#64 = .error .shiftNotAllowed ∧
    decodeCommand 0x0000000000000210#64 = .error .reservedBits ∧ decodeCommand 0x8000000000000003#64 = .error .reservedBits := by
  refine ⟨?_, ?_, ?_, ?_, ?_, ?_, ?_, ?_⟩ <;> rfl

theorem test_decode_table_word : decodeTableWord 64 0x110 = some (.dilate true) ∧ decodeTableWord 8 0x110 = some (.dilate false) := by
  decide

/-! ### Well-formedness: the legal values of rule R4, and an ill-formed term for each check -/

theorem test_wf_bounds :
    Params.wf { dmemWords := 1, maxOrder := 1, maxWin := 1 } = true ∧
    Params.wf { dmemWords := 0x100000000, maxOrder := 255, maxWin := 0xFFFFFFFF } = true := by decide
theorem test_wf_refuses_no_dmem : Params.wf { dmemWords := 0, maxOrder := 4, maxWin := 16 } = false := by decide
theorem test_wf_refuses_large_dmem : Params.wf { dmemWords := 0x100000001, maxOrder := 4, maxWin := 16 } = false := by decide
theorem test_wf_refuses_order_zero : Params.wf { dmemWords := 128, maxOrder := 0, maxWin := 16 } = false := by decide
theorem test_wf_refuses_large_order : Params.wf { dmemWords := 128, maxOrder := 256, maxWin := 16 } = false := by decide
theorem test_wf_refuses_window_zero : Params.wf { dmemWords := 128, maxOrder := 4, maxWin := 0 } = false := by decide
theorem test_wf_refuses_large_window :
    Params.wf { dmemWords := 128, maxOrder := 4, maxWin := 0x100000000 } = false := by decide

/-! ### The commands: vectors of 95_test_vectors.md -/

/-- Section 2.1, m = 2, both alignments. -/
theorem test_dilate :
    outAfter 0x10 30 8 (xState 2) = [3, 3, 4, 4, 5, 9, 9, 6].map num ∧
    outAfter 0x110 30 8 (xState 2) = [3, 4, 4, 5, 9, 9, 6, 6].map num := by decide +kernel

/-- Section 2.1, corner case 'NaN inside': the NaN is passed over, and returned where it comes first. -/
theorem test_dilate_nan :
    outAfter 0x10 30 3 (loaded (operands 10 3 30 3) [num 1, someNaN, num 0]) = [num 1, num 1, someNaN] := by decide +kernel

/-- Section 2.1, m = 1 shifted and m = 4 unshifted. -/
theorem test_erode :
    outAfter 0x111 30 8 (xState 1) = [1, 4, 1, 5, 9, 2, 6, 6].map num ∧
    outAfter 0x11 30 8 (xState 4) = [1, 1, 1, 1, 1, 1, 2, 2].map num := by decide +kernel

/-- Section 2.1, the in-place row: all inputs are read before any output is written. -/
theorem test_erode_in_place :
    outAfter 0x11 10 8 (loaded (operands 10 8 10 3) ([3, 4, 4, 5, 9, 9, 6, 6].map num)) = [3, 3, 4, 4, 5, 6, 6, 6].map num := by
  decide +kernel

/-- Section 2.1, m = 2 (above its input at index 1) and m = 3 (padded). -/
theorem test_open :
    outAfter 0x12 30 8 (xState 2) = [3, 3, 1, 1, 1, 5, 5, 2].map num ∧
    outAfter 0x12 30 8 (xState 3) = [3, 1, 1, 1, 2, 2, 2, 6].map num := by decide +kernel

/-- Section 1.1: the configured engine. -/
theorem test_iir_config : (after 0x01 (coefState 20 2 24 2)).iir = sumFilter := by decide +kernel

/-- Rule R162's example. -/
theorem test_iir_reset :
    (after 0x02 { State.reset with
      iir := { sumFilter with run := true, xh := [num 3, num 0, num 0, num 0], yh := [num 6, num 0, num 0, num 0] } }).iir =
      sumFilter := by decide +kernel

/-- Section 1.1: the outputs and the history after them. -/
theorem test_iir_apply :
    outAfter 0x03 30 7 (filterState sumFilter ([1, 2, 3, 4, 5, 6, 7].map num)) =
      [0x3FF0000000000000#64, 0x4008000000000000#64, 0x4018000000000000#64, 0x4024000000000000#64, 0x402E000000000000#64,
       0x4035000000000000#64, 0x403C000000000000#64] ∧
    (after 0x03 (filterState sumFilter ([1, 2, 3, 4, 5, 6, 7].map num))).iir =
      { sumFilter with
        run := true
        xh := [num 7, num 0, num 0, num 0]
        yh := [0x403C000000000000#64, num 0, num 0, num 0] } := by decide +kernel

/-- Section 2.3: a call shorter than the order shifts the history by its own length. -/
theorem test_iir_apply_short :
    outAfter 0x03 30 1 (filterState { tapFilter with run := true, xh := [num 0, num 0, num 1, num 0], yh := [num 0, num 0, num 1, num 0] } [num 2]) =
      [num 3] ∧
    (after 0x03 (filterState { tapFilter with run := true, xh := [num 0, num 0, num 1, num 0], yh := [num 0, num 0, num 1, num 0] } [num 2])).iir =
      { tapFilter with run := true, xh := [num 0, num 1, num 2, num 0], yh := [num 0, num 1, num 3, num 0] } := by
  decide +kernel

/-- Section 1.2: the source's scenario. -/
theorem test_peaks :
    let s := after 0x20 (peakState
      ([0x3FE13497B7414A4D#64, 0x3FFD57A786C22681#64, 0xC0021205BC01A36E#64, 0x3FEB96E58A32F449#64, 0x3FD466BA493C89F4#64] ++
       [0xBFF4EC56D5CFAACE#64, 0xBFDBBFF04577D955#64, 0x3FD5ED7C6FBD273D#64, 0x400CA0902DE00D1B#64, 0x400627BB2FEC56D6#64] ++
       [0xBFF59930BE0DED29#64, 0x40084779A6B50B0F#64, 0x3FE7367A0F9096BC#64, 0xBFB0245F5AD96A6A#64, 0x3FE6DF266BA493C9#64] ++
       [0xBFCA3C74FB549F95#64, 0xBFBFC7A398201CD6#64, 0x3FF7D5CFAACD9E84#64, 0x3FF68B4395810625#64, 0x3FF6ACD9E83E425B#64])
      3 (num 2))
    Memory.readWords s.mem 60 2 = [3#64, 8#64] ∧ s.pkCount = 2#32 := by decide +kernel

/-- Section 2.4: a plateau with a distance of 5, and a prominence that takes index 0 in (decision D33). -/
theorem test_peaks_stages :
    peakIndices ([0, 2, 0, 0, 7, 7, 1, 0, 3, 8, 0, 0].map num) 5 0#64 = [1, 9] ∧
    peakIndices ([0, 1, 0, 1, 0].map num) 0 0x3FE0000000000000#64 = [1, 3] := by decide +kernel

/-! ### Error codes: the error vectors of sections 2.1, 2.3, 2.4 and 2.5, which meet every clause of rule R204 -/

theorem test_codes_morph :
    errAfter 0x10 (loaded (operands 10 3 20 3) []) = 0x1000 ∧
    errAfter 0x11 (loaded { operands 10 3 126 0 with dstLen := 4#32 } []) = 0x1101 ∧
    errAfter 0x12 (loaded (operands 10 3 126 0) []) = 0x1202 ∧
    errAfter 0x110 (loaded (operands 10 3 20 17) []) = 0x1003 ∧
    errAfter 0x10 (loaded (operands 10 3 20 16) []) = 0x1000 ∧
    errAfter 0x10 (loaded (operands 10 3 126 3) []) = 0x1005 ∧
    errAfter 0x10 (loaded (operands 10 3 125 3) []) = 0x1000 ∧
    errAfter 0x10 (loaded (operands 0xFFFFFFFF 3 20 3) []) = 0x1005 := by decide +kernel

theorem test_codes_iir :
    errAfter 0x03 State.reset = 0x306 ∧ errAfter 0x02 State.reset = 0x206 ∧
    errAfter 0x01 (coefState 20 0 24 2) = 0x102 ∧ errAfter 0x01 (coefState 20 1 24 1) = 0x102 ∧
    errAfter 0x01 (coefState 20 6 24 1) = 0x103 ∧ errAfter 0x01 (coefState 20 5 24 1) = 0x100 ∧
    errAfter 0x01 (coefState 127 2 0 2) = 0x105 ∧
    errAfter 0x03 { filterState sumFilter [num 1, num 2, num 3] with ops := { operands 10 3 20 0 with dstLen := 4#32 } } = 0x301 ∧
    errAfter 0x03 (filterState sumFilter []) = 0x302 ∧
    errAfter 0x03 { filterState sumFilter [num 1] with ops := operands 126 3 0 0 } = 0x305 ∧
    errAfter 0x02 (filterState sumFilter []) = 0x200 ∧ errAfter 0x03 (filterState sumFilter [num 1]) = 0x300 := by
  decide +kernel

/-- maxPeaks(20) = 9. The vector that gives DST_BASE = 119 the code 5 says '119 + 9 > 128', which is false: the rule governs
(log entry 7), so 119 passes and 120 fails. -/
theorem test_codes_peaks :
    errAfter 0x20 (loaded (operands 10 20 120 0) []) = 0x2005 ∧ errAfter 0x20 (loaded (operands 10 2 128 0) []) = 0x2000 ∧
    errAfter 0x20 (loaded (operands 109 20 10 0) []) = 0x2005 ∧
    errAfter 0x20 (loaded (operands 10 20 119 0) ((List.range 20).map (fun _ => num 1))) = 0x2000 := by decide +kernel

theorem test_codes_illegal :
    errAfter 0x0 State.reset = 0x4 ∧ errAfter 0x13 State.reset = 0x1304 ∧ errAfter 0x112 State.reset = 0x1204 ∧
    errAfter 0x8000000000000003 State.reset = 0x0304 := by decide +kernel

/-! ### The host's side: section 2.5 and the listing of program P3 -/

/-- Idle writes: WIN_M stores, an unmapped and a read-only index do not, CTRL enables the interrupt. -/
theorem test_host_writes_idle :
    (hostAccess (.regWrite Ridx.winM 0xF00000005#64) State.reset).ops.winM = 5#32 ∧
    hostAccess (.regWrite 0x005#11 7#64) State.reset = State.reset ∧
    hostAccess (.regWrite 0x000#11 7#64) State.reset = State.reset ∧
    (hostAccess (.regWrite Ridx.ctrl 1#64) State.reset).irqEn = true := by decide +kernel

/-- Writes in the BUSY window: refused with WR_BUSY or CMD_BUSY, and cleared by writing 3 to HOSTERR. -/
theorem test_host_writes_busy :
    (hostAccess (.regWrite Ridx.winM 5#64) (pending 0x10 State.reset)).hosterr = { wrBusy := true, cmdBusy := false } ∧
    (hostAccess (.memWrite 3 5#64) (pending 0x10 State.reset)).mem = [] ∧
    (hostAccess (.regWrite Ridx.cmd 5#64) (pending 0x10 State.reset)).hosterr = { wrBusy := false, cmdBusy := true } ∧
    (hostAccess (.regWrite Ridx.cmd 5#64) (pending 0x10 State.reset)).cmdLast = 0x10#64 ∧
    (hostAccess (.regWrite Ridx.hosterr 3#64) { State.reset with hosterr := { wrBusy := true, cmdBusy := true } }).hosterr =
      { wrBusy := false, cmdBusy := false } := by decide +kernel

/-- Rule R22: with BUSY = 0 a write to a read-only register, the last entry of each window among them, changes nothing. -/
theorem test_read_only_writes :
    [0x001#11, 0x00A#11, 0x017#11, 0x01C#11, 0x104#11, 0x204#11, 0x303#11, 0x403#11].all
      (fun r => decide (hostAccess (.regWrite r 7#64) (filterState tapFilter []) = filterState tapFilter [])) = true := by
  decide +kernel

/-- A host step makes its statement's access and goes on. -/
theorem test_host_step :
    (stepped (hosting (Script.wr Ridx.winM 5#64) State.reset)).ops.winM = 5#32 ∧
    (stepped (hosting (Script.wr Ridx.winM 5#64) State.reset)).host.pc = 1 ∧
    (stepped (hosting (Script.rd 0x000#11) State.reset)).host.replies = [0x4D50534300000001#64] := by decide +kernel

/-- STATUS: 0x1A after an IIR_APPLY, 0x18 once DONE is acknowledged, 0x06 after a failure unconfigured. -/
theorem test_status_values :
    regReadValue (after 0x03 (filterState sumFilter [num 1])) Ridx.status = 0x1A#64 ∧
    regReadValue (hostAccess (.regWrite Ridx.status 2#64) (after 0x03 (filterState sumFilter [num 1]))) Ridx.status = 0x18#64 ∧
    regReadValue (after 0x02 State.reset) Ridx.status = 0x06#64 ∧
    regReadValue (pending 0x10 (filterState sumFilter [])) Ridx.status = 0x09#64 := by decide +kernel

/-- Program P4: rows 17 to 19 and 42. -/
theorem test_engine_windows :
    regReadValue (filterState tapFilter []) Ridx.iirOrder = 3#64 ∧ regReadValue (filterState tapFilter []) 0x100#11 = num 1 ∧
    regReadValue (filterState tapFilter []) 0x201#11 = 0#64 ∧ regReadValue (filterState tapFilter []) 0x303#11 = 0#64 := by
  decide +kernel

/-- A soft reset keeps DMEM and clears IRQ_EN, whatever bit 0 is. -/
theorem test_soft_reset :
    hostAccess (.regWrite Ridx.ctrl 3#64) { xState 3 with irqEn := true, hosterr := { wrBusy := true, cmdBusy := false } } =
      { State.reset with mem := (xState 3).mem } := by decide +kernel

/-- Program P3, rows 41 and 42: a host statement in the window is performed before the core step when the delay says so. -/
theorem test_turns :
    turn (hosting (Script.wr Ridx.winM 5#64) (pending 0x10 State.reset)) = .core ∧
    turn { hosting (Script.wr Ridx.winM 5#64) (pending 0x10 State.reset) with coreDelay := 1 } =
      .host (Script.wr Ridx.winM 5#64) ∧
    turn State.reset = .idle := by decide +kernel

/-- Rule R88: `dilate s, d, n, m` is its five register writes, the command and the poll. -/
theorem test_script_dilate :
    Script.morph 7 (.dilate true) 10#64 20#64 3#64 5#64 =
      [.access (.regWrite 0x010#11 10#64), .access (.regWrite 0x011#11 3#64), .access (.regWrite 0x012#11 20#64),
       .access (.regWrite 0x013#11 3#64), .access (.regWrite 0x014#11 5#64), .access (.regWrite 0x008#11 0x110#64),
       .bnz 0x009#11 0 13] := by decide

/-! ### Arithmetic -/

/-- Section 2.3: 2^53 + 1 rounds to 2^53 (ties to even); and 1 + 2 = 3, 3 - 3 = +0, -1 * 0 = -0. -/
theorem test_float :
    fadd 0x4340000000000000#64 (num 1) = 0x4340000000000000#64 ∧ fadd (num 1) (num 2) = num 3 ∧
    fsub (num 3) (num 3) = 0#64 ∧ fmul negOne (num 0) = negZero := by decide +kernel

/-- The smallest subnormal halves to zero (a tie to even); the largest finite sample doubles to infinity; inf - inf is a NaN. -/
theorem test_float_edges :
    fmul 0x0000000000000001#64 0x3FE0000000000000#64 = 0#64 ∧
    fadd 0x7FEFFFFFFFFFFFFF#64 0x7FEFFFFFFFFFFFFF#64 = posInf ∧
    fadd posInf 0xFFF0000000000000#64 = nanResult .fadd posInf 0xFFF0000000000000#64 :=
  ⟨by decide +kernel, by decide +kernel, rfl⟩

/-! ### Witnesses: states and operands that meet the hypotheses of the statements -/

/-- IllegalWordsOnlyReport: an illegal word of each class, an idle and a pending state. -/
theorem test_witness_illegal :
    decode 0x200#64 = none ∧ decode 0x8000000000000003#64 = none ∧ decode 0xFF#64 = none ∧ decode 0x112#64 = none ∧
    State.reset.status.busy = false ∧ decode (pending 0x112 State.reset).cmdLast = none := by decide

/-- OpcodeTableDecidesDecode: a word that decodes and the row that covers it. -/
theorem test_witness_table :
    decode 0x110#64 = some (.dilate true) ∧ ∃ r ∈ opcodeTable, 0x110#64 &&& r.mask = r.pattern := by decide

/-- IssueStartsTheWindow, HostMemoryAccess, OperandRegistersKeepTheirBits, StatusAndControlBits: an idle and a pending state,
an address on each side of the end of DMEM, a byte
never written where others are, two operand registers, values with bit 1 set and clear. -/
theorem test_witness_idle_and_busy :
    (xState 3).status.busy = false ∧ (pending 0x10 (xState 3)).status.busy = true ∧
    127 < (xState 3).params.dmemWords ∧ (xState 3).params.dmemWords ≤ 128 ∧ Memory.get (xState 3).mem (8 * 127 + 7) = none ∧
    (0x016#11 : RegIndex) ∈ [0x010#11, 0x016#11] ∧ (0x017#11 : RegIndex) ≠ 0x016#11 ∧
    (0x2#64 : Word)[1] = true ∧ (0x1#64 : Word)[1] = false := by decide

/-- StepRunsTheDecodedCommand: a pending command whose turn has come, for either reason. -/
theorem test_witness_step_runs :
    (pending 0x20 State.reset).status.busy = true ∧ (pending 0x20 State.reset).coreDelay = 0 ∧
    nextStmt { pending 0x20 State.reset with coreDelay := 5 } = none ∧
    decode (pending 0x20 State.reset).cmdLast = some .peaks := by decide

/-- FailedCommandPerformsNothing: a command that fails, with DMEM as it is and with another DMEM. -/
theorem test_witness_failed :
    (∃ t, exec .iirReset State.reset = .next t ∧ t.status.err = true) ∧
    ∃ u, exec .iirReset { State.reset with mem := [(3, 7#8)] } = .next u :=
  ⟨⟨_, rfl, by decide⟩, ⟨_, rfl⟩⟩

/-- ErrorPriorityWithinOneCommand: its clauses at the edges of their ranges; the vectors above give the codes. Window lengths 16
and 17 = MAX_WIN + 1, orders 4 = MAX_ORDER and 5, regions that end at DMEM_WORDS and one past it, and an empty region past the
end. -/
theorem test_witness_error_edges :
    regionsOk (loaded (operands 10 3 125 16) []) ∧ ¬ regionsOk (loaded (operands 10 3 126 16) []) ∧
    regionsOk (loaded (operands 500 0 500 17) []) ∧ (loaded (operands 10 3 125 17) []).params.maxWin < 17 ∧
    max 5 1 - 1 ≤ State.reset.params.maxOrder ∧ State.reset.params.maxOrder < max 6 1 - 1 := by
  unfold regionsOk regionOk; decide

/-- PendingCommandLeavesTheWindow: a pending command with host steps before it. -/
theorem test_witness_pending : ({ pending 0x10 State.reset with coreDelay := 3 } : State).status.busy = true := by decide

/-- EndedRunStays: the reset state has no statement left. -/
theorem test_witness_ended : runEnded State.reset := by unfold runEnded; decide

/-- HostStatementsInProgramOrder: a statement of each kind at its turn, and one before a pending command's core step. -/
theorem test_witness_host_turn :
    turn (hosting (Script.rd Ridx.status) State.reset) = .host (Script.rd Ridx.status) ∧
    turn (hosting (Script.wait 0) State.reset) = .host (Script.wait 0) ∧
    turn { hosting (Script.rd Ridx.status) (pending 0x10 State.reset) with coreDelay := 1 } = .host (Script.rd Ridx.status) := by
  decide

/-- StepRunsThePendingWord: a pending ILLEGAL word, for either reason why its turn has come. -/
theorem test_witness_pending_illegal :
    (pending 0x112 State.reset).status.busy = true ∧ (pending 0x112 State.reset).coreDelay = 0 ∧
    ({ pending 0x112 State.reset with coreDelay := 5 } : State).host.script[0]? = none ∧
    decode (pending 0x112 State.reset).cmdLast = none := by decide

/-- DilateWritesWindowMaxima, ErodeWritesWindowMinima, OpenWritesPaddedOpening: a signal, an empty one, a region that ends at
DMEM_WORDS with the largest window. -/
theorem test_witness_morph :
    morphPasses (xState 3) ∧ morphPasses (loaded (operands 10 0 30 1) []) ∧ morphPasses (loaded (operands 10 3 125 16) []) := by
  unfold morphPasses regionsOk regionOk; decide

/-- ConfigLoadsTheFilter: orders 1 and MAX_ORDER. -/
theorem test_witness_config : configPasses (coefState 20 2 24 2) ∧ configPasses (coefState 20 5 24 1) := by
  unfold configPasses regionOk; decide

/-- ResetReturnsTheFilterToIdle: a constructed filter and none. -/
theorem test_witness_reset : (filterState sumFilter []).iir.cfg = true ∧ State.reset.iir.cfg = false := by decide

/-- The fields of the invariant of a state, as one decidable fact. -/
theorem inv_of_fields {s : State}
    (h : (s.params.wf = true ∧ Memory.wf s.mem ∧ s.mem.all (fun c => decide (c.1 < 8 * s.params.dmemWords)) = true ∧
        (s.status.busy = true → s.status.done = false ∧ s.status.err = false ∧ s.errcode = { code := .noError, opc := 0#8 }) ∧
        s.status.err = (s.errcode.code != .noError)) ∧
      (s.iir.cb.length = s.params.maxOrder + 1 ∧ s.iir.ca.length = s.params.maxOrder + 1 ∧
        s.iir.xh.length = s.params.maxOrder ∧ s.iir.yh.length = s.params.maxOrder ∧ s.iir.order ≤ s.params.maxOrder ∧
        (s.iir.cfg = true → 1 ≤ s.iir.order) ∧ (s.iir.cfg = false → s.iir = Iir.reset s.params)) ∧
      (s.iir.cb.drop (s.iir.order + 1)).all (fun v => v == 0#64) = true ∧
      (s.iir.ca.drop (s.iir.order + 1)).all (fun v => v == 0#64) = true ∧
      (s.iir.xh.drop s.iir.order).all (fun v => v == 0#64) = true ∧
      (s.iir.yh.drop s.iir.order).all (fun v => v == 0#64) = true ∧
      (s.iir.run = false →
        s.iir.xh = List.replicate s.params.maxOrder 0#64 ∧ s.iir.yh = List.replicate s.params.maxOrder 0#64)) : s.Inv := by
  obtain ⟨⟨a, b, c, d, e⟩, ⟨f1, f2, f3, f4, f5, f6, f7⟩, g1, g2, g3, g4, g5⟩ := h
  simp only [List.all_eq_true, beq_iff_eq, decide_eq_true_eq] at c g1 g2 g3 g4
  exact ⟨a, b, c, d, e, ⟨f1, f2, f3, f4, f5, f6, f7, g1, g2, g3, g4, g5⟩⟩

/-- A state with a filter and a signal in DMEM meets the invariant. -/
theorem test_witness_invariant : (filterState tapFilter [num 1, num 2]).Inv := inv_of_fields (by decide +kernel)

/-- The same with a command pending, for the statements about the BUSY window. -/
theorem test_witness_invariant_busy : (pending 0x03 (filterState tapFilter [num 1, num 2])).Inv :=
  inv_of_fields (by decide +kernel)

/-- ApplyFiltersTheBlock: calls of length 2 < L and 1, and the state meets the invariant (above). -/
theorem test_witness_apply :
    applyPasses (filterState tapFilter [num 1, num 2]) ∧ applyPasses (filterState sumFilter [num 1]) := by
  unfold applyPasses regionsOk regionOk; decide

/-- PeaksWritesTheIndices: lengths 2 and 3, each side of the short-input rule. -/
theorem test_witness_peaks :
    peaksPasses (peakState [num 0, num 1] 0 0#64) ∧ peaksPasses (peakState [num 0, num 5, num 1] 3 (num 1)) := by
  unfold peaksPasses regionOk; decide

/-- IdleAndRunningTransitions, CommandsStayInTheirWriteSet: each command completes. -/
theorem test_witness_completes :
    (∃ t, exec .iirConfig (coefState 20 2 24 2) = .next t) ∧ (∃ t, exec .iirReset (filterState sumFilter []) = .next t) ∧
    (∃ t, exec .iirApply (filterState sumFilter [num 1]) = .next t) ∧ (∃ t, exec (.dilate true) (xState 3) = .next t) ∧
    (∃ t, exec (.erode false) (xState 3) = .next t) ∧ (∃ t, exec .opening (xState 3) = .next t) ∧
    ∃ t, exec .peaks (xState 3) = .next t :=
  ⟨⟨_, rfl⟩, ⟨_, rfl⟩, ⟨_, rfl⟩, ⟨_, rfl⟩, ⟨_, rfl⟩, ⟨_, rfl⟩, ⟨_, rfl⟩⟩

/-- CommandsStayInTheirWriteSet: a pending command, and words just outside and just inside its write set. -/
theorem test_witness_write_set :
    let s := pending 0x10 (xState 3)
    decode s.cmdLast = some (.dilate false) ∧ inWriteSet s 29 = false ∧ inWriteSet s 30 = true ∧ inWriteSet s 37 = true ∧
    inWriteSet s 38 = false ∧ ∃ t, exec (.dilate false) s = .next t :=
  ⟨by decide, by decide, by decide, by decide, by decide, _, rfl⟩

/-- OutputDependsOnlyOnOperands: the same signal and operands, to two places, one of them in place. -/
theorem test_witness_same_operands :
    let s := xState 3
    let s' : State := { xState 3 with ops := { (xState 3).ops with dstBase := 10#32 } }
    s.ops.srcLen = s'.ops.srcLen ∧ inputSignal s = inputSignal s' ∧ s.ops.winM = s'.ops.winM ∧
    (∃ t, exec (.dilate false) s = .next t ∧ t.status.err = false) ∧
    ∃ t', exec (.dilate false) s' = .next t' ∧ t'.status.err = false :=
  ⟨rfl, rfl, rfl, ⟨_, rfl, by decide⟩, _, rfl, by decide⟩

/-- WindowsAreNeverEmpty: a signal of one sample, the last position, and the reach -1. -/
theorem test_witness_windows : 1 ≤ 8 ∧ 7 < 8 ∧ (reach 1 true).1 = -1 ∧ windowBounds 8 1 true 7 = (7, 7) ∧
    windowBounds 1 1 true 0 = (0, 0) := by decide

/-- The morphology rules over NaN-free signals (ErosionBelowInputBelowDilation, OddOpeningNeverExceedsInput,
ClosingIsAboveOpening), and a window that holds no NaN in a signal that holds one. -/
theorem test_witness_nan_free :
    (∀ v ∈ signalX, fisNaN v = false) ∧ 7 < signalX.length ∧ 3 % 2 = 1 ∧
    (∀ v ∈ window [num 1, num 2, someNaN] 1 false 1, fisNaN v = false) := by
  have h : signalX.all (fun v => !fisNaN v) = true := by decide +kernel
  have h' : (window [num 1, num 2, someNaN] 1 false 1).all (fun v => !fisNaN v) = true := by decide +kernel
  simp only [List.all_eq_true, Bool.not_eq_true'] at h h'
  exact ⟨h, by decide, by decide, h'⟩

/-- ComparisonsAreQuietAndExact, ArithmeticOnInfinitiesAndNaNs, ArithmeticRoundsOnceToNearestEven: samples of every kind. -/
theorem test_witness_samples :
    fisNaN someNaN = true ∧ fisInf posInf = true ∧ fisInf 0xFFF0000000000000#64 = true ∧
    fsign posInf ≠ fsign 0xFFF0000000000000#64 ∧ isFinite (num 1) = true ∧ isFinite negZero = true ∧ fexact negZero = 0 ∧
    fexact (num 1) ≠ 0 ∧ fexact (num 1) + fexact negOne = 0 ∧ fexact (num 1) - fexact negOne ≠ 0 ∧
    fexact (num 1) + fexact (num 2) ≠ 0 ∧ fexact (num 1) - fexact (num 1) = 0 := by decide +kernel

/-- FoldsReturnTheFirstExtreme: a leading NaN, and none with one further on. -/
theorem test_witness_folds :
    fisNaN someNaN = true ∧ foldMax [someNaN, num 1] = someNaN ∧ fisNaN (num 1) = false ∧
    foldMax [num 1, someNaN, num 2] = num 2 ∧ foldMin [negZero, num 0] = negZero := by decide

/-- ProminenceUsesNearestTallerCandidates, ProminenceIsPositive, StageBKeepsTheProminent, StageCSpacesByHeight: a signal with
three candidates, the middle one the tallest, and an enabled threshold. -/
theorem test_witness_candidates :
    stageA ([0, 3, 0, 5, 0, 4, 0].map num) = [1, 3, 5] ∧ 2 < (stageA ([0, 3, 0, 5, 0, 4, 0].map num)).length ∧
    fgt (num 1) 0#64 = true ∧ [1, 3, 5].Pairwise (fun p q => p < q) ∧
    (∀ p ∈ [1, 3, 5], fisNaN (sampleAt ([0, 3, 0, 5, 0, 4, 0].map num) p) = false) ∧
    stageC ([0, 3, 0, 5, 0, 4, 0].map num) [1, 3, 5] 2 = [3] := by decide +kernel

/-- FilteringIsContinuousAcrossCalls: one call over [1, 2], and the same as two calls, the first shorter than the order. -/
theorem test_witness_continuity :
    let s := filterState tapFilter [num 1, num 2]
    let s1 := filterState tapFilter [num 1]
    ∃ t t1 t2 : State, exec .iirApply s = .next t ∧ exec .iirApply s1 = .next t1 ∧
      exec .iirApply { filterState tapFilter [num 2] with iir := t1.iir } = .next t2 ∧
      inputSignal s = inputSignal s1 ++ inputSignal { filterState tapFilter [num 2] with iir := t1.iir } ∧
      t.status.err = false ∧ t1.status.err = false ∧ t2.status.err = false :=
  ⟨_, _, _, rfl, rfl, rfl, by decide +kernel, by decide, by decide, by decide⟩

/-- ResetEqualsFreshConfiguration: the sum filter, reset from Running and configured afresh, over the same signal. -/
theorem test_witness_reset_equivalence :
    let s := filterState { sumFilter with run := true, xh := [num 3, num 0, num 0, num 0] } [num 1]
    let t := after 0x02 s
    let c := coefState 20 2 24 2
    let u := after 0x01 c
    let s' : State := { filterState sumFilter [num 1] with iir := t.iir }
    let c' : State := { filterState sumFilter [num 1] with iir := u.iir }
    s.params = c.params ∧ t.status.err = false ∧ u.status.err = false ∧ u.iir.cb = s.iir.cb ∧ u.iir.ca = s.iir.ca ∧
    u.iir.order = s.iir.order ∧ inputSignal s' = inputSignal c' ∧ (after 0x03 s').status.err = false ∧
    (after 0x03 c').status.err = false := by decide +kernel

/-- An index meets the hypotheses of UnmappedIndicesReadZero at State.reset (MAX_ORDER = 4). -/
def isUnmapped (r : Nat) : Bool :=
  !([0, 1, 2, 3, 8, 9, 0xA, 0xB, 0xC].contains r) && !(decide (0x10 ≤ r) && decide (r ≤ 0x1C)) &&
  !(decide (0x100 ≤ r) && decide (r ≤ 0x104)) && !(decide (0x200 ≤ r) && decide (r ≤ 0x204)) &&
  !(decide (0x300 ≤ r) && decide (r < 0x304)) && !(decide (0x400 ≤ r) && decide (r < 0x404))

/-- UnmappedIndicesReadZero: an index in no window, the index after each window's last, and the highest index. -/
theorem test_witness_unmapped :
    State.reset.params.wf = true ∧ State.reset.params.maxOrder = 4 ∧
    [0x004, 0x01D, 0x105, 0x205, 0x304, 0x404, 0x7FF].all isUnmapped = true := by decide

/-- ReadOnlyRegisterValues: an idle state (the invariant holds of it, above), and the last entry of each window. -/
theorem test_witness_read_only :
    (filterState tapFilter [num 1, num 2]).status.busy = false ∧ 4 ≤ (filterState tapFilter []).params.maxOrder ∧
    3 < (filterState tapFilter []).params.maxOrder := by decide

/-- HostWritesDuringTheWindow: a pending command, and a register that is none of the four. -/
theorem test_witness_busy_writes :
    (pending 0x20 State.reset).status.busy = true ∧
    (0x7FF#11 : RegIndex) ∉ [0x008#11, 0x009#11, 0x00B#11, 0x00C#11] := by decide

/-- HostReadsDuringTheWindow: an IIR_APPLY pending (the invariant holds, above), its write set's first and last words, the words
around it, and the words a PEAKS over 3 samples may write. -/
theorem test_witness_busy_reads :
    let s := pending 0x03 (filterState tapFilter [num 1, num 2])
    let p := pending 0x20 (peakState [num 0, num 1, num 0] 0 0#64)
    s.status.busy = true ∧ decode s.cmdLast = some .iirApply ∧ s.ops.dstBase.toNat = 30 ∧ s.ops.dstLen.toNat = 2 ∧
    inWriteSet s 29 = false ∧ inWriteSet s 30 = true ∧ inWriteSet s 31 = true ∧ inWriteSet s 32 = false ∧
    decode p.cmdLast = some .peaks ∧ inWriteSet p 60 = true ∧ inWriteSet p 61 = false := by decide

/-- HostReadsDuringTheWindow: a pending command whose region runs past the end of DMEM: the last word below DMEM_WORDS, and the
first at it, which is outside the write set and reads 0. -/
theorem test_witness_busy_past_end :
    let s := pending 0x10 (loaded (operands 10 4 126 3) [])
    s.status.busy = true ∧ s.ops.dstBase.toNat ≤ 128 ∧ 128 < s.ops.dstBase.toNat + s.ops.dstLen.toNat ∧
    s.params.dmemWords ≤ 128 ∧ inWriteSet s 127 = true ∧ inWriteSet s 128 = false ∧ memReadValue s 128 = 0#64 := by decide

/-- HostReadsDuringTheWindow: the commands its clauses about registers name, each pending. -/
theorem test_witness_busy_commands :
    decode (pending 0x01 State.reset).cmdLast = some .iirConfig ∧ decode (pending 0x02 State.reset).cmdLast = some .iirReset ∧
    decode (pending 0x12 State.reset).cmdLast = some .opening ∧ decode (pending 0x12 State.reset).cmdLast ≠ some .iirConfig := by
  decide

/-- PowerOnResetState, InvariantHoldsAtReset: legal parameters other than those of State.reset. -/
theorem test_witness_params : Params.wf { dmemWords := 1, maxOrder := 255, maxWin := 1 } = true := by decide

/-- SoftResetState: a command pending, the last word of its write set, and a value with bit 1 set. -/
theorem test_witness_soft_reset :
    let s := pending 0x10 (xState 3)
    (0x2#64 : Word)[1] = true ∧ s.status.busy = true ∧ s.ops.dstBase.toNat + 7 < s.params.dmemWords ∧
    7 < writeSetLength s.ops (decode s.cmdLast) ∧ inWriteSet s 38 = false := by decide

/-- StepKeepsTheInvariant: a step from a state that meets the invariant (above). -/
theorem test_witness_step : ∃ t, step (pending 0x03 (filterState tapFilter [num 1, num 2])) = .next t := ⟨_, rfl⟩

/-- WindowFreezesTheOperands: a statement that leaves the window open, and the soft reset that closes it. -/
theorem test_witness_window :
    (pending 0x10 (xState 3)).status.busy = true ∧
    (hostTurn (Script.wr Ridx.winM 5#64) (pending 0x10 (xState 3))).status.busy = true ∧
    (hostTurn (Script.wr Ridx.ctrl 2#64) (pending 0x10 (xState 3))).status.busy = false := by decide

/-- OnlyCompletionOrUnmaskingRaisesIrq: IRQ rises at a core step, and when the host unmasks it. -/
theorem test_witness_irq :
    let s := pending 0x02 { State.reset with irqEn := true }
    let m := hosting (Script.wr Ridx.ctrl 1#64) (after 0x02 State.reset)
    irq s = false ∧ irq (stepped s) = true ∧ irq m = false ∧ irq (stepped m) = true ∧
    (∃ t, step s = .next t) ∧ ∃ t, step m = .next t :=
  ⟨by decide, by decide, by decide, by decide, ⟨_, rfl⟩, _, rfl⟩

/-- OnlyIirCommandsTouchTheEngine, WhatOpensAndClosesTheWindow: the three kinds of step that do something. -/
theorem test_witness_window_edges :
    let o := hosting (Script.cmd .peaks) State.reset
    let c := pending 0x01 (coefState 20 2 24 2)
    let r := hosting (Script.wr Ridx.ctrl 2#64) { pending 0x10 (filterState sumFilter []) with coreDelay := 1 }
    o.status.busy = false ∧ (stepped o).status.busy = true ∧ c.status.busy = true ∧ (stepped c).status.busy = false ∧
    (stepped c).iir ≠ c.iir ∧ r.status.busy = true ∧ (stepped r).status.busy = false ∧ (stepped r).iir ≠ r.iir := by
  decide +kernel

end Sys2Proof.Tests
end

section
/-! Samples as sign and magnitude pattern: what the fields, the classes and the packing of a sample say of `fsign` and
`fbits63` (rule R5). -/

namespace Sys2Proof.Machine

theorem fbits63_eq (w : Word) : fbits63 w = w.toNat % 2 ^ 63 := by simp [fbits63]

theorem fbits63_lt (w : Word) : fbits63 w < 2 ^ 63 := (w.extractLsb' 0 63).isLt

theorem fexp_eq (w : Word) : fexp w = fbits63 w / 2 ^ 52 := by
  simp only [fexp, fbits63_eq, BitVec.extractLsb'_toNat, Nat.shiftRight_eq_div_pow]
  omega

theorem ffrac_eq (w : Word) : ffrac w = fbits63 w % 2 ^ 52 := by
  simp only [ffrac, fbits63_eq, BitVec.extractLsb'_toNat, Nat.shiftRight_zero]
  omega

theorem infBits_eq : infBits = 2047 * 2 ^ 52 := rfl

theorem fisNaN_iff (w : Word) : fisNaN w = true ↔ infBits < fbits63 w := by
  have := fbits63_lt w
  simp only [fisNaN, Bool.and_eq_true, beq_iff_eq, bne_iff_ne, fexp_eq, ffrac_eq, infBits_eq]
  omega

theorem fisInf_iff (w : Word) : fisInf w = true ↔ fbits63 w = infBits := by
  have := fbits63_lt w
  simp only [fisInf, Bool.and_eq_true, beq_iff_eq, fexp_eq, ffrac_eq, infBits_eq]
  omega

theorem isFinite_iff (w : Word) : isFinite w = true ↔ fbits63 w < infBits := by
  have := fbits63_lt w
  simp only [isFinite, bne_iff_ne, fexp_eq, infBits_eq]
  omega

theorem fisNaN_of_isFinite {w : Word} (h : isFinite w = true) : fisNaN w = false := by
  rw [isFinite_iff] at h
  rw [← Bool.not_eq_true, fisNaN_iff]
  omega

theorem fisInf_of_isFinite {w : Word} (h : isFinite w = true) : fisInf w = false := by
  rw [isFinite_iff] at h
  rw [← Bool.not_eq_true, fisInf_iff]
  omega

theorem fisNaN_of_fisInf {w : Word} (h : fisInf w = true) : fisNaN w = false := by
  rw [fisInf_iff] at h
  rw [← Bool.not_eq_true, fisNaN_iff]
  omega

@[simp] theorem fsign_fpack (s : Bool) (low : Nat) : fsign (fpack s low) = s := by
  have h : (BitVec.ofBool s ++ BitVec.ofNat 63 low)[63] = s := by
    rw [BitVec.getElem_append]
    cases s <;> rfl
  exact h

theorem fbits63_fpack (s : Bool) {low : Nat} (h : low < 2 ^ 63) : fbits63 (fpack s low) = low := by
  rw [fbits63, fpack, BitVec.extractLsb'_append_eq_right, BitVec.toNat_ofNat, Nat.mod_eq_of_lt h]

@[simp] theorem fsign_fneg (w : Word) : fsign (fneg w) = !fsign w := by
  simp [fsign, fneg]

@[simp] theorem fbits63_fneg (w : Word) : fbits63 (fneg w) = fbits63 w := by
  have h : (0x8000000000000000#64).extractLsb' 0 63 = 0#63 := rfl
  rw [fbits63, fneg, BitVec.extractLsb'_xor, h, BitVec.xor_zero, fbits63]

@[simp] theorem fisNaN_fneg (w : Word) : fisNaN (fneg w) = fisNaN w := by
  rw [Bool.eq_iff_iff, fisNaN_iff, fisNaN_iff, fbits63_fneg]

@[simp] theorem fisInf_fneg (w : Word) : fisInf (fneg w) = fisInf w := by
  rw [Bool.eq_iff_iff, fisInf_iff, fisInf_iff, fbits63_fneg]

@[simp] theorem isFinite_fneg (w : Word) : isFinite (fneg w) = isFinite w := by
  rw [Bool.eq_iff_iff, isFinite_iff, isFinite_iff, fbits63_fneg]

/-! The magnitude that a pattern without its sign encodes. -/

/-- The magnitude of the finite sample with bits [62:0] `p`, in units of 2^-1074, as `fmag` has it, carried on to every number
`p` as the binary64 format would go on with more exponents: the pattern of infinity encodes 2^1024. -/
def magOf (p : Nat) : Nat := if p / 2 ^ 52 = 0 then p % 2 ^ 52 else (2 ^ 52 + p % 2 ^ 52) * 2 ^ (p / 2 ^ 52 - 1)

theorem fmag_eq (w : Word) : fmag w = magOf (fbits63 w) := by
  simp only [fmag, magOf, fexp_eq, ffrac_eq, Nat.shiftLeft_eq, Nat.one_mul]

theorem fmag_fpack (s : Bool) {low : Nat} (h : low < infBits) : fmag (fpack s low) = magOf low := by
  rw [fmag_eq, fbits63_fpack]
  rw [infBits_eq] at h
  omega

@[simp] theorem fmag_fneg (w : Word) : fmag (fneg w) = fmag w := by simp [fmag_eq]

theorem magOf_zero : magOf 0 = 0 := rfl

/-- The significand `q` at exponent step `k`; `q = 2^53` is the carry into the next step, which the pattern's addition makes. -/
theorem magOf_step_add (k q : Nat) (hq : q ≤ 2 ^ 53) (hk : k = 0 ∨ 2 ^ 52 ≤ q) : magOf (k * 2 ^ 52 + q) = q * 2 ^ k := by
  unfold magOf
  rcases Nat.lt_or_ge q (2 ^ 52) with h | h
  · have h0 : k = 0 := by omega
    subst h0
    rw [if_pos (by omega)]
    omega
  · rw [if_neg (by omega)]
    rcases Nat.lt_or_ge q (2 ^ 53) with h' | h'
    · congr 1
      · omega
      · congr 1; omega
    · have hexp : (k * 2 ^ 52 + q) / 2 ^ 52 - 1 = k + 1 := by omega
      have hfrac : (k * 2 ^ 52 + q) % 2 ^ 52 = 0 := by omega
      have hcarry : q = 2 ^ 53 := by omega
      rw [hexp, hfrac, hcarry, Nat.add_zero, ← Nat.pow_add, ← Nat.pow_add]
      congr 1; omega

/-- Every pattern is a significand at an exponent step, normal from step 1 up. -/
theorem exists_step_add (p : Nat) : ∃ k q, q < 2 ^ 53 ∧ (k = 0 ∨ 2 ^ 52 ≤ q) ∧ p = k * 2 ^ 52 + q :=
  ⟨p / 2 ^ 52 - 1, p - (p / 2 ^ 52 - 1) * 2 ^ 52, by omega, by omega, by omega⟩

/-- Patterns are ordered as the magnitudes they encode. -/
theorem magOf_strictMono : StrictMono magOf := by
  refine strictMono_nat_of_lt_succ fun p => ?_
  obtain ⟨k, q, hq, hk, rfl⟩ := exists_step_add p
  rw [Nat.add_assoc, magOf_step_add k q hq.le hk, magOf_step_add k (q + 1) hq (by omega)]
  exact Nat.mul_lt_mul_of_pos_right q.lt_succ_self (Nat.two_pow_pos k)

theorem fmag_eq_zero_iff (w : Word) : fmag w = 0 ↔ fbits63 w = 0 := by
  rw [fmag_eq, ← magOf_zero, magOf_strictMono.injective.eq_iff, magOf_zero]

theorem fmag_ne_zero_of_fisInf {w : Word} (h : fisInf w = true) : fmag w ≠ 0 := by
  rw [fisInf_iff] at h
  rw [Ne, fmag_eq_zero_iff, h, infBits_eq]
  omega

@[simp] theorem fexact_fneg (w : Word) : fexact (fneg w) = -fexact w := by
  cases h : fsign w <;> simp [fexact, h]

theorem fexact_eq_zero_iff (w : Word) : fexact w = 0 ↔ fmag w = 0 := by
  cases h : fsign w <;> simp [fexact, h]

end Sys2Proof.Machine
end

section
/-! The comparisons (rule R7): on patterns, on exact values, and with an infinity. -/

namespace Sys2Proof.Machine

/-- The keys the comparisons compare are ordered as the exact values. -/
theorem fexact_lt_iff (a b : Word) : fexact a < fexact b ↔ fkey a < fkey b := by
  have hab := magOf_strictMono.lt_iff_lt (a := fbits63 a) (b := fbits63 b)
  have hba := magOf_strictMono.lt_iff_lt (a := fbits63 b) (b := fbits63 a)
  have ha := fmag_eq_zero_iff a
  have hb := fmag_eq_zero_iff b
  rw [← fmag_eq, ← fmag_eq] at hab hba
  cases hsa : fsign a <;> cases hsb : fsign b <;>
    simp only [fexact, fkey, hsa, hsb, if_true, if_false, Bool.false_eq_true] <;> omega

theorem fexact_le_iff (a b : Word) : fexact a ≤ fexact b ↔ fkey a ≤ fkey b := by
  rw [← not_lt, fexact_lt_iff, not_lt]

theorem fexact_eq_iff (a b : Word) : fexact a = fexact b ↔ fkey a = fkey b := by
  rw [le_antisymm_iff, fexact_le_iff, fexact_le_iff, ← le_antisymm_iff]

/-- An infinity lies beyond every finite sample and beyond the other infinity. -/
theorem fkey_beyond_of_fisInf {a b : Word} (ha : fisInf a = true)
    (hab : isFinite b = true ∨ fsign b ≠ fsign a) : if fsign a = true then fkey a < fkey b else fkey b < fkey a := by
  have hinf : 0 < infBits := by decide
  rw [fisInf_iff] at ha
  rw [isFinite_iff] at hab
  cases hsa : fsign a <;> cases hsb : fsign b <;> simp [fkey, hsa, hsb] at hab ⊢ <;> omega

/-- Infinities of one sign are the same sample. -/
theorem fkey_eq_of_fisInf {a b : Word} (ha : fisInf a = true) (hb : fisInf b = true) (hs : fsign a = fsign b) :
    fkey a = fkey b := by
  rw [fisInf_iff] at ha hb
  rw [fkey, fkey, ha, hb, hs]

theorem comparisons_eq_of_not_nan {a b : Word} (ha : fisNaN a = false) (hb : fisNaN b = false) :
    fgt a b = decide (fkey b < fkey a) ∧ flt a b = decide (fkey a < fkey b) ∧ fle a b = decide (fkey a ≤ fkey b) ∧
    feq a b = decide (fkey a = fkey b) := by
  simp [fgt, flt, fle, feq, fordered, ha, hb]

theorem comparisons_false_of_nan {a b : Word} (h : fisNaN a = true ∨ fisNaN b = true) :
    fgt a b = false ∧ flt a b = false ∧ fle a b = false ∧ feq a b = false := by
  have ho : fordered a b = false := by rcases h with h | h <;> simp [fordered, h]
  simp [fgt, flt, fle, feq, ho]

theorem comparisons_exact_of_isFinite {a b : Word} (ha : isFinite a = true) (hb : isFinite b = true) :
    (fgt a b = true ↔ fexact b < fexact a) ∧ (flt a b = true ↔ fexact a < fexact b) ∧
    (fle a b = true ↔ fexact a ≤ fexact b) ∧ (feq a b = true ↔ fexact a = fexact b) := by
  simp [fgt_iff, flt_iff, fle_iff, feq_iff, fisNaN_of_isFinite ha, fisNaN_of_isFinite hb, fexact_lt_iff, fexact_le_iff,
    fexact_eq_iff]

theorem comparisons_of_fisInf {a b : Word} (ha : fisInf a = true) (hb : fisNaN b = false)
    (hab : isFinite b = true ∨ fsign b ≠ fsign a) :
    fgt a b = !fsign a ∧ flt a b = fsign a ∧ fle a b = fsign a ∧ feq a b = false ∧
    fgt b a = fsign a ∧ flt b a = !fsign a ∧ fle b a = !fsign a ∧ feq b a = false := by
  have hbeyond := fkey_beyond_of_fisInf ha hab
  obtain ⟨h1, h2, h3, h4⟩ := comparisons_eq_of_not_nan (fisNaN_of_fisInf ha) hb
  obtain ⟨h5, h6, h7, h8⟩ := comparisons_eq_of_not_nan hb (fisNaN_of_fisInf ha)
  rw [h1, h2, h3, h4, h5, h6, h7, h8]
  cases hs : fsign a
  all_goals
    simp only [hs, if_true, if_false, Bool.false_eq_true] at hbeyond
    simp
    omega

theorem comparisons_of_equal_infinities {a b : Word} (ha : fisInf a = true) (hb : fisInf b = true)
    (hs : fsign a = fsign b) : fgt a b = false ∧ flt a b = false ∧ fle a b = true ∧ feq a b = true := by
  have hkey := fkey_eq_of_fisInf ha hb hs
  simpa [hkey] using comparisons_eq_of_not_nan (fisNaN_of_fisInf ha) (fisNaN_of_fisInf hb)

/-- Settles O29: the keys are ordered as the exact values (`fexact_lt_iff`), and an infinity's key lies beyond the others. -/
theorem comparisonsAreQuietAndExact : Obligations.ComparisonsAreQuietAndExact :=
  ⟨fun _ _ => comparisons_false_of_nan, fun _ _ => rfl, by decide, fun _ _ => comparisons_exact_of_isFinite,
    fun _ _ => comparisons_of_fisInf, fun _ _ => comparisons_of_equal_infinities⟩

end Sys2Proof.Machine
end

section
/-! The arithmetic primitives (rule R6) by kind of operand: NaNs, infinities, finite samples. -/

namespace Sys2Proof.Machine

theorem nanResult_quiet (op : FloatOp) (a b : Word) :
    fisNaN (nanResult op a b) = true ∧ (nanResult op a b)[51] = true := by
  have hexp : (nanResult op a b).extractLsb' 52 11 = BitVec.allOnes 11 := by
    have h : (0x7FF8000000000000#64).extractLsb' 52 11 = BitVec.allOnes 11 := rfl
    rw [nanResult, BitVec.extractLsb'_or, h, BitVec.or_allOnes]
  have hquiet : (nanResult op a b)[51] = true := by simp [nanResult]
  have hfrac : ffrac (nanResult op a b) ≠ 0 := by
    intro h
    have hzero : (nanResult op a b).extractLsb' 0 52 = 0#52 := BitVec.eq_of_toNat_eq h
    have hbit := congrArg (fun v : BitVec 52 => v[51]) hzero
    simp [hquiet] at hbit
  refine ⟨?_, hquiet⟩
  simp [fisNaN, fexp, hexp, hfrac]

section OperandKinds

variable {nan a c : Word}

theorem faddWith_of_nan (h : fisNaN a = true ∨ fisNaN c = true) : faddWith nan a c = nan := by
  rw [faddWith, if_pos (by simpa using h)]

theorem faddWith_inf_left (ha : fisInf a = true) (hc : fisNaN c = false) :
    faddWith nan a c = if fisInf c = true ∧ fsign a ≠ fsign c then nan else a := by
  simp [faddWith, ha, hc, fisNaN_of_fisInf ha]

theorem faddWith_inf_right (ha : isFinite a = true) (hc : fisInf c = true) : faddWith nan a c = c := by
  simp [faddWith, hc, fisNaN_of_fisInf hc, fisNaN_of_isFinite ha, fisInf_of_isFinite ha]

theorem faddWith_finite (ha : isFinite a = true) (hc : isFinite c = true) :
    faddWith nan a c = if fexact a + fexact c = 0 then fpack (fsign a && fsign c) 0
      else fpack (decide (fexact a + fexact c < 0)) (roundBits (fexact a + fexact c).natAbs 0) := by
  simp [faddWith, fisNaN_of_isFinite ha, fisInf_of_isFinite ha, fisNaN_of_isFinite hc, fisInf_of_isFinite hc]

theorem fmul_of_nan (h : fisNaN a = true ∨ fisNaN c = true) : fmul a c = nanResult .fmul a c := by
  simp only [fmul]
  rw [if_pos (by simpa using h)]

theorem fmul_inf (ha : fisNaN a = false) (hc : fisNaN c = false) (h : fisInf a = true ∨ fisInf c = true) :
    fmul a c = if fmag a = 0 ∨ fmag c = 0 then nanResult .fmul a c else fpack (fsign a != fsign c) infBits := by
  simp only [fmul]
  rw [if_neg (by simp [ha, hc]), if_pos (by simpa using h)]
  simp

theorem fmul_finite (ha : isFinite a = true) (hc : isFinite c = true) :
    fmul a c = fpack (fsign a != fsign c) (roundBits (fmag a * fmag c) 1074) := by
  simp [fmul, fisNaN_of_isFinite ha, fisInf_of_isFinite ha, fisNaN_of_isFinite hc, fisInf_of_isFinite hc]

theorem fisInf_fpack_infBits (s : Bool) : fisInf (fpack s infBits) = true := by
  rw [fisInf_iff, fbits63_fpack s (by decide)]

theorem arithmetic_of_nan (h : fisNaN a = true ∨ fisNaN c = true) :
    fadd a c = nanResult .fadd a c ∧ fsub a c = nanResult .fsub a c ∧ fmul a c = nanResult .fmul a c :=
  ⟨faddWith_of_nan h, faddWith_of_nan (by rwa [fisNaN_fneg]), fmul_of_nan h⟩

theorem arithmetic_of_infinities (ha : fisInf a = true) (hc : fisInf c = true) :
    fadd a c = (if fsign a = fsign c then a else nanResult .fadd a c) ∧
    fsub a c = (if fsign a = fsign c then nanResult .fsub a c else a) ∧
    fisInf (fmul a c) = true ∧ fsign (fmul a c) = (fsign a != fsign c) := by
  have hnan := fisNaN_of_fisInf hc
  have hmul : fmul a c = fpack (fsign a != fsign c) infBits := by
    rw [fmul_inf (fisNaN_of_fisInf ha) hnan (.inl ha),
      if_neg (not_or.2 ⟨fmag_ne_zero_of_fisInf ha, fmag_ne_zero_of_fisInf hc⟩)]
  refine ⟨?_, ?_, ?_, ?_⟩
  · simp [fadd, faddWith_inf_left ha hnan, hc]
  · simp [fsub, faddWith_inf_left (c := fneg c) ha (by simpa using hnan), hc]
  · rw [hmul, fisInf_fpack_infBits]
  · rw [hmul, fsign_fpack]

theorem sums_of_infinity_and_finite (ha : fisInf a = true) (hc : isFinite c = true) :
    fadd a c = a ∧ fsub a c = a ∧ fadd c a = a ∧ fsub c a = fneg a := by
  refine ⟨?_, ?_, faddWith_inf_right hc ha, faddWith_inf_right hc (by simpa using ha)⟩
  · simp [fadd, faddWith_inf_left ha (fisNaN_of_isFinite hc), fisInf_of_isFinite hc]
  · simp [fsub, faddWith_inf_left (c := fneg c) ha (by simpa using fisNaN_of_isFinite hc), fisInf_of_isFinite hc]

theorem products_of_infinity_and_finite (ha : fisInf a = true) (hc : isFinite c = true) :
    (fexact c = 0 → fmul a c = nanResult .fmul a c ∧ fmul c a = nanResult .fmul c a) ∧
    (fexact c ≠ 0 → fisInf (fmul a c) = true ∧ fsign (fmul a c) = (fsign a != fsign c) ∧ fmul c a = fmul a c) := by
  have hmag := fmag_ne_zero_of_fisInf ha
  rw [fmul_inf (fisNaN_of_fisInf ha) (fisNaN_of_isFinite hc) (.inl ha),
    fmul_inf (fisNaN_of_isFinite hc) (fisNaN_of_fisInf ha) (.inr ha)]
  rw [ne_eq, fexact_eq_zero_iff]
  refine ⟨fun h => ?_, fun h => ?_⟩
  · simp [h]
  · simp [h, hmag, fisInf_fpack_infBits, Bool.xor_comm]

end OperandKinds

/-- Settles O31: each primitive by kind of operand; the product of two infinities is none of 0 and infinity. -/
theorem arithmeticOnInfinitiesAndNaNs : Obligations.ArithmeticOnInfinitiesAndNaNs := by
  refine ⟨nanResult_quiet, fun _ _ => arithmetic_of_nan, fun _ _ => arithmetic_of_infinities, fun a b ha hb => ?_⟩
  obtain ⟨h1, h2, h3, h4⟩ := sums_of_infinity_and_finite ha hb
  exact ⟨h1, h2, h3, h4, products_of_infinity_and_finite ha hb⟩

end Sys2Proof.Machine
end

section
/-! The extreme folds (rule R8): one argument for both, over the key that the fold maximises. -/

namespace Sys2Proof.Machine

/-- `m` is the first element of `l` with the largest key, NaNs passed over. -/
def IsFirstMax (key : Word → Int) (l : List Word) (m : Word) : Prop :=
  ∃ pre post, l = pre ++ m :: post ∧ (∀ v ∈ pre, fisNaN v = true ∨ key v < key m) ∧
    (∀ v ∈ post, fisNaN v = true ∨ key v ≤ key m) ∧ fisNaN m = false

/-- `step` takes the new element exactly when it is no NaN and its key is strictly larger. -/
def StepsByKey (key : Word → Int) (step : Word → Word → Word) : Prop :=
  ∀ r v, fisNaN r = false → step r v = if fisNaN v = false ∧ key r < key v then v else r

theorem stepsByKey_maxStep : StepsByKey fkey maxStep := fun r v hr => by simp [maxStep, fgt_iff, hr]

theorem stepsByKey_minStep : StepsByKey (fun w => -fkey w) minStep := fun r v hr => by simp [minStep, flt_iff, hr]

section Folds

variable {key : Word → Int} {step : Word → Word → Word} {l : List Word} {m : Word}

theorem isFirstMax_singleton (hm : fisNaN m = false) : IsFirstMax key [m] m := ⟨[], [], by simp [hm]⟩

theorem IsFirstMax.key_le (h : IsFirstMax key l m) {v : Word} (hv : v ∈ l) : fisNaN v = true ∨ key v ≤ key m := by
  obtain ⟨pre, post, rfl, hpre, hpost, -⟩ := h
  rw [List.mem_append, List.mem_cons] at hv
  rcases hv with hv | rfl | hv
  · exact (hpre v hv).imp_right le_of_lt
  · exact .inr le_rfl
  · exact hpost v hv

/-- One step of a fold: a strictly larger element comes after all of `l`, any other one lengthens what follows `m`. -/
theorem IsFirstMax.append_step (hs : StepsByKey key step) (h : IsFirstMax key l m) (v : Word) :
    IsFirstMax key (l ++ [v]) (step m v) := by
  have hle := fun u hu => h.key_le (v := u) hu
  obtain ⟨pre, post, hl, hpre, hpost, hm⟩ := h
  rw [hs m v hm]
  split
  next hv =>
    refine ⟨l, [], rfl, fun u hu => (hle u hu).imp_right (lt_of_le_of_lt · hv.2), by simp, hv.1⟩
  next hv =>
    refine ⟨pre, post ++ [v], by simp [hl], hpre, fun u hu => ?_, hm⟩
    rw [List.mem_append, List.mem_singleton] at hu
    rcases hu with hu | rfl
    · exact hpost u hu
    · rwa [not_and_or, Bool.not_eq_false, not_lt] at hv

theorem IsFirstMax.foldl (hs : StepsByKey key step) (h : IsFirstMax key l m) (rest : List Word) :
    IsFirstMax key (l ++ rest) (rest.foldl step m) := by
  induction rest generalizing l m with
  | nil => simpa using h
  | cons v rest ih => simpa using ih (h.append_step hs v)

theorem foldMax_isFirstMax {r : Word} (hr : fisNaN r = false) (rest : List Word) :
    IsFirstMax fkey (r :: rest) (foldMax (r :: rest)) :=
  (isFirstMax_singleton hr).foldl stepsByKey_maxStep rest

theorem foldMin_isFirstMax {r : Word} (hr : fisNaN r = false) (rest : List Word) :
    IsFirstMax (fun w => -fkey w) (r :: rest) (foldMin (r :: rest)) :=
  (isFirstMax_singleton hr).foldl stepsByKey_minStep rest

theorem folds_of_leading_nan {r : Word} (hr : fisNaN r = true) (rest : List Word) :
    foldMax (r :: rest) = r ∧ foldMin (r :: rest) = r := by
  have hmax : ∀ v, maxStep r v = r := fun v => by simp [maxStep, comparisons_false_of_nan (.inr hr : _ ∨ fisNaN r = true)]
  have hmin : ∀ v, minStep r v = r := fun v => by simp [minStep, comparisons_false_of_nan (.inr hr : _ ∨ fisNaN r = true)]
  exact ⟨List.foldl_fixed' hmax rest, List.foldl_fixed' hmin rest⟩

theorem nan_or_of_not_nan {v : Word} {p q : Prop} (h : fisNaN v = true ∨ p) (hq : fisNaN v = false → p → q) :
    fisNaN v = true ∨ q := by
  cases hv : fisNaN v
  · exact .inr (hq hv (h.resolve_left (by simp [hv])))
  · exact .inl rfl

end Folds

/-- Settles O32: each step of a fold keeps the first extreme of the elements seen so far (`IsFirstMax.append_step`). -/
theorem foldsReturnTheFirstExtreme : Obligations.FoldsReturnTheFirstExtreme := by
  refine fun r rest => ⟨fun hr => folds_of_leading_nan hr rest, fun hr => ⟨?_, ?_⟩⟩
  · obtain ⟨pre, post, hl, hpre, hpost, hm⟩ := foldMax_isFirstMax hr rest
    refine ⟨pre, post, hl, fun v hv => ?_, fun v hv => ?_, hm⟩
    · exact nan_or_of_not_nan (hpre v hv) fun hn hlt => (flt_iff _ _).2 ⟨hn, hm, hlt⟩
    · exact nan_or_of_not_nan (hpost v hv) fun hn hle => (fle_iff _ _).2 ⟨hn, hm, hle⟩
  · obtain ⟨pre, post, hl, hpre, hpost, hm⟩ := foldMin_isFirstMax hr rest
    refine ⟨pre, post, hl, fun v hv => ?_, fun v hv => ?_, hm⟩
    · exact nan_or_of_not_nan (hpre v hv) fun hn hlt => (fgt_iff _ _).2 ⟨hn, hm, neg_lt_neg_iff.1 hlt⟩
    · exact nan_or_of_not_nan (hpost v hv) fun hn hle => (fle_iff _ _).2 ⟨hm, hn, neg_le_neg_iff.1 hle⟩

end Sys2Proof.Machine
end

section
/-! Rounding (rule R6): the exact value lies between two neighbouring patterns, and `roundBits` takes the nearer one. -/

namespace Sys2Proof.Machine

/-- Halfway between the largest significand of an exponent step and the carry into the next step. -/
theorem two_mul_midpoint_of_carry (e d : Nat) :
    2 * (((1 <<< 54) - 1) <<< (e + d)) =
      magOf ((e + 1) * 2 ^ 52 + (2 ^ 53 - 1)) * 2 ^ d + magOf ((e + 1) * 2 ^ 52 + 2 ^ 53) * 2 ^ d := by
  have hnum : 1 <<< 54 - 1 = 2 ^ 54 - 1 := rfl
  rw [magOf_step_add _ _ (by decide) (.inr (by decide)), magOf_step_add _ _ (by decide) (.inr (by decide)),
    Nat.shiftLeft_eq, hnum]
  ring

/-- The overflow threshold lies halfway between the largest finite magnitude and the one that infinity's pattern encodes. -/
theorem two_mul_overflow_threshold (d : Nat) :
    2 * (((1 <<< 54) - 1) <<< (2044 + d)) = magOf (infBits - 1) * 2 ^ d + magOf infBits * 2 ^ d := by
  have hmax : infBits - 1 = (2044 + 1) * 2 ^ 52 + (2 ^ 53 - 1) := rfl
  have hinf : infBits = (2044 + 1) * 2 ^ 52 + 2 ^ 53 := rfl
  rw [hmax, hinf]
  exact two_mul_midpoint_of_carry 2044 d

theorem magOf_mul_le_of_le {p r : Nat} (d : Nat) (h : p ≤ r) : magOf p * 2 ^ d ≤ magOf r * 2 ^ d :=
  Nat.mul_le_mul_right _ (magOf_strictMono.monotone h)

theorem magOf_mul_lt_of_lt {p r : Nat} (d : Nat) (h : p < r) : magOf p * 2 ^ d < magOf r * 2 ^ d :=
  Nat.mul_lt_mul_of_pos_right (magOf_strictMono h) (Nat.two_pow_pos d)

section Neighbours

variable {n d p : Nat}

/-- `NearestEven` in the magnitudes of `magOf`. -/
theorem nearestEven_of_finite {low : Nat} (hlow : low < infBits) (hn : n < ((1 <<< 54) - 1) <<< (2044 + d))
    (h : ∀ other : Nat, other < infBits →
      ((magOf low * 2 ^ d : Nat) - (n : Int)).natAbs ≤ ((magOf other * 2 ^ d : Nat) - (n : Int)).natAbs ∧
      (((magOf low * 2 ^ d : Nat) - (n : Int)).natAbs = ((magOf other * 2 ^ d : Nat) - (n : Int)).natAbs →
        other ≠ low → low % 2 = 0)) : NearestEven n d low := by
  refine .inl ⟨hlow, hn, fun other ho => ?_⟩
  simpa only [fmag_fpack _ hlow, fmag_fpack _ ho, Nat.shiftLeft_eq] using h other ho

theorem nearestEven_infBits (h : infBits ≤ p) (hlo : magOf p * 2 ^ d ≤ n) : NearestEven n d infBits := by
  refine .inr ⟨rfl, ?_⟩
  have h1 := two_mul_overflow_threshold d
  have h2 := magOf_mul_le_of_le d h
  have h3 := magOf_mul_le_of_le d (Nat.sub_le infBits 1)
  omega

/-- The lower neighbour, when the exact value is nearer to it, or as near and the neighbour is even. -/
theorem nearestEven_lower (hp : p < infBits) (hlo : magOf p * 2 ^ d ≤ n)
    (hnear : 2 * n < magOf p * 2 ^ d + magOf (p + 1) * 2 ^ d ∨
      2 * n = magOf p * 2 ^ d + magOf (p + 1) * 2 ^ d ∧ p % 2 = 0) : NearestEven n d p := by
  refine nearestEven_of_finite hp ?_ fun other _ => ?_
  · have h1 := two_mul_overflow_threshold d
    have h2 := magOf_mul_le_of_le d (show p ≤ infBits - 1 by omega)
    have h3 := magOf_mul_le_of_le d (show p + 1 ≤ infBits by omega)
    -- `infBits` is even, so an even neighbour is not the largest finite pattern, where a tie overflows
    have h4 : p % 2 = 0 → p + 1 < infBits := by
      rw [infBits_eq] at *
      omega
    have h5 := fun h => magOf_mul_lt_of_lt d (h4 h)
    omega
  · rcases Nat.lt_trichotomy other p with h | h | h
    · have h1 := magOf_mul_lt_of_lt d h
      omega
    · subst h
      omega
    · have h1 := magOf_mul_le_of_le d (show p + 1 ≤ other from h)
      omega

/-- The upper neighbour, which may be infinity, when the exact value is nearer to it, or as near and the neighbour is even. -/
theorem nearestEven_upper (hp : p < infBits) (hhi : n < magOf (p + 1) * 2 ^ d)
    (hnear : magOf p * 2 ^ d + magOf (p + 1) * 2 ^ d < 2 * n ∨
      magOf p * 2 ^ d + magOf (p + 1) * 2 ^ d = 2 * n ∧ p % 2 = 1) : NearestEven n d (p + 1) := by
  have h1 := two_mul_overflow_threshold d
  rcases Nat.lt_or_ge (p + 1) infBits with hp' | hp'
  · refine nearestEven_of_finite hp' ?_ fun other _ => ?_
    · have h2 := magOf_mul_le_of_le d (show p + 1 ≤ infBits - 1 by omega)
      have h3 := magOf_mul_le_of_le d (Nat.sub_le infBits 1)
      omega
    · rcases Nat.lt_trichotomy other (p + 1) with h | h | h
      · have h2 := magOf_mul_le_of_le d (show other ≤ p by omega)
        omega
      · subst h
        omega
      · have h2 := magOf_mul_lt_of_lt d h
        omega
  · obtain rfl : p = infBits - 1 := by omega
    have hinf : infBits - 1 + 1 = infBits := rfl
    rw [hinf] at hnear ⊢
    exact .inr ⟨rfl, by omega⟩

end Neighbours

/-- `shiftRne` takes the floor or the next number, by which is nearer, the even one on a tie. -/
theorem shiftRne_cases (n k : Nat) :
    shiftRne n k = n >>> k ∧ (2 * n < (2 * (n >>> k) + 1) * 2 ^ k ∨ 2 * n = (2 * (n >>> k) + 1) * 2 ^ k ∧ (n >>> k) % 2 = 0) ∨
    shiftRne n k = n >>> k + 1 ∧
      ((2 * (n >>> k) + 1) * 2 ^ k < 2 * n ∨ (2 * (n >>> k) + 1) * 2 ^ k = 2 * n ∧ (n >>> k) % 2 = 1) := by
  have hfloor : (n >>> k) * 2 ^ k ≤ n := by
    rw [Nat.shiftRight_eq_div_pow]
    exact Nat.div_mul_le_self n (2 ^ k)
  have hmid : (2 * (n >>> k) + 1) * 2 ^ k = 2 * ((n >>> k) * 2 ^ k) + 2 ^ k := by ring
  simp only [shiftRne, Nat.shiftLeft_eq, Nat.one_mul]
  split <;> omega

/-- The exponent step and significand that `roundBits` starts from: the significand is at most 53 bits, and all 53 of them are
in use above step 0. -/
theorem roundBits_significand (n d : Nat) :
    let shift := max d (n.log2 + 1 - 53)
    n >>> shift < 2 ^ 53 ∧ (shift - d = 0 ∨ 2 ^ 52 ≤ n >>> shift) := by
  intro shift
  rw [Nat.shiftRight_eq_div_pow]
  refine ⟨?_, ?_⟩
  · rw [Nat.div_lt_iff_lt_mul (Nat.two_pow_pos shift), ← Nat.pow_add]
    exact Nat.lt_log2_self.trans_le (Nat.pow_le_pow_right (by decide) (by omega))
  · refine or_iff_not_imp_left.2 fun hstep => ?_
    rw [Nat.le_div_iff_mul_le (Nat.two_pow_pos shift), ← Nat.pow_add]
    have hlog : 52 + shift = n.log2 := by omega
    have hn : n ≠ 0 := by
      rintro rfl
      simp at hlog
    rw [hlog]
    exact Nat.log2_self_le hn

/-- `roundBits` rounds once, to nearest, ties to even, with overflow to infinity. -/
theorem nearestEven_roundBits (n d : Nat) : NearestEven n d (roundBits n d) := by
  obtain ⟨hq, hk⟩ := roundBits_significand n d
  have hcases := shiftRne_cases n (max d (n.log2 + 1 - 53))
  rw [roundBits, Nat.shiftLeft_eq]
  generalize hs : max d (n.log2 + 1 - 53) = s at *
  have hfloor : (n >>> s) * 2 ^ s ≤ n ∧ n < (n >>> s + 1) * 2 ^ s := by
    rw [Nat.shiftRight_eq_div_pow]
    exact ⟨Nat.div_mul_le_self n _, Nat.lt_mul_of_div_lt (Nat.lt_succ_self _) (Nat.two_pow_pos s)⟩
  generalize n >>> s = q at *
  have hscale : 2 ^ (s - d) * 2 ^ d = 2 ^ s := by rw [← Nat.pow_add]; congr 1; omega
  have hlo : magOf ((s - d) * 2 ^ 52 + q) * 2 ^ d = q * 2 ^ s := by
    rw [magOf_step_add _ _ hq.le hk, Nat.mul_assoc, hscale]
  have hhi : magOf ((s - d) * 2 ^ 52 + q + 1) * 2 ^ d = (q + 1) * 2 ^ s := by
    rw [Nat.add_assoc, magOf_step_add _ _ hq (by omega), Nat.mul_assoc, hscale]
  have hmid : q * 2 ^ s + (q + 1) * 2 ^ s = (2 * q + 1) * 2 ^ s := by ring
  have heven : ((s - d) * 2 ^ 52 + q) % 2 = q % 2 := by omega
  rcases Nat.lt_or_ge ((s - d) * 2 ^ 52 + q) infBits with hp | hp
  · rcases hcases with ⟨hr, hnear⟩ | ⟨hr, hnear⟩
    · rw [hr, Nat.min_eq_left hp.le]
      refine nearestEven_lower hp (by omega) ?_
      rwa [hlo, hhi, hmid, heven]
    · rw [hr, ← Nat.add_assoc, Nat.min_eq_left (Nat.succ_le_of_lt hp)]
      refine nearestEven_upper hp (by omega) ?_
      rwa [hlo, hhi, hmid, heven]
  · rw [Nat.min_eq_right (by omega)]
    exact nearestEven_infBits hp (by omega)

theorem roundBits_lt (n d : Nat) : roundBits n d < 2 ^ 63 :=
  (Nat.min_le_right _ _).trans_lt (by decide)

/-- A rounded result carries the sign given to it and the nearest magnitude. -/
theorem fpack_roundBits (s : Bool) (n d : Nat) :
    fsign (fpack s (roundBits n d)) = s ∧ NearestEven n d (fbits63 (fpack s (roundBits n d))) := by
  rw [fsign_fpack, fbits63_fpack s (roundBits_lt n d)]
  exact ⟨rfl, nearestEven_roundBits n d⟩

theorem fpack_zero (s : Bool) : fpack s 0 = if s = true then 0x8000000000000000#64 else 0#64 := by cases s <;> rfl

/-- The sum that both `fadd` and `fsub` are, of finite samples. -/
theorem faddWith_rounds {a c : Word} (nan : Word) (ha : isFinite a = true) (hc : isFinite c = true) :
    (fexact a + fexact c ≠ 0 →
      fsign (faddWith nan a c) = decide (fexact a + fexact c < 0) ∧
      NearestEven (fexact a + fexact c).natAbs 0 (fbits63 (faddWith nan a c))) ∧
    (fexact a + fexact c = 0 →
      faddWith nan a c = if fsign a = true ∧ fsign c = true then 0x8000000000000000#64 else 0#64) := by
  rw [faddWith_finite ha hc]
  refine ⟨fun h => ?_, fun h => ?_⟩
  · rw [if_neg h]
    exact fpack_roundBits _ _ _
  · rw [if_pos h, fpack_zero]
    simp

theorem fmul_rounds {a c : Word} (ha : isFinite a = true) (hc : isFinite c = true) :
    fsign (fmul a c) = (fsign a != fsign c) ∧ NearestEven (fmag a * fmag c) 1074 (fbits63 (fmul a c)) := by
  rw [fmul_finite ha hc]
  exact fpack_roundBits _ _ _

/-- Settles O30: `roundBits` rounds the exact result once (`nearestEven_roundBits`), and a difference is the sum with the
second operand's sign changed. -/
theorem arithmeticRoundsOnceToNearestEven : Obligations.ArithmeticRoundsOnceToNearestEven := by
  intro a b ha hb
  obtain ⟨hadd, hadd0⟩ := faddWith_rounds (nanResult .fadd a b) ha hb
  obtain ⟨hsub, hsub0⟩ := faddWith_rounds (nanResult .fsub a b) ha (c := fneg b) (by rwa [isFinite_fneg])
  simp only [fexact_fneg, fsign_fneg, Bool.not_eq_true', ← sub_eq_add_neg] at hsub hsub0
  exact ⟨hadd, hadd0, hsub, hsub0, fmul_rounds ha hb⟩

end Sys2Proof.Machine
end

section
/-! How many peaks PEAKS can find (rules R140 to R149): Stage A's candidates are never adjacent nor at an end of the signal, and
no later stage adds one. -/

namespace Sys2Proof.Machine

theorem isCandidate_iff (x : List Word) (i : Nat) :
    isCandidate x i = true ↔ fgt (sampleAt x i) (sampleAt x (i - 1)) = true ∧ plateauEnd x i < x.length ∧
      fgt (sampleAt x i) (sampleAt x (plateauEnd x i)) = true := by
  simp [isCandidate, and_assoc]

theorem lt_plateauEnd (x : List Word) (i : Nat) : i < plateauEnd x i := by
  rw [plateauEnd]
  omega

/-- A plateau that does not reach the next sample ends there. -/
theorem plateauEnd_eq_succ {x : List Word} {i : Nat} (hi : i + 1 < x.length)
    (h : feq (sampleAt x (i + 1)) (sampleAt x i) = false) : plateauEnd x i = i + 1 := by
  have hnext : sampleAt x (i + 1) = x[i + 1] := by simp [sampleAt, hi]
  rw [hnext] at h
  rw [plateauEnd, List.drop_eq_getElem_cons hi, List.takeWhile_cons_of_neg (by simp [h]), List.length_nil]

/-- A rise right after a candidate would contradict its strict decrease. -/
theorem not_isCandidate_succ {x : List Word} {i : Nat} (h : isCandidate x i = true) : ¬ isCandidate x (i + 1) = true := by
  rw [isCandidate_iff, Nat.add_sub_cancel]
  rintro ⟨hrise, -, -⟩
  obtain ⟨-, hinside, hfall⟩ := (isCandidate_iff x i).1 h
  have hlt := lt_plateauEnd x i
  have hkey := ((fgt_iff _ _).1 hrise).2.2
  have hne : feq (sampleAt x (i + 1)) (sampleAt x i) = false := by
    rw [← Bool.not_eq_true, feq_iff]
    omega
  rw [plateauEnd_eq_succ (by omega) hne] at hfall
  exact lt_asymm hkey ((fgt_iff _ _).1 hfall).2.2

theorem stageA_gaps (x : List Word) : (stageA x).Pairwise (fun p q => p + 2 ≤ q) := by
  refine ((List.pairwise_lt_range' 1).sublist (stageA_sublist x)).imp_of_mem fun {p q} hp hq hlt => ?_
  obtain ⟨-, -, hp⟩ := mem_stageA.1 hp
  obtain ⟨-, -, hq⟩ := mem_stageA.1 hq
  have hne : q ≠ p + 1 := by
    rintro rfl
    exact not_isCandidate_succ hp hq
  omega

theorem mem_stageA_bounds {x : List Word} {p : Nat} (h : p ∈ stageA x) : 1 ≤ p ∧ p < x.length - 1 := by
  obtain ⟨hpos, -, hcand⟩ := mem_stageA.1 h
  obtain ⟨-, hinside, -⟩ := (isCandidate_iff x p).1 hcand
  have hlt := lt_plateauEnd x p
  omega

/-- Numbers of an interval that are at least two apart are at most half as many as its members. -/
theorem two_mul_length_le_of_gaps {l : List Nat} {lo hi : Nat} (hgap : l.Pairwise (fun p q => p + 2 ≤ q))
    (h : ∀ p ∈ l, lo ≤ p ∧ p < hi) : 2 * l.length ≤ hi - lo + 1 := by
  induction l generalizing lo with
  | nil => simp
  | cons p rest ih =>
    obtain ⟨hfirst, hgap⟩ := List.pairwise_cons.1 hgap
    obtain ⟨hp, hrest⟩ := List.forall_mem_cons.1 h
    have hle := ih (lo := p + 2) hgap fun q hq => ⟨hfirst q hq, (hrest q hq).2⟩
    rw [List.length_cons]
    omega

theorem length_stageA_le (x : List Word) : (stageA x).length ≤ maxPeaks x.length := by
  have hle := two_mul_length_le_of_gaps (stageA_gaps x) fun _ => mem_stageA_bounds
  rw [maxPeaks_eq]
  split <;> omega

theorem length_stageB_le (x : List Word) (C : List Nat) (thr : Word) : (stageB x C thr).length ≤ C.length := by
  simpa [stageB] using List.length_filter_le (fun k => !fle (prominence x C k) thr) (List.range C.length)

theorem length_foldl_keepStep_le (dist : Nat) (l K : List Nat) :
    (l.foldl (keepStep dist) K).length ≤ K.length + l.length := by
  induction l generalizing K with
  | nil => simp
  | cons p l ih =>
    have hstep : (keepStep dist K p).length ≤ K.length + 1 := by
      unfold keepStep
      split <;> simp
    have hrest := ih (keepStep dist K p)
    rw [List.foldl_cons, List.length_cons]
    omega

theorem length_stageC_le (x : List Word) (C : List Nat) (dist : Nat) : (stageC x C dist).length ≤ C.length := by
  rw [stageC, List.length_insertionSort]
  simpa using length_foldl_keepStep_le dist (C.insertionSort (fun p q => comesBefore x p q = true)) []

/-- The peaks fit the output region that PEAKS checks (rule R149). -/
theorem length_peakIndices_le (x : List Word) (dist : Nat) (thr : Word) :
    (peakIndices x dist thr).length ≤ maxPeaks x.length := by
  have hA := length_stageA_le x
  have hB : (if fgt thr 0#64 then stageB x (stageA x) thr else stageA x).length ≤ maxPeaks x.length := by
    split
    · exact (length_stageB_le _ _ _).trans hA
    · exact hA
  unfold peakIndices
  split
  · exact Nat.zero_le _
  · dsimp only
    split
    · exact (length_stageC_le _ _ _).trans hB
    · exact hB

end Sys2Proof.Machine
end

section
/-! When the checks of each command pass, in the words of Safety.lean (rules R125, R140, R161 to R163). -/

namespace Sys2Proof.Machine

theorem morphChecks_eq_noError_iff (s : State) : morphChecks s = .noError ↔ morphPasses s := by
  rw [morphChecks, firstFailure_eq_noError (by simp)]
  simp [morphPasses, regionsOk, srcInRange_iff, dstInRange_iff]

theorem iirConfigChecks_eq_noError_iff (s : State) : iirConfigChecks s = .noError ↔ configPasses s := by
  simp only [iirConfigChecks]
  rw [firstFailure_eq_noError (by simp)]
  simp only [List.forall_mem_cons, Bool.or_eq_false_iff, decide_eq_false_iff_not, Bool.not_eq_false', inRange_iff,
    configPasses, regionOk, ne_eq, ← BitVec.toNat_inj, BitVec.toNat_ofNat, Nat.zero_mod, List.not_mem_nil,
    false_imp_iff, implies_true, and_true]
  omega

theorem iirResetChecks_eq_noError_iff (s : State) : iirResetChecks s = .noError ↔ s.iir.cfg = true := by
  rw [iirResetChecks, firstFailure_eq_noError (by simp)]
  simp

theorem iirApplyChecks_eq_noError_iff (s : State) : iirApplyChecks s = .noError ↔ applyPasses s := by
  rw [iirApplyChecks, firstFailure_eq_noError (by simp)]
  simp [applyPasses, regionsOk, srcInRange_iff, dstInRange_iff]

theorem peaksChecks_eq_noError_iff (s : State) : peaksChecks s = .noError ↔ peaksPasses s := by
  rw [peaksChecks, firstFailure_eq_noError (by simp)]
  simp [peaksPasses, srcInRange_iff, inRange_iff, regionOk, maxPeaks_eq]

end Sys2Proof.Machine
end

section
/-! What a command leaves alone and where it writes, said once for all commands (rules R101 to R104). -/

namespace Sys2Proof.Machine

theorem performOf_sameElsewhere (i : Instr) (s : State) : sameElsewhere s (performOf i s) := by
  cases i <;> simp [performOf, sameElsewhere]

theorem complete_sameElsewhere (c : ErrorCode) {s t : State} (h : sameElsewhere s t) :
    sameElsewhere s (complete c t) := by
  simpa [sameElsewhere] using h

theorem exec_sameElsewhere {i : Instr} {s t : State} (h : exec i s = .next t) : sameElsewhere s t := by
  rcases exec_cases h with ⟨-, rfl⟩ | ⟨-, rfl⟩
  · exact complete_sameElsewhere _ (performOf_sameElsewhere i s)
  · exact complete_sameElsewhere _ (by simp [sameElsewhere])

theorem exec_busy {i : Instr} {s t : State} (h : exec i s = .next t) : t.status.busy = false := by
  rcases exec_cases h with ⟨-, rfl⟩ | ⟨-, rfl⟩ <;> simp

/-- A command that passes its checks writes a run of words at DST_BASE, no longer than its write set names. -/
theorem performOf_mem {i : Instr} {s : State} (h : checksOf i s = .noError) :
    ∃ vs, (performOf i s).mem = Memory.writeWords s.mem s.ops.dstBase.toNat vs ∧
      vs.length ≤ writeSetLength s.ops (some i) := by
  have hmorph (f : List Word → List Word) (hf : ∀ x, (f x).length = x.length) (hs : morphChecks s = .noError) :
      ∃ vs, (mapSignal f s).mem = Memory.writeWords s.mem s.ops.dstBase.toNat vs ∧ vs.length ≤ s.ops.dstLen.toNat := by
    obtain ⟨hlen, -⟩ := (morphChecks_eq_noError_iff s).1 hs
    exact ⟨_, rfl, by rw [hf, length_inputSignal, hlen]⟩
  cases i with
  | iirConfig => exact ⟨[], rfl, Nat.zero_le _⟩
  | iirReset => exact ⟨[], rfl, Nat.zero_le _⟩
  | iirApply =>
    obtain ⟨-, hlen, -⟩ := (iirApplyChecks_eq_noError_iff s).1 h
    exact ⟨_, rfl, by rw [length_recursion, length_inputSignal, hlen]; rfl⟩
  | dilate shift => exact hmorph _ (fun x => length_dilateSeq x _ shift) h
  | erode shift => exact hmorph _ (fun x => length_erodeSeq x _ shift) h
  | opening => exact hmorph _ (fun x => length_openSeq x _) h
  | peaks =>
    refine ⟨_, rfl, ?_⟩
    have hle := length_peakIndices_le (inputSignal s) s.ops.pkMindist.toNat s.ops.pkMinprom
    rwa [length_inputSignal, ← List.length_map] at hle

/-- The checks of a command cover the region its write set names. -/
theorem regionOk_of_checksOf {i : Instr} {s : State} (h : checksOf i s = .noError) :
    regionOk s s.ops.dstBase.toNat (writeSetLength s.ops (some i)) := by
  have hmorph (hs : morphChecks s = .noError) : regionOk s s.ops.dstBase.toNat s.ops.dstLen.toNat := by
    obtain ⟨-, -, -, -, hdst⟩ := (morphChecks_eq_noError_iff s).1 hs
    exact hdst
  cases i with
  | iirConfig => exact .inl rfl
  | iirReset => exact .inl rfl
  | iirApply =>
    obtain ⟨-, -, -, -, hdst⟩ := (iirApplyChecks_eq_noError_iff s).1 h
    exact hdst
  | dilate shift => exact hmorph h
  | erode shift => exact hmorph h
  | opening => exact hmorph h
  | peaks =>
    obtain ⟨-, hdst⟩ := (peaksChecks_eq_noError_iff s).1 h
    rwa [← maxPeaks_eq] at hdst

end Sys2Proof.Machine
end

section
/-! The engine's invariant (rules R38, R39) through the three IIR commands. -/

namespace Sys2Proof.Machine

theorem eq_zero_of_mem_drop_replicate {n k : Nat} {v : Word} (hv : v ∈ (List.replicate n 0#64).drop k) : v = 0#64 :=
  List.eq_of_mem_replicate (List.mem_of_mem_drop hv)

theorem Iir.inv_reset (p : Params) : Iir.Inv p (Iir.reset p) where
  cbLength := List.length_replicate
  caLength := List.length_replicate
  xhLength := List.length_replicate
  yhLength := List.length_replicate
  orderLe := Nat.zero_le _
  orderPos h := by cases h
  unconfigured _ := rfl
  cbAbove _ := eq_zero_of_mem_drop_replicate
  caAbove _ := eq_zero_of_mem_drop_replicate
  xhAbove _ := eq_zero_of_mem_drop_replicate
  yhAbove _ := eq_zero_of_mem_drop_replicate
  idleHistory _ := ⟨rfl, rfl⟩

theorem length_paddedCoefs (s : State) (base len : Nat) : (paddedCoefs s base len).length = s.params.maxOrder + 1 := by
  simp [paddedCoefs]

/-- The padding of a coefficient sequence is zero. -/
theorem eq_zero_of_mem_drop_paddedCoefs {s : State} {base len k : Nat} {v : Word} (hk : len ≤ k)
    (hv : v ∈ (paddedCoefs s base len).drop k) : v = 0#64 := by
  obtain ⟨j, hj, rfl⟩ := List.mem_iff_getElem.1 hv
  simp only [paddedCoefs, List.getElem_drop, List.getElem_map, List.getElem_range]
  exact if_neg (by omega)

theorem performIirConfig_engine {s : State} (h : configPasses s) : Iir.Inv s.params (performIirConfig s).iir := by
  obtain ⟨-, -, htwo, hmax, -⟩ := h
  exact
    { cbLength := length_paddedCoefs _ _ _
      caLength := length_paddedCoefs _ _ _
      xhLength := List.length_replicate
      yhLength := List.length_replicate
      orderLe := Nat.sub_le_iff_le_add.2 hmax
      orderPos := fun _ => Nat.le_sub_of_add_le htwo
      unconfigured := fun hcfg => by cases hcfg
      cbAbove := fun _ => eq_zero_of_mem_drop_paddedCoefs ((le_max_left _ _).trans le_tsub_add)
      caAbove := fun _ => eq_zero_of_mem_drop_paddedCoefs ((le_max_right _ _).trans le_tsub_add)
      xhAbove := fun _ => eq_zero_of_mem_drop_replicate
      yhAbove := fun _ => eq_zero_of_mem_drop_replicate
      idleHistory := fun _ => ⟨rfl, rfl⟩ }

theorem performIirReset_engine {s : State} (he : Iir.Inv s.params s.iir) (h : s.iir.cfg = true) :
    Iir.Inv s.params (performIirReset s).iir :=
  { he with
    xhLength := List.length_replicate
    yhLength := List.length_replicate
    unconfigured := fun hcfg => absurd (h.symm.trans hcfg) (by decide)
    xhAbove := fun _ => eq_zero_of_mem_drop_replicate
    yhAbove := fun _ => eq_zero_of_mem_drop_replicate
    idleHistory := fun _ => ⟨rfl, rfl⟩ }

theorem afterApply_engine {p : Params} {e : Iir} (he : Iir.Inv p e) (h : e.cfg = true) (x : List Word) :
    Iir.Inv p (afterApply e x) := by
  have hxh : e.order ≤ e.xh.length := he.orderLe.trans_eq he.xhLength.symm
  have hyh : e.order ≤ e.yh.length := he.orderLe.trans_eq he.yhLength.symm
  exact
    { he with
      xhLength := (length_trailing _ _ _ hxh).trans he.xhLength
      yhLength := (length_trailing _ _ _ hyh).trans he.yhLength
      unconfigured := fun hcfg => absurd (h.symm.trans hcfg) (by decide)
      xhAbove := fun v hv => he.xhAbove v (drop_trailing _ _ x hxh ▸ hv)
      yhAbove := fun v hv => he.yhAbove v (drop_trailing _ _ (recursion e x) hyh ▸ hv)
      idleHistory := fun hrun => by cases hrun }

theorem performOf_engine {i : Instr} {s : State} (he : Iir.Inv s.params s.iir) (h : checksOf i s = .noError) :
    Iir.Inv s.params (performOf i s).iir := by
  cases i with
  | iirConfig => exact performIirConfig_engine ((iirConfigChecks_eq_noError_iff s).1 h)
  | iirReset => exact performIirReset_engine he ((iirResetChecks_eq_noError_iff s).1 h)
  | iirApply => exact afterApply_engine he ((iirApplyChecks_eq_noError_iff s).1 h).1 _
  | dilate | erode | opening | peaks => exact he

end Sys2Proof.Machine
end

section
/-! The machine's invariant (rules R4, R28, R29, R38, R60) through a core step and a host step. -/

namespace Sys2Proof.Machine

/-- DMEM is in canonical form and inside its address space (rule R60). -/
def Memory.Legal (p : Params) (m : Memory) : Prop := Memory.wf m ∧ Memory.Inside p.dmemWords m

theorem Memory.legal_writeWords {p : Params} {m : Memory} {base : Nat} {vs : List Word} (h : Memory.Legal p m)
    (hb : vs.length = 0 ∨ base + vs.length ≤ p.dmemWords) : Memory.Legal p (Memory.writeWords m base vs) :=
  ⟨Memory.writeWords_wf base vs h.1, Memory.inside_writeWords h.2 hb⟩

theorem Memory.legal_writeWord {p : Params} {m : Memory} {a : Nat} (v : Word) (h : Memory.Legal p m)
    (ha : a < p.dmemWords) : Memory.Legal p (Memory.writeWord m a v) :=
  Memory.legal_writeWords (vs := [v]) h (.inr ha)

theorem performOf_legal {i : Instr} {s : State} (hm : Memory.Legal s.params s.mem) (h : checksOf i s = .noError) :
    Memory.Legal s.params (performOf i s).mem := by
  obtain ⟨vs, hmem, hlen⟩ := performOf_mem h
  have hregion := regionOk_of_checksOf h
  rw [hmem]
  refine Memory.legal_writeWords hm ?_
  rw [regionOk] at hregion
  omega

theorem abandonedMem_legal {s : State} (hm : Memory.Legal s.params s.mem) :
    Memory.Legal s.params (abandonedMem s) := by
  unfold abandonedMem
  split
  · refine Memory.legal_writeWords hm ?_
    simp only [List.length_map, List.length_range, writeSetWords]
    omega
  · exact hm

theorem State.Inv.legal {s : State} (h : s.Inv) : Memory.Legal s.params s.mem := ⟨h.memCanonical, h.memInside⟩

/-- An update keeps the invariant when what it changes of DMEM, STATUS and ERRCODE is legal again and it leaves the parameters and
the engine alone. -/
theorem State.Inv.update {s t : State} (h : s.Inv) (hp : t.params = s.params) (he : t.iir = s.iir)
    (hm : Memory.Legal s.params t.mem)
    (hb : t.status.busy = true →
      t.status.done = false ∧ t.status.err = false ∧ t.errcode = { code := .noError, opc := 0#8 })
    (hc : t.status.err = (t.errcode.code != .noError)) : t.Inv where
  paramsLegal := hp ▸ h.paramsLegal
  memCanonical := hm.1
  memInside := hp ▸ hm.2
  busyClears := hb
  errIffCode := hc
  engine := by rw [hp, he]; exact h.engine

/-- Completion makes STATUS and ERRCODE consistent whatever they were (rule R103). -/
theorem complete_inv (c : ErrorCode) {s : State} (hp : s.params.wf = true) (hm : Memory.Legal s.params s.mem)
    (he : Iir.Inv s.params s.iir) : (complete c s).Inv where
  paramsLegal := hp
  memCanonical := hm.1
  memInside := hm.2
  busyClears h := by cases h
  errIffCode := rfl
  engine := he

theorem softReset_inv {s : State} (h : s.Inv) : (softReset s).Inv where
  paramsLegal := h.paramsLegal
  memCanonical := (abandonedMem_legal h.legal).1
  memInside := (abandonedMem_legal h.legal).2
  busyClears h := by cases h
  errIffCode := rfl
  engine := Iir.inv_reset s.params

theorem exec_inv {i : Instr} {s t : State} (h : s.Inv) (ht : exec i s = .next t) : t.Inv := by
  have hparams := (performOf_sameElsewhere i s).1
  rcases exec_cases ht with ⟨hc, rfl⟩ | ⟨-, rfl⟩
  · refine complete_inv _ ?_ ?_ ?_ <;> rw [hparams]
    · exact h.paramsLegal
    · exact performOf_legal h.legal hc
    · exact performOf_engine h.engine hc
  · exact complete_inv _ h.paramsLegal h.legal h.engine

theorem HostEffect.inv {stmt : HostStmt} {s u : State} (h : s.Inv) (hu : HostEffect stmt s u) : u.Inv := by
  have hbusy := h.busyClears
  have herr := h.errIffCode
  cases hu with
  | read | cmdRefused | hosterrCleared | irqEnable | refused | operand | ignored =>
    exact h.update rfl rfl h.legal hbusy herr
  | issued => exact h.update rfl rfl h.legal (fun _ => ⟨rfl, rfl, rfl⟩) rfl
  | acknowledged v =>
    refine h.update rfl rfl h.legal (fun hb => ?_) herr
    obtain ⟨hdone, hrest⟩ := hbusy hb
    exact ⟨by simp [writeStatus, nearer, writeOneToClear, hdone], hrest⟩
  | softReset => exact softReset_inv (h.update rfl rfl h.legal hbusy herr)
  | stored a v _ inside => exact h.update rfl rfl (Memory.legal_writeWord v h.legal inside) hbusy herr

theorem hostTurn_inv {s : State} (stmt : HostStmt) (h : s.Inv) : (hostTurn stmt s).Inv := by
  obtain ⟨u, n, hu, ht⟩ := hostTurn_cases stmt s
  have hinv := hu.inv h
  rw [ht]
  exact hinv.update rfl rfl hinv.legal hinv.busyClears hinv.errIffCode

/-- Settles O54: a core step completes after an effect that keeps DMEM and the engine legal, and each effect of a host statement
keeps the invariant. -/
theorem stepKeepsTheInvariant : Obligations.StepKeepsTheInvariant := by
  intro s t h ht
  rcases step_cases ht with ⟨-, i, -, hi⟩ | ⟨-, -, rfl⟩ | ⟨stmt, -, rfl⟩ | ⟨-, rfl⟩
  · exact exec_inv h hi
  · exact complete_inv _ h.paramsLegal h.legal h.engine
  · exact hostTurn_inv stmt h
  · exact h

end Sys2Proof.Machine
end

section
/-! What every step leaves alone: the pending command's operands during the BUSY window (rules R47, R74), the engine (rule R38),
IRQ (rules R45, R206) and BUSY (rules R100, R101, R231). -/

namespace Sys2Proof.Machine

section HostEffects

variable {stmt : HostStmt} {s u : State}

/-- A soft reset by a host statement. -/
def SoftResetBy (stmt : HostStmt) : Prop := ∃ v : Word, stmt = .access (.regWrite 0x00C#11 v) ∧ v[1] = true

/-- A host statement keeps BUSY and the engine, but for an issue, which keeps the engine, and a soft reset. -/
theorem HostEffect.busy_and_engine (hu : HostEffect stmt s u) :
    (u.status.busy = s.status.busy ∧ u.iir = s.iir) ∨
    (∃ w, stmt = .access (.regWrite 0x008#11 w) ∧ u = issue w (nearer s)) ∨
    (SoftResetBy stmt ∧ u = Machine.softReset (nearer s)) := by
  cases hu with
  | issued w _ is => exact .inr (.inl ⟨w, is, rfl⟩)
  | softReset v is bit => exact .inr (.inr ⟨⟨v, is, bit⟩, rfl⟩)
  | read | cmdRefused | acknowledged | hosterrCleared | irqEnable | refused | operand | stored | ignored =>
    exact .inl ⟨rfl, rfl⟩

/-- During the BUSY window a host statement but a soft reset leaves the window open and the pending command frozen. -/
theorem HostEffect.frozen (hu : HostEffect stmt s u) (busy : s.status.busy = true) :
    (u.status.busy = true ∧ u.cmdLast = s.cmdLast ∧ u.ops = s.ops ∧ u.mem = s.mem ∧ u.pkCount = s.pkCount ∧
      u.iir = s.iir ∧ u.params = s.params ∧ u.errcode = s.errcode) ∨
    (SoftResetBy stmt ∧ u.status.busy = false) := by
  cases hu with
  | softReset v is bit => exact .inr ⟨⟨v, is, bit⟩, rfl⟩
  | issued _ idle | operand _ _ idle | stored _ _ idle | ignored idle => simp [busy] at idle
  | read | cmdRefused | acknowledged | hosterrCleared | irqEnable | refused =>
    exact .inl ⟨busy, rfl, rfl, rfl, rfl, rfl, rfl, rfl⟩

/-- A host statement that leaves IRQ high found it high, or unmasks a pending DONE. -/
theorem HostEffect.irq_high (hu : HostEffect stmt s u) (h : irq u = true) :
    irq s = true ∨
    ∃ v : Word, stmt = .access (.regWrite 0x00C#11 v) ∧ v[1] = false ∧ v[0] = true ∧ s.status.done = true := by
  cases hu with
  | issued | softReset => simp [irq] at h
  | acknowledged v =>
    left
    simp only [irq, writeStatus, nearer, writeOneToClear, Bool.and_eq_true] at h ⊢
    exact ⟨h.1.1, h.2⟩
  | irqEnable v is bit =>
    right
    simp only [irq, nearer, Bool.and_eq_true] at h
    exact ⟨v, is, bit, h.2, h.1⟩
  | read | cmdRefused | hosterrCleared | refused | operand | stored | ignored => exact .inl h

end HostEffects

/-- Only the IIR commands change the engine (rule R38). -/
theorem exec_engine {i : Instr} {s t : State} (h : exec i s = .next t) :
    t.iir = s.iir ∨ i = .iirConfig ∨ i = .iirReset ∨ i = .iirApply := by
  rcases exec_cases h with ⟨-, rfl⟩ | ⟨-, rfl⟩
  · cases i with
    | iirConfig | iirReset | iirApply => simp
    | dilate | erode | opening | peaks => exact .inl rfl
  · exact .inl rfl

/-- Settles O55, by what a host statement can do during the BUSY window. -/
theorem windowFreezesTheOperands : Obligations.WindowFreezesTheOperands := by
  intro s stmt busy
  obtain ⟨u, n, hu, ht⟩ := hostTurn_cases stmt s
  dsimp only
  rw [ht]
  simp only [hostGoto_status, hostGoto_cmdLast, hostGoto_ops, hostGoto_mem, hostGoto_pkCount, hostGoto_iir,
    hostGoto_params, hostGoto_errcode]
  rcases hu.frozen busy with ⟨open_, hframe⟩ | ⟨hreset, closed⟩
  · exact ⟨fun _ => hframe, fun closed => by simp [open_] at closed⟩
  · exact ⟨fun open_ => by simp [closed] at open_, fun _ => hreset⟩

/-- Settles O56, by the three kinds of step. -/
theorem onlyIirCommandsTouchTheEngine : Obligations.OnlyIirCommandsTouchTheEngine := by
  intro s t ht
  rcases step_cases ht with ⟨hturn, i, hi, hexec⟩ | ⟨-, -, rfl⟩ | ⟨stmt, hturn, rfl⟩ | ⟨-, rfl⟩
  · exact (exec_engine hexec).imp_right fun hcmd => .inl ⟨hturn, by simpa [hi] using hcmd⟩
  · exact .inl rfl
  · obtain ⟨u, n, hu, ht⟩ := hostTurn_cases stmt s
    rw [ht, hostGoto_iir]
    rcases hu.busy_and_engine with ⟨-, heq⟩ | ⟨w, -, rfl⟩ | ⟨⟨v, rfl, bit⟩, rfl⟩
    · exact .inl heq
    · exact .inl rfl
    · exact .inr (.inr ⟨v, hturn, bit, rfl⟩)
  · exact .inl rfl

/-- Settles O57: completion keeps IRQ_EN, and of the host statements only one unmasks (`HostEffect.irq_high`). -/
theorem onlyCompletionOrUnmaskingRaisesIrq : Obligations.OnlyCompletionOrUnmaskingRaisesIrq := by
  intro s t ht low high
  have hen : t.irqEn = true := (Bool.and_eq_true_iff.1 high).2
  rcases step_cases ht with ⟨hturn, i, -, hexec⟩ | ⟨hturn, -, rfl⟩ | ⟨stmt, hturn, rfl⟩ | ⟨-, rfl⟩
  · obtain ⟨-, -, -, hsame, -⟩ := exec_sameElsewhere hexec
    exact .inl ⟨hturn, hsame ▸ hen⟩
  · exact .inl ⟨hturn, hen⟩
  · obtain ⟨u, n, hu, ht⟩ := hostTurn_cases stmt s
    rw [ht] at high
    rcases hu.irq_high high with hs | ⟨v, rfl, hunmask⟩
    · simp [low] at hs
    · exact .inr ⟨v, hturn, hunmask⟩
  · simp [low] at high

/-- Settles O58: a core step leaves BUSY 0, and of the host statements only an issue and a soft reset change BUSY. -/
theorem whatOpensAndClosesTheWindow : Obligations.WhatOpensAndClosesTheWindow := by
  intro s t ht
  rcases step_cases ht with ⟨hturn, i, -, hexec⟩ | ⟨hturn, -, rfl⟩ | ⟨stmt, hturn, rfl⟩ | ⟨-, rfl⟩
  · exact ⟨fun _ opened => by simp [exec_busy hexec] at opened, fun _ _ => .inl hturn⟩
  · exact ⟨fun _ opened => by simp at opened, fun _ _ => .inl hturn⟩
  · obtain ⟨u, n, hu, ht⟩ := hostTurn_cases stmt s
    rw [ht, hostGoto_status, hostGoto_cmdLast]
    rcases hu.busy_and_engine with ⟨heq, -⟩ | ⟨w, rfl, rfl⟩ | ⟨⟨v, rfl, bit⟩, rfl⟩
    · rw [heq]
      exact ⟨fun h0 h1 => by simp [h0] at h1, fun h1 h0 => by simp [h1] at h0⟩
    · exact ⟨fun _ _ => ⟨w, hturn, rfl⟩, fun _ closed => by simp at closed⟩
    · exact ⟨fun _ opened => by simp at opened, fun _ _ => .inr ⟨v, hturn, bit⟩⟩
  · exact ⟨fun h0 h1 => by simp [h0] at h1, fun h1 h0 => by simp [h1] at h0⟩

/-- RUN after a command: what its effect makes of it on success, as it was on failure (rules R39, R102). -/
theorem exec_run {i : Instr} {s t : State} (h : exec i s = .next t) :
    t.iir.run = if t.status.err = true then s.iir.run else (performOf i s).iir.run := by
  rcases exec_cases h with ⟨-, rfl⟩ | ⟨hc, rfl⟩
  · rfl
  · simp [hc]

/-- Settles O21: on success RUN is what the command's effect makes it (`exec_run`). -/
theorem idleAndRunningTransitions : Obligations.IdleAndRunningTransitions := by
  refine fun s t => ⟨exec_run, exec_run, exec_run, ?_⟩
  have hkeeps {i : Instr} (hi : (performOf i s).iir = s.iir) (h : exec i s = .next t) : t.iir.run = s.iir.run := by
    simpa [hi] using exec_run h
  rintro (⟨shift, h | h⟩ | h | h)
  · exact hkeeps rfl h
  · exact hkeeps rfl h
  · exact hkeeps rfl h
  · exact hkeeps rfl h

end Sys2Proof.Machine
end

section
/-! The register map (rules R20, R21): every mapped register has one index, so distinct indices never alias. -/

namespace Sys2Proof.Machine

/-- The index of each register of the map of rule R20; `unmapped` has none. -/
def ridxOf : Reg → Nat
  | .id => 0x000
  | .cfgDmemWords => 0x001
  | .cfgMaxOrder => 0x002
  | .cfgMaxWin => 0x003
  | .cmd => 0x008
  | .status => 0x009
  | .errcode => 0x00A
  | .hosterr => 0x00B
  | .ctrl => 0x00C
  | .srcBase => 0x010
  | .srcLen => 0x011
  | .dstBase => 0x012
  | .dstLen => 0x013
  | .winM => 0x014
  | .pkMindist => 0x015
  | .pkMinprom => 0x016
  | .pkCount => 0x017
  | .coefBBase => 0x018
  | .coefBLen => 0x019
  | .coefABase => 0x01A
  | .coefALen => 0x01B
  | .iirOrder => 0x01C
  | .iirB k => 0x100 + k
  | .iirA k => 0x200 + k
  | .iirXH k => 0x300 + k
  | .iirYH k => 0x400 + k
  | .unmapped => 0

theorem ridxOf_windowAt {p : Params} {n : Nat} (h : windowAt p n ≠ .unmapped) : ridxOf (windowAt p n) = n := by
  unfold windowAt at h ⊢
  repeat' split
  all_goals simp_all [ridxOf]

theorem ridxOf_regAt {p : Params} {r : RegIndex} (h : regAt p r ≠ .unmapped) : ridxOf (regAt p r) = r.toNat := by
  unfold regAt at h ⊢
  split
  case h_23 => exact ridxOf_windowAt (by simpa using h)
  all_goals exact Eq.symm ‹_›

/-- No two indices name the same mapped register. -/
theorem regAt_injective {p : Params} {r r' : RegIndex} (h : regAt p r ≠ .unmapped) (heq : regAt p r' = regAt p r) :
    r' = r := by
  apply BitVec.eq_of_toNat_eq
  rw [← ridxOf_regAt h, ← ridxOf_regAt (heq ▸ h), heq]

end Sys2Proof.Machine
end

section
/-! Reads and writes of a register by the kind of register its index names (rules R21, R22, R62, R63, R73, R74). -/

namespace Sys2Proof.Machine

/-- The registers whose writes do more than store an operand (rules R27, R28, R30, R31). -/
def controlRegs : List Reg := [.cmd, .status, .hosterr, .ctrl]

/-- The operand registers (rules R32 to R35, R37). -/
def operandRegs : List Reg :=
  [.srcBase, .srcLen, .dstBase, .dstLen, .winM, .pkMindist, .pkMinprom, .coefBBase, .coefBLen, .coefABase, .coefALen]

theorem not_control_of_operand : ∀ reg ∈ operandRegs, reg ∉ controlRegs := by decide

section Reads

variable {s : State} {r : RegIndex} {reg : Reg}

theorem regReadValue_of_idle (idle : s.status.busy = false) (h : regAt s.params r = reg) :
    regReadValue s r = regWord s reg := by
  simp [regReadValue, idle, h]

/-- The write set names PK_COUNT and engine registers alone (rule R104). -/
theorem le_ridxOf_of_commandWritesReg {c : Option Instr} (h : commandWritesReg c reg = true) : 0x017 ≤ ridxOf reg := by
  unfold commandWritesReg at h
  split at h
  case h_11 => cases h
  all_goals simp only [ridxOf]; omega

/-- A register below PK_COUNT, STATUS apart, reads its value during the BUSY window too, and so does an unmapped index. -/
theorem regReadValue_of_low (h : regAt s.params r = reg) (hlow : ridxOf reg < 0x017) (hne : reg ≠ .status) :
    regReadValue s r = regWord s reg := by
  have hfree : commandWritesReg (decode s.cmdLast) reg = false :=
    Bool.eq_false_iff.2 fun hw => absurd (le_ridxOf_of_commandWritesReg hw) (Nat.not_le.2 hlow)
  simp [regReadValue, h, hne, hfree]

end Reads

section Writes

variable {s : State} {r : RegIndex} {reg : Reg}

theorem regWrite_eq_writeOther (v : Word) (h : regAt s.params r = reg) (hreg : reg ∉ controlRegs) :
    regWrite r v s = writeOther reg v s := by
  subst h
  rcases regWrite_cases r v s with ⟨hc, -⟩ | ⟨hc, -⟩ | ⟨hc, -⟩ | ⟨hc, -⟩ | hother
  iterate 4 exact absurd (by simp [hc, controlRegs]) hreg
  exact hother

theorem writeOther_of_idle (reg : Reg) (v : Word) (idle : s.status.busy = false) :
    writeOther reg v s = { s with ops := writeOperand s.ops v reg } := by
  simp [writeOther, idle]

theorem writeOther_of_busy (reg : Reg) (v : Word) (busy : s.status.busy = true) :
    writeOther reg v s = refuseWrite s := by
  simp [writeOther, busy]

theorem writeOperand_of_not_operand (o : Operands) (v : Word) (h : reg ∉ operandRegs) : writeOperand o v reg = o := by
  cases reg <;> simp_all [writeOperand, operandRegs]

/-- Outside the BUSY window a write to a read-only register or an unmapped index is ignored. -/
theorem regWrite_readOnly (v : Word) (idle : s.status.busy = false) (h : regAt s.params r = reg)
    (hreg : reg ∉ controlRegs ++ operandRegs) : regWrite r v s = s := by
  rw [List.mem_append, not_or] at hreg
  rw [regWrite_eq_writeOther v h hreg.1, writeOther_of_idle reg v idle, writeOperand_of_not_operand _ v hreg.2]

end Writes

end Sys2Proof.Machine
end

section
/-! The operand registers (rules R32 to R35, R37). -/

namespace Sys2Proof.Machine

section OperandFields

variable (o : Operands) (v : Word) (reg : Reg)

theorem writeOperand_srcBase : (writeOperand o v reg).srcBase = if reg = .srcBase then v.setWidth 32 else o.srcBase := by
  cases reg <;> rfl

theorem writeOperand_srcLen : (writeOperand o v reg).srcLen = if reg = .srcLen then v.setWidth 32 else o.srcLen := by
  cases reg <;> rfl

theorem writeOperand_dstBase : (writeOperand o v reg).dstBase = if reg = .dstBase then v.setWidth 32 else o.dstBase := by
  cases reg <;> rfl

theorem writeOperand_dstLen : (writeOperand o v reg).dstLen = if reg = .dstLen then v.setWidth 32 else o.dstLen := by
  cases reg <;> rfl

theorem writeOperand_winM : (writeOperand o v reg).winM = if reg = .winM then v.setWidth 32 else o.winM := by
  cases reg <;> rfl

theorem writeOperand_pkMindist :
    (writeOperand o v reg).pkMindist = if reg = .pkMindist then v.setWidth 32 else o.pkMindist := by
  cases reg <;> rfl

theorem writeOperand_pkMinprom : (writeOperand o v reg).pkMinprom = if reg = .pkMinprom then v else o.pkMinprom := by
  cases reg <;> rfl

theorem writeOperand_coefBBase :
    (writeOperand o v reg).coefBBase = if reg = .coefBBase then v.setWidth 32 else o.coefBBase := by
  cases reg <;> rfl

theorem writeOperand_coefBLen :
    (writeOperand o v reg).coefBLen = if reg = .coefBLen then v.setWidth 32 else o.coefBLen := by
  cases reg <;> rfl

theorem writeOperand_coefABase :
    (writeOperand o v reg).coefABase = if reg = .coefABase then v.setWidth 32 else o.coefABase := by
  cases reg <;> rfl

theorem writeOperand_coefALen :
    (writeOperand o v reg).coefALen = if reg = .coefALen then v.setWidth 32 else o.coefALen := by
  cases reg <;> rfl

end OperandFields

/-- Keeping the low 32 bits of a word is masking it. -/
theorem setWidth_setWidth_eq_and (v : Word) : (v.setWidth 32).setWidth 64 = v &&& 0xFFFFFFFF#64 := by
  apply BitVec.eq_of_toNat_eq
  rw [BitVec.toNat_and, BitVec.toNat_setWidth, BitVec.toNat_setWidth, Nat.mod_eq_of_lt (by omega)]
  exact (Nat.and_two_pow_sub_one_eq_mod v.toNat 32).symm

theorem regWord_writeOperand_same (s : State) (v : Word) {reg : Reg} (h : reg ∈ operandRegs) :
    regWord { s with ops := writeOperand s.ops v reg } reg = if reg = .pkMinprom then v else v &&& 0xFFFFFFFF#64 := by
  simp only [operandRegs, List.mem_cons, List.not_mem_nil, or_false] at h
  rcases h with rfl | rfl | rfl | rfl | rfl | rfl | rfl | rfl | rfl | rfl | rfl <;>
    simp [regWord, writeOperand, setWidth_setWidth_eq_and]

theorem regWord_writeOperand_ne (s : State) (v : Word) {reg reg' : Reg} (h : reg' ≠ reg) :
    regWord { s with ops := writeOperand s.ops v reg } reg' = regWord s reg' := by
  cases reg' <;>
    simp [regWord, statusWord, errcodeWord, hosterrWord, ctrlWord, h.symm, writeOperand_srcBase, writeOperand_srcLen,
      writeOperand_dstBase, writeOperand_dstLen, writeOperand_winM, writeOperand_pkMindist, writeOperand_pkMinprom,
      writeOperand_coefBBase, writeOperand_coefBLen, writeOperand_coefABase, writeOperand_coefALen]

theorem regAt_operand (p : Params) {r : RegIndex}
    (h : r ∈ [0x010#11, 0x011#11, 0x012#11, 0x013#11, 0x014#11, 0x015#11, 0x016#11, 0x018#11, 0x019#11, 0x01A#11, 0x01B#11]) :
    regAt p r ∈ operandRegs ∧ (regAt p r = .pkMinprom ↔ r = 0x016#11) := by
  fin_cases h <;> simp [regAt, operandRegs]

/-- Settles O44: the write replaces one operand (`regWrite_eq_writeOther`), and no other index names the same register
(`regAt_injective`). -/
theorem operandRegistersKeepTheirBits : Obligations.OperandRegistersKeepTheirBits := by
  intro s r r' v idle hr
  obtain ⟨hreg, hprom⟩ := regAt_operand s.params hr
  have hcontrol := not_control_of_operand _ hreg
  have hmapped : regAt s.params r ≠ .unmapped := ne_of_mem_of_not_mem hreg (by decide)
  have hwrite : hostAccess (.regWrite r v) s = { s with ops := writeOperand s.ops v (regAt s.params r) } :=
    (regWrite_eq_writeOther v rfl hcontrol).trans (writeOther_of_idle _ v idle)
  have hread (q : RegIndex) : regReadValue { s with ops := writeOperand s.ops v (regAt s.params r) } q =
      regWord { s with ops := writeOperand s.ops v (regAt s.params r) } (regAt s.params q) := regReadValue_of_idle idle rfl
  rw [hwrite]
  refine ⟨?_, fun hne => ?_, rfl⟩
  · rw [hread, regWord_writeOperand_same s v hreg]
    simp only [hprom]
  · rw [hread, regReadValue_of_idle idle rfl]
    exact regWord_writeOperand_ne s v fun heq => hne (regAt_injective hmapped heq)

end Sys2Proof.Machine
end

section
/-! Unmapped indices (rule R21). -/

namespace Sys2Proof.Machine

/-- Outside the fixed part of the map the four windows decide. -/
theorem regAt_eq_windowAt (p : Params) {r : RegIndex} (hlow : r.toNat ∉ [0, 1, 2, 3, 8, 9, 0xA, 0xB, 0xC])
    (hops : ¬ (0x10 ≤ r.toNat ∧ r.toNat ≤ 0x1C)) : regAt p r = windowAt p r.toNat := by
  unfold regAt
  split
  case h_23 => rfl
  all_goals simp_all

/-- Settles O45: such an index is `unmapped`, which reads 0 in and outside the window and whose write stores no operand. -/
theorem unmappedIndicesReadZero : Obligations.UnmappedIndicesReadZero := by
  intro s r v _ hlow hops hB hA hX hY
  have hmap : regAt s.params r = .unmapped := by
    rw [regAt_eq_windowAt s.params hlow hops, windowAt, if_neg hB, if_neg hA, if_neg hX, if_neg hY]
  refine ⟨regReadValue_of_low hmap (by decide) (by decide), fun idle => ?_, fun busy => ?_⟩
  · exact regWrite_readOnly v idle hmap (by decide)
  · exact (regWrite_eq_writeOther v hmap (by decide)).trans (writeOther_of_busy _ v busy)

end Sys2Proof.Machine
end

section
/-! The values of the read-only registers (rules R22 to R29, R36, R40 to R44, R200). -/

namespace Sys2Proof.Machine

/-- A number below 2^64 reads back from its word. -/
theorem toNat_ofNat_of_lt {n : Nat} (h : n < 2 ^ 64) : (BitVec.ofNat 64 n).toNat = n := by
  rw [BitVec.toNat_ofNat, Nat.mod_eq_of_lt h]

/-- The bounds of rule R4. -/
theorem Params.wf_iff (p : Params) :
    p.wf = true ↔ (1 ≤ p.dmemWords ∧ p.dmemWords ≤ 0x100000000) ∧ (1 ≤ p.maxOrder ∧ p.maxOrder ≤ 255) ∧
      (1 ≤ p.maxWin ∧ p.maxWin ≤ 0xFFFFFFFF) := by
  simp [Params.wf, and_assoc]

theorem errcodeWord_code (s : State) : (errcodeWord s).extractLsb' 0 8 = errorNumber s.errcode.code :=
  BitVec.extractLsb'_append_eq_right

/-- ERRCODE above CODE is the OPC field under zeros. -/
theorem extractLsb'_errcodeWord_of_le (s : State) {start len : Nat} (h : 8 ≤ start) :
    (errcodeWord s).extractLsb' start len = (0#48 ++ s.errcode.opc).extractLsb' (start - 8) len :=
  BitVec.extractLsb'_append_eq_of_le h

theorem errcodeWord_opc (s : State) : (errcodeWord s).extractLsb' 8 8 = s.errcode.opc := by
  rw [extractLsb'_errcodeWord_of_le s (by decide)]
  exact BitVec.extractLsb'_append_eq_right

theorem errcodeWord_zero (s : State) : (errcodeWord s).extractLsb' 16 48 = 0#48 := by
  rw [extractLsb'_errcodeWord_of_le s (by decide)]
  exact BitVec.extractLsb'_append_eq_left

/-- IIR_ORDER reads the order, which an unconfigured engine has at 0 (rules R38, R40). -/
theorem toNat_regWord_iirOrder {s : State} (h : s.Inv) : (regWord s .iirOrder).toNat = s.iir.order := by
  have hmax := ((Params.wf_iff _).1 h.paramsLegal).2.1.2
  have hle := h.engine.orderLe
  cases hcfg : s.iir.cfg with
  | false =>
    have hzero : s.iir.order = 0 := congrArg Iir.order (h.engine.unconfigured hcfg)
    simp [regWord, hcfg, hzero]
  | true =>
    simp only [regWord, hcfg, if_true]
    exact toNat_ofNat_of_lt (by omega)

theorem windowWord_eq (cfg : Bool) (p : Prop) [Decidable p] (x : List Word) (k : Nat) :
    windowWord (cfg && decide p) x k = if cfg = true ∧ p then sampleAt x k else 0#64 := by
  simp [windowWord]

/-- Settles O46: the index's register (`regAt_windows` for the windows), its value, and that its write stores no operand. -/
theorem readOnlyRegisterValues : Obligations.ReadOnlyRegisterValues := by
  intro s h idle
  obtain ⟨hBA, hXY⟩ := regAt_windows h.paramsLegal
  obtain ⟨⟨-, hdmem⟩, ⟨-, horder⟩, -, hwin⟩ := (Params.wf_iff _).1 h.paramsLegal
  have herr : regReadValue s 0x00A#11 = errcodeWord s := regReadValue_of_idle idle rfl
  refine ⟨regReadValue_of_idle idle rfl, ?_, ?_, ?_, regReadValue_of_idle idle rfl, ?_, ?_, ?_, ?_, ?_, fun k hk => ?_,
    fun k hk => ?_, fun v => ⟨fun r hr => ?_, fun k hk => ?_, fun k hk => ?_⟩⟩
  · rw [regReadValue_of_idle (reg := .cfgDmemWords) idle rfl]
    exact toNat_ofNat_of_lt (by omega)
  · rw [regReadValue_of_idle (reg := .cfgMaxOrder) idle rfl]
    exact toNat_ofNat_of_lt (by omega)
  · rw [regReadValue_of_idle (reg := .cfgMaxWin) idle rfl]
    exact toNat_ofNat_of_lt (by omega)
  · rw [herr, errcodeWord_code]
    cases s.errcode.code <;> rfl
  · rw [herr, errcodeWord_opc]
  · rw [herr, errcodeWord_zero]
  · rw [regReadValue_of_idle (reg := .pkCount) idle rfl, regWord, BitVec.toNat_setWidth_of_le (by decide)]
  · rw [regReadValue_of_idle (reg := .iirOrder) idle rfl, toNat_regWord_iirOrder h]
  · obtain ⟨hB, hA⟩ := hBA k hk
    rw [regReadValue_of_idle idle hB, regReadValue_of_idle idle hA]
    exact ⟨windowWord_eq _ _ _ _, windowWord_eq _ _ _ _⟩
  · obtain ⟨hX, hY⟩ := hXY k hk
    rw [regReadValue_of_idle idle hX, regReadValue_of_idle idle hY]
    exact ⟨windowWord_eq _ _ _ _, windowWord_eq _ _ _ _⟩
  · have hro : regAt s.params r ∉ controlRegs ++ operandRegs := by
      fin_cases hr <;> simp [regAt, controlRegs, operandRegs]
    exact regWrite_readOnly v idle rfl hro
  · obtain ⟨hB, hA⟩ := hBA k hk
    exact ⟨regWrite_readOnly v idle hB (by simp [controlRegs, operandRegs]),
      regWrite_readOnly v idle hA (by simp [controlRegs, operandRegs])⟩
  · obtain ⟨hX, hY⟩ := hXY k hk
    exact ⟨regWrite_readOnly v idle hX (by simp [controlRegs, operandRegs]),
      regWrite_readOnly v idle hY (by simp [controlRegs, operandRegs])⟩

end Sys2Proof.Machine
end

section
/-! STATUS, HOSTERR and CTRL bit by bit (rules R28, R30, R31), and IRQ (rules R45, R105). -/

namespace Sys2Proof.Machine

/-- One flag at a time off the low end of a register image. -/
theorem getLsbD_append_ofBool {n : Nat} (x : BitVec n) (b : Bool) (k : Nat) :
    (x ++ BitVec.ofBool b).getLsbD k = if k = 0 then b else x.getLsbD (k - 1) := by
  rw [BitVec.getLsbD_append]
  rcases k with _ | k <;> simp

theorem getLsbD_statusImage (run cfg err done busy : Bool) (k : Nat) :
    (statusImage run cfg err done busy).getLsbD k =
      if k = 0 then busy else if k = 1 then done else if k = 2 then err else if k = 3 then cfg else if k = 4 then run
        else false := by
  have hbits : (0#59 ++ BitVec.ofBool run ++ BitVec.ofBool cfg ++ BitVec.ofBool err ++ BitVec.ofBool done ++
      BitVec.ofBool busy).getLsbD k = if k = 0 then busy else if k = 1 then done else if k = 2 then err
        else if k = 3 then cfg else if k = 4 then run else false := by
    simp only [getLsbD_append_ofBool, BitVec.getLsbD_zero]
    rcases k with _ | _ | _ | _ | _ | k <;> rfl
  exact hbits

theorem getLsbD_hosterrWord (s : State) (k : Nat) :
    (hosterrWord s).getLsbD k = if k = 0 then s.hosterr.wrBusy else if k = 1 then s.hosterr.cmdBusy else false := by
  have hbits : (0#62 ++ BitVec.ofBool s.hosterr.cmdBusy ++ BitVec.ofBool s.hosterr.wrBusy).getLsbD k =
      if k = 0 then s.hosterr.wrBusy else if k = 1 then s.hosterr.cmdBusy else false := by
    simp only [getLsbD_append_ofBool, BitVec.getLsbD_zero]
    rcases k with _ | _ | k <;> rfl
  exact hbits

theorem getLsbD_ctrlWord (s : State) (k : Nat) : (ctrlWord s).getLsbD k = if k = 0 then s.irqEn else false := by
  have hbits : (0#63 ++ BitVec.ofBool s.irqEn).getLsbD k = if k = 0 then s.irqEn else false := by
    simp only [getLsbD_append_ofBool, BitVec.getLsbD_zero]
  exact hbits

theorem writeOneToClear_eq (old written : Bool) : writeOneToClear old written = if written = true then false else old := by
  cases written <;> simp [writeOneToClear]

/-- Settles O47, register by register. -/
theorem statusAndControlBits : Obligations.StatusAndControlBits := by
  intro s v
  have hstatus : hostAccess (.regWrite 0x009#11 v) s = writeStatus v s := rfl
  have hctrl : hostAccess (.regWrite 0x00C#11 v) s = writeCtrl v s := rfl
  refine ⟨fun idle k _ => ?_, fun k _ => ?_, fun k _ => ?_, fun hv => ?_, fun hv => ?_, ?_, fun hv => ?_, ?_⟩
  · have hread : regReadValue s 0x009#11 = statusWord s := regReadValue_of_idle idle rfl
    rw [hread, statusWord, getLsbD_statusImage, idle]
    rcases k with _ | k <;> rfl
  · have hread : regReadValue s 0x00B#11 = hosterrWord s := regReadValue_of_low (reg := .hosterr) rfl (by decide) (by decide)
    rw [hread, getLsbD_hosterrWord]
  · have hread : regReadValue s 0x00C#11 = ctrlWord s := regReadValue_of_low (reg := .ctrl) rfl (by decide) (by decide)
    rw [hread, getLsbD_ctrlWord]
  · rw [hstatus, writeStatus, hv]
    simp [writeOneToClear_eq, irq]
  · rw [hstatus, writeStatus, hv]
    simp [writeOneToClear_eq]
  · have hhosterr : hostAccess (.regWrite 0x00B#11 v) s = writeHosterr v s := rfl
    simp only [hhosterr, writeHosterr, writeOneToClear_eq]
  · rw [hctrl, writeCtrl, hv]
    rfl
  · exact Bool.and_eq_true_iff

end Sys2Proof.Machine
end

section
/-! What a command writes (rules R70, R126, R149): its output words, computed from the input before any word is written. -/

namespace Sys2Proof.Machine

/-- The words a command writes at DST_BASE. -/
def outputOf : Instr → State → List Word
  | .iirConfig, _ => []
  | .iirReset, _ => []
  | .iirApply, s => recursion s.iir (inputSignal s)
  | .dilate shift, s => dilateSeq (inputSignal s) s.ops.winM.toNat shift
  | .erode shift, s => erodeSeq (inputSignal s) s.ops.winM.toNat shift
  | .opening, s => openSeq (inputSignal s) s.ops.winM.toNat
  | .peaks, s => (peaksOf s).map (fun p => BitVec.ofNat 64 p)

theorem mem_performOf (i : Instr) (s : State) :
    (performOf i s).mem = Memory.writeWords s.mem s.ops.dstBase.toNat (outputOf i s) := by
  cases i <;> rfl

/-- Every command that writes DMEM, PEAKS apart, writes one word per input word (rules R126, R163). -/
theorem length_outputOf {i : Instr} (s : State) (hconfig : i ≠ .iirConfig) (hreset : i ≠ .iirReset)
    (hpeaks : i ≠ .peaks) : (outputOf i s).length = s.ops.srcLen.toNat := by
  cases i with
  | iirConfig => exact absurd rfl hconfig
  | iirReset => exact absurd rfl hreset
  | peaks => exact absurd rfl hpeaks
  | iirApply | dilate | erode | opening => simp [outputOf]

section EqualInputs

variable {s s' : State}

theorem peaksOf_congr (hin : inputSignal s = inputSignal s') (hdist : s.ops.pkMindist = s'.ops.pkMindist)
    (hprom : s.ops.pkMinprom = s'.ops.pkMinprom) : peaksOf s = peaksOf s' := by
  rw [peaksOf, peaksOf, hin, hdist, hprom]

theorem outputOf_congr {i : Instr} (hin : inputSignal s = inputSignal s') (hwin : s.ops.winM = s'.ops.winM)
    (hdist : s.ops.pkMindist = s'.ops.pkMindist) (hprom : s.ops.pkMinprom = s'.ops.pkMinprom)
    (hiir : i = .iirApply → s.iir = s'.iir) : outputOf i s = outputOf i s' := by
  cases i with
  | iirConfig => rfl
  | iirReset => rfl
  | iirApply => rw [outputOf, outputOf, hin, hiir rfl]
  | dilate | erode | opening => rw [outputOf, outputOf, hin, hwin]
  | peaks => rw [outputOf, outputOf, peaksOf_congr hin hdist hprom]

end EqualInputs

/-- An output word of a successful command, as DMEM holds it afterwards. -/
theorem readWord_of_success {i : Instr} {s t : State} (h : exec i s = .next t) (ht : t.status.err = false) {k : Nat}
    (hk : k < (outputOf i s).length) :
    Memory.readWord t.mem (s.ops.dstBase.toNat + k) = (outputOf i s).getD k 0#64 := by
  obtain ⟨-, rfl⟩ := exec_success h ht
  rw [complete_mem, mem_performOf]
  exact Memory.readWord_writeWords _ _ _ _ hk

theorem pkCount_of_success {s t : State} (h : exec .peaks s = .next t) (ht : t.status.err = false) :
    t.pkCount = BitVec.ofNat 32 (peaksOf s).length := by
  obtain ⟨-, rfl⟩ := exec_success h ht
  rfl

/-- Settles O22: the words written are a function of the input, the operands and the engine (`outputOf_congr`), and they read
back wherever they were written (`readWord_of_success`). -/
theorem outputDependsOnlyOnOperands : Obligations.OutputDependsOnlyOnOperands := by
  intro i s s' t t' _ hin hwin hdist hprom hiir hconfig hreset h h' ht ht'
  have hout := outputOf_congr hin hwin hdist hprom hiir
  refine ⟨?_, fun k hk => ?_⟩
  · rintro rfl
    rw [pkCount_of_success h ht, pkCount_of_success h' ht', peaksOf_congr hin hdist hprom]
  · have hlen : k < (outputOf i s).length := by
      split at hk
      next hi =>
        subst hi
        rw [pkCount_of_success h ht, BitVec.toNat_ofNat] at hk
        rw [outputOf, List.length_map]
        exact hk.trans_le (Nat.mod_le _ _)
      next hi => rwa [length_outputOf s hconfig hreset hi]
    rw [readWord_of_success h ht hlen, readWord_of_success h' ht' (hout ▸ hlen), hout]

end Sys2Proof.Machine
end

section
/-! Host DMEM accesses outside the BUSY window (rules R64, R65, R240). -/

namespace Sys2Proof.Machine

section Idle

variable {s : State} (idle : s.status.busy = false)
include idle

theorem memReadValue_of_idle (a : Nat) :
    memReadValue s a = if a < s.params.dmemWords then Memory.readWord s.mem a else 0#64 := by
  simp [memReadValue, idle]

/-- Read after write, by the host. -/
theorem memReadValue_writeWord (a b : Nat) (v : Word) :
    memReadValue { s with mem := Memory.writeWord s.mem a v } b =
      if b < s.params.dmemWords then (if b = a then v else Memory.readWord s.mem b) else 0#64 := by
  rw [memReadValue_of_idle (s := { s with mem := Memory.writeWord s.mem a v }) idle, Memory.readWord_writeWord]

theorem memWrite_of_idle {a : Nat} (v : Word) (ha : a < s.params.dmemWords) :
    memWrite a v s = { s with mem := Memory.writeWord s.mem a v } := by
  simp [memWrite, idle, ha]

theorem memWrite_past_end {a : Nat} (v : Word) (ha : s.params.dmemWords ≤ a) : memWrite a v s = s := by
  simp [memWrite, idle, Nat.not_lt.2 ha]

end Idle

/-- Writing one word leaves every byte lane of the other words alone. -/
theorem Memory.sameOutside_writeWord (m : Memory) (a : Nat) (v : Word) :
    sameOutside m (Memory.writeWord m a v) a 1 := by
  intro b hb
  rw [Memory.readByte_writeWord, if_neg (by omega)]

/-- Settles O43: a write inside DMEM puts one word (`memWrite_of_idle`), read back by `Memory.readWord_writeWord`; a lane of a
word read is the byte the lane holds (`byteLane_readWord`). -/
theorem hostMemoryAccess : Obligations.HostMemoryAccess := by
  intro s a v idle
  refine ⟨fun ha => ?_, fun ha => ⟨?_, memWrite_past_end idle v ha⟩⟩
  · have hwrite : hostAccess (.memWrite a v) s = { s with mem := Memory.writeWord s.mem a v } :=
      memWrite_of_idle idle v ha
    rw [hwrite]
    refine ⟨?_, fun b hb => ?_, Memory.sameOutside_writeWord s.mem a v, rfl, fun k hk => ?_⟩
    · rw [memReadValue_writeWord idle, if_pos ha, if_pos rfl]
    · rw [memReadValue_writeWord idle, if_neg hb, memReadValue_of_idle idle]
    · rw [memReadValue_of_idle idle, if_pos ha, ← Memory.readByte_unwritten hk]
      exact byteLane_readWord s.mem a k.val k.isLt
  · rw [memReadValue_of_idle idle, if_neg (Nat.not_lt.2 ha)]

end Sys2Proof.Machine
end

section
/-! Host writes during the BUSY window (rule R74). -/

namespace Sys2Proof.Machine

/-- CMD, STATUS, HOSTERR and CTRL have one index each. -/
theorem index_of_regAt_control {p : Params} {r : RegIndex} (h : regAt p r ∈ controlRegs) :
    r ∈ [0x008#11, 0x009#11, 0x00B#11, 0x00C#11] := by
  have hidx := ridxOf_regAt (ne_of_mem_of_not_mem h (by decide : Reg.unmapped ∉ controlRegs))
  have hmem : ∀ reg ∈ controlRegs, ridxOf reg ∈ [0x008, 0x009, 0x00B, 0x00C] := by decide
  have hnum := hmem _ h
  rw [hidx] at hnum
  simpa [← BitVec.toNat_inj] using hnum

/-- Settles O48: of the registers only the four of `controlRegs` take a write during the window. -/
theorem hostWritesDuringTheWindow : Obligations.HostWritesDuringTheWindow := by
  intro s v busy
  have hcmd : hostAccess (.regWrite 0x008#11 v) s = writeCmd v s := rfl
  have hstatus : hostAccess (.regWrite 0x009#11 v) s = writeStatus v s := rfl
  have hhosterr : hostAccess (.regWrite 0x00B#11 v) s = writeHosterr v s := rfl
  refine ⟨?_, ?_, ?_, rfl, fun r hr => ?_, fun a => ?_⟩
  · rw [hcmd, writeCmd, if_pos busy]
  · rw [hstatus, writeStatus, writeOneToClear_eq]
  · rw [hhosterr, writeHosterr, writeOneToClear_eq, writeOneToClear_eq]
  · exact (regWrite_eq_writeOther v rfl (mt index_of_regAt_control hr)).trans (writeOther_of_busy _ v busy)
  · exact if_pos busy

end Sys2Proof.Machine
end

section
/-! Host reads during the BUSY window (rules R73, R104): the write set by register index and by DMEM address. -/

namespace Sys2Proof.Machine

/-- The registers of the write set of rule R104, STATUS apart, command by command. -/
theorem commandWritesReg_iff (c : Option Instr) (reg : Reg) :
    commandWritesReg c reg = true ↔
      (c = some .iirConfig ∧ (reg = .iirOrder ∨ (∃ k, reg = .iirB k) ∨ (∃ k, reg = .iirA k) ∨ (∃ k, reg = .iirXH k) ∨
        ∃ k, reg = .iirYH k)) ∨
      (c = some .iirReset ∧ ((∃ k, reg = .iirXH k) ∨ ∃ k, reg = .iirYH k)) ∨
      (c = some .iirApply ∧ ((∃ k, reg = .iirXH k) ∨ ∃ k, reg = .iirYH k)) ∨
      (c = some .peaks ∧ reg = .pkCount) := by
  rcases c with _ | i
  · simp [commandWritesReg]
  · cases i with
    | iirConfig | iirReset | iirApply | peaks => cases reg <;> simp [commandWritesReg]
    | dilate | erode | opening => simp [commandWritesReg]

/-- A mapped register is named by its one index alone. -/
theorem regAt_eq_iff {p : Params} {r r' : RegIndex} {reg : Reg} (h : regAt p r' = reg) (hreg : reg ≠ .unmapped) :
    regAt p r = reg ↔ r = r' := by
  subst h
  exact ⟨regAt_injective hreg, fun h => h ▸ rfl⟩

/-- The ranges of the four windows, which are apart for every legal MAX_ORDER (rules R20, R41 to R44). -/
theorem windowAt_ranges {p : Params} (hp : p.wf = true) (n : Nat) :
    ((∃ k, windowAt p n = .iirB k) ↔ 0x100 ≤ n ∧ n < 0x101 + p.maxOrder) ∧
    ((∃ k, windowAt p n = .iirA k) ↔ 0x200 ≤ n ∧ n < 0x201 + p.maxOrder) ∧
    ((∃ k, windowAt p n = .iirXH k) ↔ 0x300 ≤ n ∧ n < 0x300 + p.maxOrder) ∧
    ((∃ k, windowAt p n = .iirYH k) ↔ 0x400 ≤ n ∧ n < 0x400 + p.maxOrder) := by
  have hmax := ((Params.wf_iff p).1 hp).2.1.2
  unfold windowAt
  split_ifs <;> simp <;> omega

/-- The indices of the four windows. -/
theorem regAt_window_ranges {p : Params} (hp : p.wf = true) (r : RegIndex) :
    ((∃ k, regAt p r = .iirB k) ↔ 0x100 ≤ r.toNat ∧ r.toNat < 0x101 + p.maxOrder) ∧
    ((∃ k, regAt p r = .iirA k) ↔ 0x200 ≤ r.toNat ∧ r.toNat < 0x201 + p.maxOrder) ∧
    ((∃ k, regAt p r = .iirXH k) ↔ 0x300 ≤ r.toNat ∧ r.toNat < 0x300 + p.maxOrder) ∧
    ((∃ k, regAt p r = .iirYH k) ↔ 0x400 ≤ r.toNat ∧ r.toNat < 0x400 + p.maxOrder) := by
  unfold regAt
  split
  case h_23 => exact windowAt_ranges hp _
  all_goals simp_all

/-- A DMEM word of the write set: in the output region and below DMEM_WORDS (rule R104). -/
theorem inWriteSet_iff (s : State) (a : Nat) :
    inWriteSet s a = true ↔ s.ops.dstBase.toNat ≤ a ∧
      a < s.ops.dstBase.toNat + writeSetLength s.ops (decode s.cmdLast) ∧ a < s.params.dmemWords := by
  simp only [inWriteSet, writeSetWords, Bool.and_eq_true, decide_eq_true_eq, ← Nat.add_min_add_left, lt_min_iff]
  omega

section Busy

variable {s : State} {r : RegIndex}

theorem regReadValue_of_written (busy : s.status.busy = true)
    (h : commandWritesReg (decode s.cmdLast) (regAt s.params r) = true) : regReadValue s r = Config.freeWord s.draws := by
  have hne : regAt s.params r ≠ .status := by
    intro heq
    have hle := le_ridxOf_of_commandWritesReg h
    rw [heq] at hle
    exact absurd hle (by decide)
  simp [regReadValue, busy, hne, h]

/-- A register outside the write set reads its value in and outside the BUSY window. -/
theorem regReadValue_of_unwritten (hne : regAt s.params r ≠ .status)
    (h : ¬ commandWritesReg (decode s.cmdLast) (regAt s.params r) = true) :
    regReadValue s r = regWord s (regAt s.params r) := by
  simp [regReadValue, hne, h]

/-- Of the registers only STATUS holds BUSY. -/
theorem regWord_of_closed {reg : Reg} (hne : reg ≠ .status) :
    regWord { s with status := { s.status with busy := false } } reg = regWord s reg := by
  cases reg with
  | status => exact absurd rfl hne
  | _ => rfl

theorem memReadValue_of_busy (busy : s.status.busy = true) (a : Nat) :
    memReadValue s a =
      if a < s.params.dmemWords then (if inWriteSet s a = true then Config.freeWord s.draws else Memory.readWord s.mem a)
      else 0#64 := by
  simp [memReadValue, busy]

end Busy

/-- STATUS during the BUSY window (rules R73, R104): BUSY alone of the bits that are always exact, and the engine's two bits
where the pending command cannot write them. -/
theorem getLsbD_busyStatusWord {s : State} (h : s.Inv) (busy : s.status.busy = true) (k : Nat) :
    (busyStatusWord s).getLsbD k =
      if k = 0 then true else if k = 1 then false else if k = 2 then false
        else if k = 3 then (if commandWritesCfg (decode s.cmdLast) = true then (Config.freeWord s.draws)[3] else s.iir.cfg)
        else if k = 4 then (if commandWritesRun (decode s.cmdLast) = true then (Config.freeWord s.draws)[4] else s.iir.run)
        else false := by
  obtain ⟨hdone, herr, -⟩ := h.busyClears busy
  simp only [busyStatusWord]
  rw [getLsbD_statusImage, hdone, herr, busy]

theorem commandWritesCfg_iff (c : Option Instr) : commandWritesCfg c = true ↔ c = some .iirConfig := by
  rcases c with _ | i
  · simp [commandWritesCfg]
  · cases i <;> simp [commandWritesCfg]

theorem commandWritesRun_iff (c : Option Instr) :
    commandWritesRun c = true ↔ c = some .iirConfig ∨ c = some .iirReset ∨ c = some .iirApply := by
  rcases c with _ | i
  · simp [commandWritesRun]
  · cases i <;> simp [commandWritesRun]

/-- Settles O49: the write set by index (`commandWritesReg_iff`, `regAt_window_ranges`) and by address (`inWriteSet_iff`), the
value read in and outside it, and STATUS bit by bit. -/
theorem hostReadsDuringTheWindow : Obligations.HostReadsDuringTheWindow := by
  intro s h busy c iirWindow config history written length
  have hcmd : c = decode s.cmdLast := rfl
  obtain ⟨-, -, hcode⟩ := h.busyClears busy
  have hwritten (r : RegIndex) : commandWritesReg c (regAt s.params r) = true ↔ written r := by
    obtain ⟨hB, hA, hX, hY⟩ := regAt_window_ranges h.paramsLegal r
    rw [commandWritesReg_iff, hB, hA, hX, hY, regAt_eq_iff (reg := .iirOrder) (r' := 0x01C#11) rfl (by decide),
      regAt_eq_iff (reg := .pkCount) (r' := 0x017#11) rfl (by decide)]
  have hlength : writeSetLength s.ops c = length := by
    rcases hc : c with _ | i
    · simp [length, hc, writeSetLength]
    · cases i <;> simp [length, hc, writeSetLength, maxPeaks_eq]
  have hmem (a : Nat) : inWriteSet s a = true ↔ s.ops.dstBase.toNat ≤ a ∧ a < s.ops.dstBase.toNat + length ∧
      a < s.params.dmemWords := by
    rw [inWriteSet_iff, ← hlength]
  have hstatus : regReadValue s 0x009#11 = busyStatusWord s := by simp [regReadValue, busy, regAt]
  have hbit := getLsbD_busyStatusWord h busy
  refine ⟨fun r hr => ?_, fun r hne hr => ?_, fun k hk => ?_, fun k hk => ?_, fun hc => ?_, fun h1 h2 h3 => ?_, ?_,
    regReadValue_of_low (reg := .cmd) rfl (by decide) (by decide), fun a hlo hhi ha => ?_, fun a ha => ?_⟩
  · exact regReadValue_of_written busy ((hwritten r).2 hr)
  · have hreg : regAt s.params r ≠ .status := fun heq =>
      hne ((regAt_eq_iff (reg := .status) rfl (by decide)).1 heq)
    rw [regReadValue_of_unwritten hreg (mt (hwritten r).1 hr), regReadValue_of_idle rfl rfl]
    exact (regWord_of_closed hreg).symm
  · rw [hstatus, hbit]
    interval_cases k <;> rfl
  · rw [hstatus, hbit]
    simp (disch := omega) only [if_neg]
  · rw [hstatus, ← BitVec.getLsbD_eq_getElem, hbit]
    simp [commandWritesCfg_iff, ← hcmd, hc]
  · rw [hstatus, ← BitVec.getLsbD_eq_getElem, hbit]
    simp [commandWritesRun_iff, ← hcmd, h1, h2, h3]
  · have hread : regReadValue s 0x00A#11 = errcodeWord s := regReadValue_of_low (reg := .errcode) rfl (by decide) (by decide)
    rw [hread, errcodeWord, hcode]
    rfl
  · rw [memReadValue_of_busy busy, if_pos ha, if_pos ((hmem a).2 ⟨hlo, hhi, ha⟩)]
  · rw [memReadValue_of_busy busy, if_neg (mt (hmem a).1 ha)]

end Sys2Proof.Machine
end

section
/-! Host statements in program order (rules R62, R63, R68, R87). -/

namespace Sys2Proof.Machine

theorem turn_host_iff (s : State) (stmt : HostStmt) :
    turn s = .host stmt ↔ nextStmt s = some stmt ∧ (s.status.busy = true → s.coreDelay ≠ 0) := by
  unfold turn
  split
  next hnone =>
    rw [hnone]
    split <;> simp
  next stmt' hsome =>
    rw [hsome]
    split <;> simp_all

theorem step_of_turn_host {s : State} {stmt : HostStmt} (h : turn s = .host stmt) : step s = .next (hostTurn stmt s) := by
  rw [step, advance, h]

theorem hostAccess_effect (a : HostAccess) (s : State) : HostEffect (.access a) s (hostAccess a (nearer s)) := by
  cases a with
  | regRead r => exact .read _
  | memRead a => exact .read _
  | regWrite r v => exact regWrite_effect r v s
  | memWrite a v => exact memWrite_effect a v s

/-- No host statement changes the host's program. -/
theorem HostEffect.script {stmt : HostStmt} {s u : State} (h : HostEffect stmt s u) :
    u.host.script = s.host.script := by
  cases h <;> rfl

/-- Settles O13: the turn (`turn_host_iff`), then the step is the statement's access and the host's going on. -/
theorem hostStatementsInProgramOrder : Obligations.HostStatementsInProgramOrder :=
  ⟨turn_host_iff, fun s a h => ⟨step_of_turn_host h, (hostAccess_effect a s).script⟩,
    fun _ _ _ _ h => ⟨step_of_turn_host h, rfl, rfl⟩, fun _ _ _ => rfl⟩

/-- Settles O42: a host read is `reply`. -/
theorem hostReadsChangeNothing : Obligations.HostReadsChangeNothing :=
  fun _ => ⟨fun _ => rfl, fun _ => rfl⟩

end Sys2Proof.Machine
end

section
/-! Commands and their words: the decoder and the encoder field by field (rules R80 to R85). -/

namespace Sys2Proof

/-- A word is its three fields in their places (rule R80). -/
theorem word_ext_fields {w v : Word} (hrsv : rsvField w = rsvField v) (hshift : shiftField w = shiftField v)
    (hopc : opcField w = opcField v) : w = v := by
  refine BitVec.eq_of_getLsbD_eq fun k hk => ?_
  have hlow := congrArg (·.getLsbD k) hopc
  have hhigh := congrArg (·.getLsbD (k - 9)) hrsv
  simp only [opcField, rsvField, BitVec.getLsbD_extractLsb', Nat.zero_add] at hlow hhigh
  obtain hk8 | rfl | hk9 : k < 8 ∨ k = 8 ∨ 9 ≤ k := by omega
  · simpa [hk8] using hlow
  · simpa [shiftField] using hshift
  · simpa [hk9, show k - 9 < 55 by omega] using hhigh

@[simp] theorem rsvField_encode (i : Instr) : rsvField (encode i) = 0#55 := by
  cases i with
  | dilate shift => cases shift <;> rfl
  | erode shift => cases shift <;> rfl
  | _ => rfl

@[simp] theorem shiftField_encode_dilate (shift : Bool) : shiftField (encode (.dilate shift)) = shift := by
  cases shift <;> rfl

@[simp] theorem shiftField_encode_erode (shift : Bool) : shiftField (encode (.erode shift)) = shift := by
  cases shift <;> rfl

@[simp] theorem opcField_encode_dilate (shift : Bool) : opcField (encode (.dilate shift)) = 0x10#8 := by
  cases shift <;> rfl

@[simp] theorem opcField_encode_erode (shift : Bool) : opcField (encode (.erode shift)) = 0x11#8 := by
  cases shift <;> rfl

theorem unshifted_eq_ok_iff {shift : Bool} {i j : Instr} : unshifted shift i = .ok j ↔ shift = false ∧ i = j := by
  cases shift <;> simp [unshifted]

theorem unshifted_eq_error_iff {shift : Bool} {i : Instr} {e : Illegal} :
    unshifted shift i = .error e ↔ shift = true ∧ .shiftNotAllowed = e := by
  cases shift <;> simp [unshifted]

theorem decode_eq_some_iff {w : Word} {i : Instr} : decode w = some i ↔ decodeCommand w = .ok i := by
  cases h : decodeCommand w <;> simp [decode, h]

theorem decode_eq_none_iff {w : Word} : decode w = none ↔ ∃ e, decodeCommand w = .error e := by
  cases h : decodeCommand w <;> simp [decode, h]

/-- A legal word has the fields of its command's word. -/
theorem fields_of_decodeCommand {w : Word} {i : Instr} (h : decodeCommand w = .ok i) :
    rsvField w = 0#55 ∧ shiftField w = shiftField (encode i) ∧ opcField w = opcField (encode i) := by
  unfold decodeCommand at h
  split at h
  · cases h
  · next hrsv =>
    refine ⟨not_not.1 hrsv, ?_⟩
    split at h
    case h_4 hopc => cases h; simp [hopc]
    case h_5 hopc => cases h; simp [hopc]
    case h_8 => cases h
    all_goals
      next hopc =>
      obtain ⟨hshift, rfl⟩ := unshifted_eq_ok_iff.1 h
      exact ⟨hshift, hopc⟩

theorem decode_encode (i : Instr) : decode (encode i) = some i := by
  cases i with
  | dilate shift => cases shift <;> rfl
  | erode shift => cases shift <;> rfl
  | _ => rfl

theorem encode_of_decode {w : Word} {i : Instr} (h : decode w = some i) : encode i = w := by
  obtain ⟨hrsv, hshift, hopc⟩ := fields_of_decodeCommand (decode_eq_some_iff.1 h)
  exact word_ext_fields ((rsvField_encode i).trans hrsv.symm) hshift.symm hopc.symm

/-- Settles O2: a decoded word has its command's fields (`encode_of_decode`), and each command's word decodes to it. -/
theorem decodeInvertsEncode : Obligations.DecodeInvertsEncode := by
  refine fun w i => ⟨encode_of_decode, ?_⟩
  rintro rfl
  exact decode_encode i

/-- Settles O1, by O2: the words are what `encode` gives. -/
theorem commandWordsInFull : Obligations.CommandWordsInFull := by
  have both {w : Word} {i : Instr} (h : encode i = w) : decode w = some i ∧ encode i = w :=
    ⟨(decodeInvertsEncode w i).2 h, h⟩
  exact ⟨both rfl, both rfl, both rfl, both rfl, both rfl, both rfl, both rfl, both rfl, both rfl⟩

end Sys2Proof
end

section
/-! The opcode table against the decoder (rules R81, R83). -/

namespace Sys2Proof

/-- Exactly the row with the command's mnemonic covers the command's word. -/
theorem row_covers_encode_iff (i : Instr) {r : OpRow} (hr : r ∈ opcodeTable) :
    encode i &&& r.mask = r.pattern ↔ r.mnemonic = mnemonicOf i := by
  have hrow : Laws.TableRow.Statement i := by
    cases i with
    | iirConfig => exact Laws.TableRow.iirConfig
    | iirReset => exact Laws.TableRow.iirReset
    | iirApply => exact Laws.TableRow.iirApply
    | dilate shift => exact Laws.TableRow.dilate shift
    | erode shift => exact Laws.TableRow.erode shift
    | opening => exact Laws.TableRow.opening
    | peaks => exact Laws.TableRow.peaks
  obtain ⟨-, hfilter⟩ := hrow
  have hmem := congrArg (r ∈ ·) hfilter
  simpa [hr, OpRow.covers] using hmem

theorem exists_row_of_mnemonic (i : Instr) : ∃ r ∈ opcodeTable, r.mnemonic = mnemonicOf i := by
  cases i <;> simp [opcodeTable, mnemonicOf]

/-- The mask of DILATE and ERODE leaves out SHIFT alone (rule R82). -/
theorem or_shiftBit_of_and_mask {w p : Word} (h : w &&& 0xFFFFFFFFFFFFFEFF#64 = p) : p ||| shiftBit (shiftField w) = w := by
  have hbit : shiftBit (shiftField w) = w &&& 0x100#64 :=
    (BitVec.and_twoPow w 8).symm
  rw [← h, hbit, ← BitVec.and_or_distrib_left]
  exact BitVec.and_allOnes

/-- A word that a row of the table covers is a command's word. -/
theorem exists_encode_of_row {w : Word} {r : OpRow} (hr : r ∈ opcodeTable) (h : w &&& r.mask = r.pattern) :
    ∃ i, encode i = w := by
  have whole {p : Word} (h : w &&& 0xFFFFFFFFFFFFFFFF#64 = p) : p = w := h.symm.trans BitVec.and_allOnes
  simp only [opcodeTable, List.mem_cons, List.not_mem_nil, or_false] at hr
  obtain rfl | rfl | rfl | rfl | rfl | rfl | rfl := hr
  · exact ⟨.iirConfig, whole h⟩
  · exact ⟨.iirReset, whole h⟩
  · exact ⟨.iirApply, whole h⟩
  · exact ⟨.dilate (shiftField w), or_shiftBit_of_and_mask h⟩
  · exact ⟨.erode (shiftField w), or_shiftBit_of_and_mask h⟩
  · exact ⟨.opening, whole h⟩
  · exact ⟨.peaks, whole h⟩

/-- Settles O3: decoding is encoding backwards, and the rows cover exactly the commands' words. -/
theorem opcodeTableDecidesDecode : Obligations.OpcodeTableDecidesDecode := by
  refine fun w => ⟨⟨?_, ?_⟩, fun i hi r hr hcov => ?_⟩
  · rintro ⟨i, hi⟩
    obtain rfl := encode_of_decode hi
    obtain ⟨r, hr, hname⟩ := exists_row_of_mnemonic i
    exact ⟨r, hr, (row_covers_encode_iff i hr).2 hname⟩
  · rintro ⟨r, hr, hcov⟩
    obtain ⟨i, rfl⟩ := exists_encode_of_row hr hcov
    exact ⟨i, decode_encode i⟩
  · obtain rfl := encode_of_decode hi
    exact (row_covers_encode_iff i hr).1 hcov

end Sys2Proof
end

section
/-! ILLEGAL command words (rule R84). -/

namespace Sys2Proof.Machine

/-- The three classes of rule R84, by field. -/
theorem decode_eq_none_iff_fields (w : Word) :
    decode w = none ↔
      rsvField w ≠ 0#55 ∨
      opcField w ∉ [0x01#8, 0x02#8, 0x03#8, 0x10#8, 0x11#8, 0x12#8, 0x20#8] ∨
      (shiftField w = true ∧ opcField w ∈ [0x01#8, 0x02#8, 0x03#8, 0x12#8, 0x20#8]) := by
  rw [decode_eq_none_iff, decodeCommand]
  split
  next hrsv => simp [hrsv]
  next hrsv =>
    split
    case h_8 => simp_all
    all_goals
      next hopc => simp [not_not.1 hrsv, hopc, unshifted_eq_error_iff]

/-- Outside the BUSY window a write to CMD is an issue, whatever the word (rule R100). -/
theorem regWrite_cmd_of_idle (w : Word) {s : State} (idle : s.status.busy = false) :
    regWrite 0x008#11 w s = issue w s := by
  have hcmd : regWrite 0x008#11 w s = writeCmd w s := rfl
  rw [hcmd, writeCmd, idle, if_neg Bool.false_ne_true]

theorem coreStep_of_illegal {s : State} (h : decode s.cmdLast = none) :
    coreStep s = .next (complete .illegalCommand s) := by
  rw [coreStep, h]

/-- Settles O4: the classes by field, an issue of any word, and completion with ILLEGAL_COMMAND. -/
theorem illegalWordsOnlyReport : Obligations.IllegalWordsOnlyReport := by
  refine ⟨decode_eq_none_iff_fields, fun w s _ idle => ?_, fun s h => coreStep_of_illegal h⟩
  rw [regWrite_cmd_of_idle w idle]
  exact ⟨rfl, rfl⟩

end Sys2Proof.Machine
end

section
/-! What completion records, and the turn of the core: every command, every pending word and every step answers a next state
(rules R101 to R103, R106, R205). -/

namespace Sys2Proof.Machine

/-- Completion after an effect that stays out of the control registers records what rule R103 says. -/
theorem complete_completedFrom (c : ErrorCode) {s t : State} (h : sameElsewhere s t) :
    completedFrom s (complete c t) := by
  obtain ⟨-, hcmd, hhosterr, hirqEn, -⟩ := h
  refine ⟨rfl, rfl, bne_iff_ne, ?_, ?_, hhosterr⟩
  · simp [pendingOpc, hcmd]
  · simp [irq, hirqEn]

theorem exec_completes (i : Instr) (s : State) : ∃ t, exec i s = .next t ∧ completedFrom s t := by
  by_cases h : checksOf i s = .noError
  · exact ⟨_, exec_of_passes h, complete_completedFrom _ (performOf_sameElsewhere i s)⟩
  · exact ⟨_, exec_of_fails h, complete_completedFrom _ (by simp [sameElsewhere])⟩

theorem coreStep_of_decode {i : Instr} {s : State} (h : decode s.cmdLast = some i) : coreStep s = exec i s := by
  rw [coreStep, h]

theorem coreStep_completes (s : State) : ∃ t, coreStep s = .next t ∧ completedFrom s t := by
  rcases h : decode s.cmdLast with _ | i
  · exact ⟨_, coreStep_of_illegal h, complete_completedFrom _ (by simp [sameElsewhere])⟩
  · rw [coreStep_of_decode h]
    exact exec_completes i s

theorem step_of_turn_core {s : State} (h : turn s = .core) : step s = coreStep s := by
  rw [step, advance, h]

theorem step_of_turn_idle {s : State} (h : turn s = .idle) : step s = .next s := by
  rw [step, advance, h]

/-- A turn is idle exactly when the host has no statement left and no command is pending (rule R106). -/
theorem turn_idle_iff (s : State) : turn s = .idle ↔ runEnded s := by
  have hnone : nextStmt s = none ↔ s.host.script.length ≤ s.host.pc := List.getElem?_eq_none_iff
  rw [runEnded, ← hnone, turn]
  split <;> split <;> simp_all

/-- Settles O7, by the two ends of a command (`exec_completes`) and an ILLEGAL word's one. -/
theorem everyCommandCompletes : Obligations.EveryCommandCompletes :=
  fun s => ⟨fun i => exec_completes i s, coreStep_completes s⟩

/-- Settles O10: a core step completes, and the other turns answer a state outright. -/
theorem everyStepGoesOn : Obligations.EveryStepGoesOn := by
  intro s
  cases h : turn s with
  | core =>
    obtain ⟨t, ht, -⟩ := coreStep_completes s
    exact ⟨t, (step_of_turn_core h).trans ht⟩
  | host stmt => exact ⟨_, step_of_turn_host h⟩
  | idle => exact ⟨s, step_of_turn_idle h⟩

/-- Settles O12, by when the turn is idle. -/
theorem endedRunStays : Obligations.EndedRunStays :=
  fun s => ⟨fun ended => step_of_turn_idle ((turn_idle_iff s).2 ended), turn_idle_iff s⟩

/-- Settles O59, by when the turn is the core's (`turn_core_iff`). -/
theorem stepRunsThePendingWord : Obligations.StepRunsThePendingWord :=
  fun s busy due => step_of_turn_core ((turn_core_iff s).2 ⟨busy, due⟩)

/-- All 64 bits of a word numbered as the opcode table numbers them are the word. -/
theorem tableWord_toNat (w : Word) : tableWord 64 w.toNat = w := by
  rw [tableWord, Nat.mod_eq_of_lt w.isLt, BitVec.ofNat_toNat, BitVec.setWidth_eq]

theorem withFetchWord_encode (s : State) (i : Instr) :
    s.withFetchWord 64 (encode i).toNat = issueAfter 0 (encode i) s := by
  rw [State.withFetchWord, placePending, tableWord_toNat]

/-- Settles O6: the step is the core step of the pending word (`stepRunsThePendingWord`), and withFetchWord is an issue with no
delay of a word that decodes to the command. -/
theorem stepRunsTheDecodedCommand : Obligations.StepRunsTheDecodedCommand := by
  have hstep (s : State) (i : Instr) (busy : s.status.busy = true) (due : s.coreDelay = 0 ∨ nextStmt s = none)
      (h : decode s.cmdLast = some i) : step s = exec i s :=
    (stepRunsThePendingWord s busy due).trans (coreStep_of_decode h)
  refine ⟨hstep, fun s i => ?_⟩
  rw [withFetchWord_encode]
  exact ⟨hstep _ i rfl (.inl rfl) (decode_encode i), rfl, rfl, rfl, rfl⟩

/-- Settles O5: the write is an issue (`regWrite_cmd_of_idle`), or refused during the BUSY window. -/
theorem issueStartsTheWindow : Obligations.IssueStartsTheWindow := by
  refine fun w s => ⟨fun idle => ?_, fun busy => ?_⟩
  · rw [regWrite_cmd_of_idle w idle]
    exact ⟨rfl, rfl⟩
  · have hcmd : regWrite 0x008#11 w s = writeCmd w s := rfl
    rw [hcmd, writeCmd, if_pos busy]

end Sys2Proof.Machine
end

section
/-! What a command records and where it writes, on success and on failure (rules R102 to R104, R202). -/

namespace Sys2Proof.Machine

/-- No check of any command reads DMEM (rule R102). -/
theorem checksOf_withMem (i : Instr) (s : State) (m : Memory) : checksOf i { s with mem := m } = checksOf i s := by
  cases i <;> rfl

/-- ERRCODE after a command: the code of its checks, and the low byte of the command word. -/
theorem exec_errcode {i : Instr} {s t : State} (h : exec i s = .next t) :
    t.errcode = { code := checksOf i s, opc := pendingOpc s } := by
  rcases exec_cases h with ⟨hc, rfl⟩ | ⟨-, rfl⟩
  · obtain ⟨-, hcmd, -⟩ := performOf_sameElsewhere i s
    simp [pendingOpc, hcmd, hc]
  · rfl

/-- A command that reports an error has failed a check and only completed. -/
theorem exec_failure {i : Instr} {s t : State} (h : exec i s = .next t) (ht : t.status.err = true) :
    checksOf i s ≠ .noError ∧ t = complete (checksOf i s) s := by
  rcases exec_cases h with ⟨-, rfl⟩ | hfails
  · simp at ht
  · exact hfails

/-- Settles O8: a failed command only completes (`exec_failure`), with a code that its checks give without reading DMEM. -/
theorem failedCommandPerformsNothing : Obligations.FailedCommandPerformsNothing := by
  refine ⟨fun i s t h ht => ?_, fun i s m t u ht hu => ?_⟩
  · obtain ⟨hc, rfl⟩ := exec_failure h ht
    refine ⟨?_, hc⟩
    simp [complete, pendingOpc, hc]
  · rw [exec_errcode hu, checksOf_withMem, exec_errcode ht]
    rfl

/-- A byte lane outside the write set is as it was: the words a command writes lie in the region it has checked. -/
theorem exec_readByte_outside {i : Instr} {s t : State} (hi : decode s.cmdLast = some i) (h : exec i s = .next t) {a : Nat}
    (ha : inWriteSet s (a / 8) = false) : Memory.readByte t.mem a = Memory.readByte s.mem a := by
  rcases exec_cases h with ⟨hc, rfl⟩ | ⟨-, rfl⟩
  · obtain ⟨vs, hmem, hlen⟩ := performOf_mem hc
    have hregion := regionOk_of_checksOf hc
    rw [← Bool.not_eq_true, inWriteSet_iff, hi] at ha
    rw [regionOk] at hregion
    rw [complete_mem, hmem]
    exact Memory.readByte_writeWords_outside _ _ _ _ (by omega)
  · rfl

/-- Only PEAKS changes PK_COUNT (rule R104). -/
theorem exec_pkCount {i : Instr} {s t : State} (h : exec i s = .next t) (hi : i ≠ .peaks) : t.pkCount = s.pkCount := by
  rcases exec_cases h with ⟨-, rfl⟩ | ⟨-, rfl⟩
  · cases i with
    | peaks => exact absurd rfl hi
    | iirConfig | iirReset | iirApply | dilate | erode | opening => rfl
  · rfl

/-- Only IIR_CONFIG changes the filter (rule R104). -/
theorem exec_filter {i : Instr} {s t : State} (h : exec i s = .next t) (hi : i ≠ .iirConfig) :
    t.iir.cfg = s.iir.cfg ∧ t.iir.order = s.iir.order ∧ t.iir.cb = s.iir.cb ∧ t.iir.ca = s.iir.ca := by
  rcases exec_cases h with ⟨-, rfl⟩ | ⟨-, rfl⟩
  · cases i with
    | iirConfig => exact absurd rfl hi
    | iirReset | iirApply | dilate | erode | opening | peaks => exact ⟨rfl, rfl, rfl, rfl⟩
  · exact ⟨rfl, rfl, rfl, rfl⟩

/-- Settles O50, part by part of the write set. -/
theorem commandsStayInTheirWriteSet : Obligations.CommandsStayInTheirWriteSet := by
  refine fun s i t hi h => ⟨fun a => exec_readByte_outside hi h, exec_pkCount h, fun hconfig hreset happly => ?_,
    exec_filter h, exec_sameElsewhere h⟩
  exact (exec_engine h).resolve_right (by simp [hconfig, hreset, happly])

end Sys2Proof.Machine
end

section
/-! How long a command stays pending (rules R101, R239, log entry 5). -/

namespace Sys2Proof.Machine

/-- A host statement that leaves the BUSY window open has brought the core step one host step nearer. -/
theorem HostEffect.coreDelay {stmt : HostStmt} {s u : State} (hu : HostEffect stmt s u) (busy : s.status.busy = true)
    (open_ : u.status.busy = true) : u.coreDelay = s.coreDelay - 1 := by
  cases hu with
  | softReset => simp at open_
  | issued _ idle | operand _ _ idle | stored _ _ idle | ignored idle => simp [busy] at idle
  | read | cmdRefused | acknowledged | hosterrCleared | irqEnable | refused => rfl

/-- A step during the BUSY window ends it, or the delay counter was above 0 and falls by one. -/
theorem step_while_busy {s : State} (busy : s.status.busy = true) :
    ∃ t, step s = .next t ∧ (t.status.busy = true → t.coreDelay + 1 = s.coreDelay) := by
  cases hturn : turn s with
  | core =>
    obtain ⟨t, ht, closed, -⟩ := coreStep_completes s
    exact ⟨t, (step_of_turn_core hturn).trans ht, fun open_ => by simp [closed] at open_⟩
  | host stmt =>
    obtain ⟨u, n, hu, ht⟩ := hostTurn_cases stmt s
    refine ⟨_, step_of_turn_host hturn, fun open_ => ?_⟩
    have hpos : s.coreDelay ≠ 0 := ((turn_host_iff s stmt).1 hturn).2 busy
    rw [ht, hostGoto_status] at open_
    rw [ht, hostGoto_coreDelay, hu.coreDelay busy open_]
    omega
  | idle =>
    obtain ⟨-, idle⟩ := (turn_idle_iff s).1 hturn
    simp [busy] at idle

/-- A run goes on from the state its first step answers. -/
theorem run_succ {M : Host.Core} {s t : M.State} (h : M.step s = .next t) (k : Nat) : M.run (k + 1) s = M.run k t := by
  rw [Host.Core.run, h]

/-- Settles O11, by induction on the delay counter, which every step that keeps the window open lowers (`step_while_busy`). -/
theorem pendingCommandLeavesTheWindow : Obligations.PendingCommandLeavesTheWindow := by
  intro s busy
  induction hdelay : s.coreDelay using Nat.strong_induction_on generalizing s with
  | _ d ih =>
    obtain ⟨t, ht, hopen⟩ := step_while_busy busy
    have hrun := run_succ (M := Sys2Proof.core) ht
    cases hb : t.status.busy with
    | false => exact ⟨1, by omega, t, hrun 0, hb⟩
    | true =>
      have hlower := hopen hb
      obtain ⟨k, hk, u, hu, closed⟩ := ih t.coreDelay (by omega) t hb rfl
      exact ⟨k + 1, by omega, u, (hrun k).trans hu, closed⟩

end Sys2Proof.Machine
end

section
/-! The extreme folds as bounds (rule R8): a fold gives an element of its list, and on NaN-free lists it bounds every element. -/

namespace Sys2Proof.Machine

variable {l : List Word} {v b : Word}

theorem IsFirstMax.mem {key : Word → Int} {m : Word} (h : IsFirstMax key l m) : m ∈ l := by
  obtain ⟨pre, post, rfl, -⟩ := h
  simp

theorem folds_mem (hl : l ≠ []) : foldMax l ∈ l ∧ foldMin l ∈ l := by
  obtain ⟨r, rest, rfl⟩ := List.exists_cons_of_ne_nil hl
  cases hr : fisNaN r with
  | true =>
    obtain ⟨hmax, hmin⟩ := folds_of_leading_nan hr rest
    simp [hmax, hmin]
  | false => exact ⟨(foldMax_isFirstMax hr rest).mem, (foldMin_isFirstMax hr rest).mem⟩

theorem foldMin_le_and_le_foldMax (hl : ∀ u ∈ l, fisNaN u = false) (hv : v ∈ l) :
    fle (foldMin l) v = true ∧ fle v (foldMax l) = true := by
  obtain ⟨hmax, hmin⟩ := folds_mem (List.ne_nil_of_mem hv)
  obtain ⟨r, rest, rfl⟩ := List.exists_cons_of_ne_nil (List.ne_nil_of_mem hv)
  have hr : fisNaN r = false := hl r (by simp)
  have hnan : ¬ fisNaN v = true := by simp [hl v hv]
  have above := ((foldMax_isFirstMax hr rest).key_le hv).resolve_left hnan
  have below := ((foldMin_isFirstMax hr rest).key_le hv).resolve_left hnan
  exact ⟨(fle_iff _ _).2 ⟨hl _ hmin, hl v hv, neg_le_neg_iff.1 below⟩, (fle_iff _ _).2 ⟨hl v hv, hl _ hmax, above⟩⟩

theorem fle_trans {a b c : Word} (hab : fle a b = true) (hbc : fle b c = true) : fle a c = true := by
  obtain ⟨ha, -, hab⟩ := (fle_iff a b).1 hab
  obtain ⟨-, hc, hbc⟩ := (fle_iff b c).1 hbc
  exact (fle_iff a c).2 ⟨ha, hc, hab.trans hbc⟩

end Sys2Proof.Machine
end

section
/-! The structuring window (rules R120, R121): its bounds, and its samples by position. -/

namespace Sys2Proof.Machine

theorem reach_unshifted_nonneg {m : Nat} (hm : 1 ≤ m) : 0 ≤ (reach m false).1 ∧ 0 ≤ (reach m false).2 := by
  obtain ⟨-, hnr, hnl⟩ := reach_bounds m false hm
  exact ⟨hnl rfl, hnr⟩

theorem windowBounds_eq_windowRange (n m : Nat) (shift : Bool) (i : Nat) :
    windowBounds n m shift i = windowRange n m shift i := by
  unfold windowBounds windowRange reach clamp
  cases shift <;> by_cases h : m % 2 = 1 <;> simp [h]

/-- `lo ≤ hi < n` (rule R121), since the reaches add to `m - 1 ≥ 0` and clamping is monotone. -/
theorem windowBounds_le_lt {n m : Nat} (shift : Bool) {i : Nat} (hm : 1 ≤ m) (hi : i < n) :
    (windowBounds n m shift i).1 ≤ (windowBounds n m shift i).2 ∧ (windowBounds n m shift i).2 < n := by
  have hspan := reach_span m shift
  simp only [windowBounds, clamp]
  omega

/-- Clamping in the signal changes only the end that leaves it, so an unshifted window holds its own position (rule R121). -/
theorem windowBounds_unshifted {n m i : Nat} (hm : 1 ≤ m) (hi : i < n) :
    (windowBounds n m false i).1 ≤ i ∧ i ≤ (windowBounds n m false i).2 := by
  obtain ⟨hnl, hnr⟩ := reach_unshifted_nonneg hm
  simp only [windowBounds, clamp]
  omega

theorem windowBounds_last {n m : Nat} {shift : Bool} (hn : 1 ≤ n) (hm : 1 ≤ m) (hnl : (reach m shift).1 = -1) :
    windowBounds n m shift (n - 1) = (n - 1, n - 1) := by
  have hspan := reach_span m shift
  simp only [windowBounds, clamp, Prod.mk.injEq]
  omega

/-- Settles O23, clause by clause. -/
theorem windowsAreNeverEmpty : Obligations.WindowsAreNeverEmpty := by
  intro n m shift i hn hm hi
  obtain ⟨hle, hlt⟩ := windowBounds_le_lt shift hm hi
  exact ⟨reach_span m shift, windowBounds_eq_windowRange n m shift i, hle, hlt,
    fun h => by subst h; exact windowBounds_unshifted hm hi, windowBounds_last hn hm⟩

theorem slice_eq_map {x : List Word} {lo hi : Nat} (h : hi < x.length) :
    slice x lo hi = (List.range' lo (hi + 1 - lo)).map (sampleAt x) := by
  apply List.ext_getElem
  · simp [slice]; omega
  · intro k hk _
    have : lo + k < x.length := by simp [slice] at hk; omega
    simp [slice, sampleAt, List.getD, this]

/-- A window of a signal whose sample `k` is `f k`, in the words of Safety.lean. -/
theorem window_eq_map {x : List Word} {n : Nat} {f : Nat → Word} (hn : x.length = n) (hf : ∀ k, k < n → sampleAt x k = f k)
    {m : Nat} (shift : Bool) {i : Nat} (hm : 1 ≤ m) (hi : i < n) :
    window x m shift i =
      (List.range' (windowRange n m shift i).1 ((windowRange n m shift i).2 + 1 - (windowRange n m shift i).1)).map f := by
  subst hn
  obtain ⟨-, hlt⟩ := windowBounds_le_lt shift hm hi
  rw [window, slice_eq_map hlt, ← windowBounds_eq_windowRange]
  refine List.map_congr_left fun k hk => hf k ?_
  rw [List.mem_range'_1] at hk
  omega

theorem window_ne_nil {x : List Word} {m : Nat} (shift : Bool) {i : Nat} (hm : 1 ≤ m) (hi : i < x.length) :
    window x m shift i ≠ [] := by
  obtain ⟨hle, hlt⟩ := windowBounds_le_lt shift hm hi
  rw [window, slice_eq_map hlt]
  simp; omega

theorem window_subset (x : List Word) (m : Nat) (shift : Bool) (i : Nat) : window x m shift i ⊆ x :=
  List.Subset.trans (List.drop_subset _ _) (List.take_subset _ _)

/-- Position `k` lies in the unshifted reach of position `i` (rule R120), clamping apart. -/
def InReach (m i k : Nat) : Prop :=
  (i : Int) - (reach m false).1 ≤ k ∧ (k : Int) ≤ i + (reach m false).2

theorem inReach_self {m : Nat} (hm : 1 ≤ m) (i : Nat) : InReach m i i := by
  obtain ⟨hnl, hnr⟩ := reach_unshifted_nonneg hm
  rw [InReach]
  omega

/-- An unshifted window holds the samples at the signal's positions within reach. -/
theorem mem_window_unshifted {x : List Word} {m i : Nat} {v : Word} (hm : 1 ≤ m) (hi : i < x.length) :
    v ∈ window x m false i ↔ ∃ k, k < x.length ∧ InReach m i k ∧ sampleAt x k = v := by
  obtain ⟨hnl, hnr⟩ := reach_unshifted_nonneg hm
  obtain ⟨-, hlt⟩ := windowBounds_le_lt false hm hi
  rw [window, slice_eq_map hlt, List.mem_map]
  refine exists_congr fun k => ?_
  rw [← and_assoc, List.mem_range'_1]
  refine and_congr_left fun _ => ?_
  simp only [windowBounds, clamp, InReach]
  omega

theorem sampleAt_mem {x : List Word} {i : Nat} (hi : i < x.length) : sampleAt x i ∈ x := by
  simp [sampleAt, List.getD, hi]

theorem exists_sampleAt_of_mem {x : List Word} {v : Word} (hv : v ∈ x) : ∃ i, i < x.length ∧ sampleAt x i = v := by
  obtain ⟨i, hi, rfl⟩ := List.mem_iff_getElem.1 hv
  exact ⟨i, hi, by simp [sampleAt, List.getD, hi]⟩

end Sys2Proof.Machine
end

section
/-! Dilation, erosion and opening of a sequence (rules R122 to R124), element by element. -/

namespace Sys2Proof.Machine

variable {x : List Word} {m : Nat}

theorem dilateSeq_subset (x : List Word) (shift : Bool) (hm : 1 ≤ m) : dilateSeq x m shift ⊆ x := by
  intro v hv
  obtain ⟨i, hi, rfl⟩ := List.mem_map.1 hv
  exact window_subset _ _ _ _ (folds_mem (window_ne_nil shift hm (List.mem_range.1 hi))).1

theorem erodeSeq_subset (x : List Word) (shift : Bool) (hm : 1 ≤ m) : erodeSeq x m shift ⊆ x := by
  intro v hv
  obtain ⟨i, hi, rfl⟩ := List.mem_map.1 hv
  exact window_subset _ _ _ _ (folds_mem (window_ne_nil shift hm (List.mem_range.1 hi))).2

/-- Padding repeats the end samples: sample `j` is the input's at `j - m`, held at the ends (rule R124). -/
theorem sampleAt_edgePad (m : Nat) {j : Nat} (hx : x ≠ []) (hj : j < x.length + 2 * m) :
    sampleAt (edgePad x m) j = sampleAt x (min (j - m) (x.length - 1)) := by
  have hpos := List.length_pos_of_ne_nil hx
  unfold edgePad
  rcases lt_or_ge j m with hleft | hleft
  · rw [show min (j - m) (x.length - 1) = 0 by omega, sampleAt, List.append_assoc,
      List.getD_append _ _ _ _ (by simpa using hleft), List.getD_replicate _ hleft]
  · rcases lt_or_ge j (m + x.length) with hmid | hright
    · rw [show min (j - m) (x.length - 1) = j - m by omega, sampleAt,
        List.getD_append _ _ _ _ (by simpa using hmid), List.getD_append_right _ _ _ _ (by simpa using hleft),
        List.length_replicate, sampleAt]
    · rw [show min (j - m) (x.length - 1) = x.length - 1 by omega, sampleAt,
        List.getD_append_right _ _ _ _ (by simpa using hright), List.getD_replicate _ (by simp; omega)]

theorem edgePad_subset (m : Nat) (hx : x ≠ []) : edgePad x m ⊆ x := by
  intro v hv
  obtain ⟨j, hj, rfl⟩ := exists_sampleAt_of_mem hv
  rw [length_edgePad] at hj
  rw [sampleAt_edgePad m hx hj]
  have := List.length_pos_of_ne_nil hx
  exact sampleAt_mem (by omega)

/-- The two stages of OPEN on the padded sequence, before it is stripped (rule R124). -/
theorem openSeq_of_ne_nil (m : Nat) (hx : x ≠ []) :
    openSeq x m = ((dilateSeq (erodeSeq (edgePad x m) m false) m false).drop m).take x.length :=
  if_neg (List.length_pos_of_ne_nil hx).ne'

theorem sampleAt_openSeq (m : Nat) {i : Nat} (hi : i < x.length) :
    sampleAt (openSeq x m) i = sampleAt (dilateSeq (erodeSeq (edgePad x m) m false) m false) (m + i) := by
  rw [openSeq_of_ne_nil m (List.ne_nil_of_length_pos (by omega))]
  simp [sampleAt, List.getD, hi]

theorem openSeq_subset (x : List Word) (hm : 1 ≤ m) : openSeq x m ⊆ x := by
  rcases eq_or_ne x [] with rfl | hx
  · simp [openSeq]
  · rw [openSeq_of_ne_nil m hx]
    intro v hv
    have hdilated := List.mem_of_mem_drop (List.mem_of_mem_take hv)
    exact edgePad_subset m hx (erodeSeq_subset _ false hm (dilateSeq_subset _ false hm hdilated))

/-- Settles O24: a fold over a window that is not empty gives an element of it, and padding repeats two samples. -/
theorem morphologyCopiesPatterns : Obligations.MorphologyCopiesPatterns := fun x m shift hm =>
  ⟨⟨length_dilateSeq x m shift, fun _ hv => dilateSeq_subset x shift hm hv⟩,
    ⟨length_erodeSeq x m shift, fun _ hv => erodeSeq_subset x shift hm hv⟩,
    ⟨length_openSeq x m, fun _ hv => openSeq_subset x hm hv⟩⟩

/-- With `m = 1` the unshifted window of a position is its own sample. -/
theorem window_one {i : Nat} (hi : i < x.length) : window x 1 false i = [sampleAt x i] := by
  have hbounds : windowBounds x.length 1 false i = (i, i) := by
    simp [windowBounds, reach, clamp]; omega
  rw [window, hbounds, slice_eq_map hi]
  simp

theorem map_sampleAt_range (x : List Word) : (List.range x.length).map (sampleAt x) = x :=
  List.ext_getElem (by simp) fun k _ hk => by simp [sampleAt, List.getD, hk]

theorem stages_one (x : List Word) : dilateSeq x 1 false = x ∧ erodeSeq x 1 false = x := by
  constructor <;> refine Eq.trans (List.map_congr_left fun i hi => ?_) (map_sampleAt_range x) <;>
    rw [window_one (List.mem_range.1 hi)] <;> rfl

/-- Settles O26: with `m = 1` both stages are the identity (`stages_one`), and the opening of one sample has no other pattern
to take (`openSeq_subset`). -/
theorem openingCornerCases : Obligations.OpeningCornerCases := by
  refine ⟨fun x => ?_, fun v m hm => ?_⟩
  · rcases eq_or_ne x [] with rfl | hx
    · rfl
    · rw [openSeq_of_ne_nil 1 hx, (stages_one _).2, (stages_one _).1]
      simp [edgePad]
  · refine List.eq_replicate_iff.2 ⟨length_openSeq [v] m, fun u hu => ?_⟩
    simpa using openSeq_subset [v] hm hu

end Sys2Proof.Machine
end

section
/-! Erosion and dilation as bounds over the positions within reach, on NaN-free samples (rules R123, R124, R127). -/

namespace Sys2Proof.Machine

variable {x : List Word} {m i : Nat} {b : Word}

/-- Settles O25: an unshifted window holds its own sample, and the folds bound it. -/
theorem erosionBelowInputBelowDilation : Obligations.ErosionBelowInputBelowDilation := by
  intro x m i hm hi hnan
  have hown : sampleAt x i ∈ window x m false i := (mem_window_unshifted hm hi).2 ⟨i, hi, inReach_self hm i, rfl⟩
  rw [sampleAt_erodeSeq _ _ _ _ hi, sampleAt_dilateSeq _ _ _ _ hi]
  exact foldMin_le_and_le_foldMax hnan hown

section Bounds

theorem le_erodeSeq (hm : 1 ≤ m) (hi : i < x.length)
    (h : ∀ k, k < x.length → InReach m i k → fle b (sampleAt x k) = true) :
    fle b (sampleAt (erodeSeq x m false) i) = true := by
  rw [sampleAt_erodeSeq _ _ _ _ hi]
  obtain ⟨k, hk, hreach, heq⟩ := (mem_window_unshifted hm hi).1 (folds_mem (window_ne_nil false hm hi)).2
  exact heq ▸ h k hk hreach

theorem dilateSeq_le (hm : 1 ≤ m) (hi : i < x.length)
    (h : ∀ k, k < x.length → InReach m i k → fle (sampleAt x k) b = true) :
    fle (sampleAt (dilateSeq x m false) i) b = true := by
  rw [sampleAt_dilateSeq _ _ _ _ hi]
  obtain ⟨k, hk, hreach, heq⟩ := (mem_window_unshifted hm hi).1 (folds_mem (window_ne_nil false hm hi)).1
  exact heq ▸ h k hk hreach

variable {k : Nat} (hnan : ∀ v ∈ x, fisNaN v = false) (hm : 1 ≤ m) (hi : i < x.length) (hk : k < x.length)
  (hreach : InReach m i k)

include hnan hm hi hk hreach

theorem erodeSeq_le : fle (sampleAt (erodeSeq x m false) i) (sampleAt x k) = true := by
  rw [sampleAt_erodeSeq _ _ _ _ hi]
  exact (foldMin_le_and_le_foldMax (fun u hu => hnan u (window_subset _ _ _ _ hu))
    ((mem_window_unshifted hm hi).2 ⟨k, hk, hreach, rfl⟩)).1

theorem le_dilateSeq : fle (sampleAt x k) (sampleAt (dilateSeq x m false) i) = true := by
  rw [sampleAt_dilateSeq _ _ _ _ hi]
  exact (foldMin_le_and_le_foldMax (fun u hu => hnan u (window_subset _ _ _ _ hu))
    ((mem_window_unshifted hm hi).2 ⟨k, hk, hreach, rfl⟩)).2

end Bounds

/-- The opening is at most `b` when every position within reach has one within its own reach whose sample is at most `b`. -/
theorem openSeq_le (hnan : ∀ v ∈ x, fisNaN v = false) (hm : 1 ≤ m) (hi : i < x.length)
    (h : ∀ j, j < x.length + 2 * m → InReach m (m + i) j → ∃ k, k < x.length + 2 * m ∧ InReach m j k ∧
      fle (sampleAt x (min (k - m) (x.length - 1))) b = true) :
    fle (sampleAt (openSeq x m) i) b = true := by
  have hx : x ≠ [] := List.ne_nil_of_length_pos (by omega)
  have hlen := length_edgePad x m
  rw [sampleAt_openSeq m hi]
  refine dilateSeq_le hm (by simp; omega) fun j hj hreach => ?_
  rw [length_erodeSeq, hlen] at hj
  obtain ⟨k, hk, hjk, hle⟩ := h j hj hreach
  rw [← sampleAt_edgePad m hx hk] at hle
  refine fle_trans (erodeSeq_le ?_ hm (by omega) (by omega) hjk) hle
  exact fun v hv => hnan v (edgePad_subset m hx hv)

/-- Settles O27: an odd window is its own reflection, so every erosion the opening takes at position `i` is over a window that
holds sample `i` itself. -/
theorem oddOpeningNeverExceedsInput : Obligations.OddOpeningNeverExceedsInput := by
  intro x m i hodd hi hnan
  have hsymm : (reach m false).1 = (reach m false).2 := by simp [reach, hodd]
  refine openSeq_le hnan (by omega) hi fun j _ hreach => ⟨m + i, by omega, ?_, ?_⟩
  · simp only [InReach] at hreach ⊢
    omega
  · rw [show min (m + i - m) (x.length - 1) = i by omega]
    exact (fle_iff _ _).2 ⟨hnan _ (sampleAt_mem hi), hnan _ (sampleAt_mem hi), le_rfl⟩

/-- Settles O28: for positions `j` of the opening's and `p` of the closing's window, the window of `j` and that of `p` overlap,
since both are `m` wide and `j` and `p` are less than `m` apart; the sample where they overlap lies between the two. -/
theorem closingIsAboveOpening : Obligations.ClosingIsAboveOpening := by
  intro x m i hm hi hnan
  obtain ⟨hnl, hnr⟩ := reach_unshifted_nonneg hm
  have hspan := reach_span m false
  refine le_erodeSeq hm (by simpa using hi) fun p hp hip => ?_
  rw [length_dilateSeq] at hp
  refine openSeq_le hnan hm hi fun j hj hij => ?_
  simp only [InReach] at hip hij
  obtain ⟨k, hk⟩ : ∃ k : Nat, (k : Int) = max (j : Int) (p + m) - (reach m false).1 := ⟨_, Int.toNat_of_nonneg (by omega)⟩
  refine ⟨k, by omega, by rw [InReach]; omega, le_dilateSeq hnan hm hp (by omega) ?_⟩
  rw [InReach]
  omega

end Sys2Proof.Machine
end

section
/-! The morphology commands (rules R122 to R126): what each writes, and that it leaves all else. -/

namespace Sys2Proof.Machine

variable {s : State}

theorem sampleAt_inputSignal {k : Nat} (hk : k < s.ops.srcLen.toNat) :
    sampleAt (inputSignal s) k = Memory.readWord s.mem (s.ops.srcBase.toNat + k) :=
  Memory.getD_readWords _ _ _ _ hk

theorem winM_pos (h : morphPasses s) : 1 ≤ s.ops.winM.toNat := by
  obtain ⟨-, hwin, -⟩ := h
  rw [ne_eq, ← BitVec.toNat_inj] at hwin
  exact Nat.pos_of_ne_zero hwin

/-- A command whose effect maps the input signal, once its checks pass, writes the mapped signal and nothing else. -/
theorem exec_mapSignal {i : Instr} {f : List Word → List Word} (hpasses : checksOf i s = .noError)
    (hperform : performOf i s = mapSignal f s) (hlen : ∀ x, (f x).length = x.length) :
    ∃ t, exec i s = .next t ∧ succeeded s t ∧
      (∀ k, k < s.ops.srcLen.toNat →
        Memory.readWord t.mem (s.ops.dstBase.toNat + k) = sampleAt (f (inputSignal s)) k) ∧
      sameOutside s.mem t.mem s.ops.dstBase.toNat s.ops.srcLen.toNat ∧
      sameElsewhere s t ∧ t.iir = s.iir ∧ t.pkCount = s.pkCount := by
  have hout : (f (inputSignal s)).length = s.ops.srcLen.toNat := by rw [hlen, length_inputSignal]
  have hexec := exec_of_passes hpasses
  rw [hperform] at hexec
  refine ⟨_, hexec, ⟨rfl, rfl⟩, fun k hk => ?_, fun a ha => ?_, exec_sameElsewhere hexec, rfl, rfl⟩
  · rw [complete_mem, mapSignal_mem, Memory.readWord_writeWords _ _ _ _ (by omega), sampleAt]
  · rw [complete_mem, mapSignal_mem, Memory.readByte_writeWords_outside _ _ _ _ (by omega)]

/-- Settles O14: the words written are `dilateSeq` of the input, whose windows are those of Safety.lean (`window_eq_map`). -/
theorem dilateWritesWindowMaxima : Obligations.DilateWritesWindowMaxima := by
  intro shift s h
  obtain ⟨t, hexec, hok, hout, hframe⟩ := exec_mapSignal (i := .dilate shift) ((morphChecks_eq_noError_iff s).2 h) rfl
    fun x => length_dilateSeq x _ shift
  refine ⟨t, hexec, hok, fun i hi => ?_, hframe⟩
  rw [hout i hi, sampleAt_dilateSeq _ _ _ _ (by simpa using hi)]
  exact congrArg foldMax
    (window_eq_map (length_inputSignal s) (fun _ hk => sampleAt_inputSignal hk) shift (winM_pos h) hi)

/-- Settles O15, as O14 with `erodeSeq`. -/
theorem erodeWritesWindowMinima : Obligations.ErodeWritesWindowMinima := by
  intro shift s h
  obtain ⟨t, hexec, hok, hout, hframe⟩ := exec_mapSignal (i := .erode shift) ((morphChecks_eq_noError_iff s).2 h) rfl
    fun x => length_erodeSeq x _ shift
  refine ⟨t, hexec, hok, fun i hi => ?_, hframe⟩
  rw [hout i hi, sampleAt_erodeSeq _ _ _ _ (by simpa using hi)]
  exact congrArg foldMin
    (window_eq_map (length_inputSignal s) (fun _ hk => sampleAt_inputSignal hk) shift (winM_pos h) hi)

/-- Settles O16: the windows of both stages are those of Safety.lean (`window_eq_map`), over the padded samples
(`sampleAt_edgePad`) and over their erosion. -/
theorem openWritesPaddedOpening : Obligations.OpenWritesPaddedOpening := by
  intro s h
  obtain ⟨t, hexec, hok, hout, hframe⟩ := exec_mapSignal (i := .opening) ((morphChecks_eq_noError_iff s).2 h) rfl
    fun x => length_openSeq x _
  refine ⟨t, hexec, hok, fun i hi => ?_, hframe⟩
  have hm := winM_pos h
  have hin := length_inputSignal s
  have hpad : (edgePad (inputSignal s) s.ops.winM.toNat).length = s.ops.srcLen.toNat + 2 * s.ops.winM.toNat := by
    rw [length_edgePad, hin]
  rw [hout i hi, sampleAt_openSeq _ (hin ▸ hi), sampleAt_dilateSeq _ _ _ _ (by rw [length_erodeSeq]; omega)]
  refine congrArg foldMax (window_eq_map (by rw [length_erodeSeq, hpad]) (fun j hj => ?_) false hm (by omega))
  rw [sampleAt_erodeSeq _ _ _ _ (hpad ▸ hj)]
  refine congrArg foldMin (window_eq_map hpad (fun k hk => ?_) false hm hj)
  rw [sampleAt_edgePad _ (List.ne_nil_of_length_pos (by omega)) (hin ▸ hk), hin, sampleAt_inputSignal (by omega)]

end Sys2Proof.Machine
end

section
/-! Stage A (rule R141): a plateau's end, and a candidate, by positions of the signal. -/

namespace Sys2Proof.Machine

theorem plateauEnd_eq_findIdx (x : List Word) (i : Nat) :
    plateauEnd x i = i + 1 + (x.drop (i + 1)).findIdx (fun v => !feq v (sampleAt x i)) := by
  rw [plateauEnd, List.takeWhile_eq_take_findIdx_not, List.length_take_of_le List.findIdx_le_length]

theorem getElem_drop_eq_getD {α : Type} {l : List α} {a d : Nat} (z : α) (h : d < (l.drop a).length) :
    (l.drop a)[d] = l.getD (a + d) z := by
  have hlt : a + d < l.length := by
    rw [List.length_drop] at h
    omega
  rw [List.getElem_drop, List.getD_eq_getElem _ _ hlt]

/-- Inside the signal a plateau ends at the first later sample that is not equal to its own. -/
theorem plateauEnd_eq_iff {x : List Word} {i j : Nat} (hij : i < j) (hj : j < x.length) :
    plateauEnd x i = j ↔ (∀ k, i < k → k < j → feq (sampleAt x k) (sampleAt x i) = true) ∧
      feq (sampleAt x j) (sampleAt x i) = false := by
  obtain ⟨d, rfl⟩ := Nat.exists_eq_add_of_le (Nat.succ_le_of_lt hij)
  have hd : d < (x.drop (i + 1)).length := by
    rw [List.length_drop]
    omega
  rw [plateauEnd_eq_findIdx, Nat.succ_eq_add_one, Nat.add_left_cancel_iff, List.findIdx_eq hd, and_comm]
  have hat : ∀ j (hj : j < (x.drop (i + 1)).length), (x.drop (i + 1))[j] = sampleAt x (i + 1 + j) :=
    fun _ hj => getElem_drop_eq_getD 0#64 hj
  simp only [hat, Bool.not_eq_true', Bool.not_eq_false']
  refine and_congr_left fun _ => ⟨fun h k hik hkd => ?_, fun h k hkd => h _ (by omega) (by omega)⟩
  obtain ⟨k, rfl⟩ := Nat.exists_eq_add_of_le (Nat.succ_le_of_lt hik)
  exact h k (by omega)

theorem feq_plateau {x : List Word} {i k : Nat} (hin : plateauEnd x i < x.length) (hik : i < k) (hk : k < plateauEnd x i) :
    feq (sampleAt x k) (sampleAt x i) = true :=
  ((plateauEnd_eq_iff (lt_plateauEnd x i) hin).1 rfl).1 k hik hk

/-- Settles O33: Stage A filters an ascending range, and `j` of rule R141 is the plateau's end (`plateauEnd_eq_iff`). -/
theorem stageAFindsPlateauMaxima : Obligations.StageAFindsPlateauMaxima := by
  refine fun x => ⟨(List.pairwise_lt_range' 1).sublist (stageA_sublist x), fun i => ?_⟩
  rw [mem_stageA, isCandidate_iff]
  constructor
  · rintro ⟨hpos, hlt, hrise, hin, hfall⟩
    have hend := lt_plateauEnd x i
    obtain ⟨heq, hne⟩ := (plateauEnd_eq_iff hend hin).1 rfl
    exact ⟨hpos, by omega, hrise, plateauEnd x i, hend, hin, heq, hne, hfall⟩
  · rintro ⟨hpos, hlt, hrise, j, hij, hj, heq, hne, hfall⟩
    have hend := (plateauEnd_eq_iff hij hj).2 ⟨heq, hne⟩
    exact ⟨hpos, by omega, hrise, hend ▸ hj, hend ▸ hfall⟩

end Sys2Proof.Machine
end

section
/-! The prominence (rule R143): where its two ranges start and end. -/

namespace Sys2Proof.Machine

variable {x : List Word} {C : List Nat} {k : Nat}

/-- Candidate `k'` of the list is strictly greater than candidate `k`. -/
def Taller (x : List Word) (C : List Nat) (k k' : Nat) : Prop :=
  fgt (sampleAt x (C.getD k' 0)) (sampleAt x (C.getD k 0)) = true

/-- Where the left range starts: after the nearest taller candidate on the left, or at the signal's first index. -/
def leftBound (x : List Word) (C : List Nat) (k : Nat) : Nat :=
  match leftEdge x C k with
  | none => 0
  | some q => q + 1

/-- Where the right range ends: at the nearest taller candidate on the right, or at the signal's last index. -/
def rightBound (x : List Word) (C : List Nat) (k : Nat) : Nat :=
  match rightEdge x C k with
  | none => x.length - 1
  | some q => q

/-- The minimum of the left range. -/
def leftMin (x : List Word) (C : List Nat) (k : Nat) : Word :=
  foldMin (slice x (leftBound x C k) (C.getD k 0 - 1))

/-- The minimum of the right range. -/
def rightMin (x : List Word) (C : List Nat) (k : Nat) : Word :=
  foldMin (slice x (C.getD k 0 + 1) (rightBound x C k))

theorem prominenceRef_eq (x : List Word) (C : List Nat) (k : Nat) :
    prominenceRef x C k = if fgt (leftMin x C k) (rightMin x C k) then leftMin x C k else rightMin x C k := rfl

theorem getD_mem (hk : k < C.length) : C.getD k 0 ∈ C := by
  rw [List.getD_eq_getElem _ _ hk]
  exact List.getElem_mem hk

theorem getD_mem_take {k' : Nat} (hk : k < C.length) (h : k' < k) : C.getD k' 0 ∈ C.take k := by
  rw [List.getD_eq_getElem _ _ (h.trans hk)]
  exact List.mem_take_iff_getElem.2 ⟨k', by omega, rfl⟩

theorem getD_mem_drop {a k' : Nat} (h : a ≤ k') (hk' : k' < C.length) : C.getD k' 0 ∈ C.drop a := by
  rw [List.getD_eq_getElem _ _ hk']
  exact List.mem_drop_iff_getElem.2 ⟨k' - a, by omega, by congr 1; omega⟩

theorem leftBound_spec (hk : k < C.length) :
    (∀ k', k' < k → ¬ Taller x C k k') ∧ leftBound x C k = 0 ∨
    ∃ k', k' < k ∧ Taller x C k k' ∧ (∀ k'', k' < k'' → k'' < k → ¬ Taller x C k k'') ∧
      leftBound x C k = C.getD k' 0 + 1 := by
  cases h : leftEdge x C k with
  | none =>
    refine .inl ⟨fun k' hk' => ?_, by rw [leftBound, h]⟩
    exact List.find?_eq_none.1 h _ (List.mem_reverse.2 (getD_mem_take hk hk'))
  | some q =>
    obtain ⟨htall, i, hi, rfl, hbefore⟩ := List.find?_eq_some_iff_getElem.1 h
    rw [List.length_reverse, List.length_take_of_le hk.le] at hi
    have hat : ∀ j (hj : j < (C.take k).reverse.length), (C.take k).reverse[j] = C.getD (k - 1 - j) 0 := by
      intro j hj
      rw [List.getElem_reverse, List.getElem_take, List.getD_eq_getElem _ _ (by omega)]
      simp [Nat.min_eq_left hk.le]
    rw [hat] at h htall
    refine .inr ⟨k - 1 - i, by omega, htall, fun k'' hlt hk'' => ?_, by rw [leftBound, h]⟩
    have hshort := hbefore (k - 1 - k'') (by omega)
    rwa [hat, Nat.sub_sub_self (by omega), Bool.not_eq_true', ← Bool.not_eq_true] at hshort

theorem rightBound_spec :
    (∀ k', k < k' → k' < C.length → ¬ Taller x C k k') ∧ rightBound x C k = x.length - 1 ∨
    ∃ k', k < k' ∧ k' < C.length ∧ Taller x C k k' ∧ (∀ k'', k < k'' → k'' < k' → ¬ Taller x C k k'') ∧
      rightBound x C k = C.getD k' 0 := by
  cases h : rightEdge x C k with
  | none =>
    refine .inl ⟨fun k' hlt hk' => ?_, by rw [rightBound, h]⟩
    exact List.find?_eq_none.1 h _ (getD_mem_drop hlt hk')
  | some q =>
    obtain ⟨htall, i, hi, rfl, hbefore⟩ := List.find?_eq_some_iff_getElem.1 h
    rw [List.length_drop] at hi
    rw [getElem_drop_eq_getD 0] at h htall
    refine .inr ⟨k + 1 + i, by omega, by omega, htall, fun k'' hlt hk'' => ?_, by rw [rightBound, h]⟩
    have hshort := hbefore (k'' - (k + 1)) (by omega)
    rwa [getElem_drop_eq_getD 0, Nat.add_sub_cancel' hlt, Bool.not_eq_true', ← Bool.not_eq_true] at hshort

/-- Settles O34 with the bounds of the two ranges (`leftBound_spec`, `rightBound_spec`). -/
theorem prominenceUsesNearestTallerCandidates : Obligations.ProminenceUsesNearestTallerCandidates :=
  fun x C k hk => ⟨leftBound x C k, rightBound x C k, leftBound_spec hk, rightBound_spec,
    congrArg (fsub (sampleAt x (C.getD k 0))) (prominenceRef_eq x C k)⟩

end Sys2Proof.Machine
end

section
/-! A positive difference (rule R6): the rounded difference of ordered samples is above 0, infinities included. -/

namespace Sys2Proof.Machine

theorem fgt_zero_iff (w : Word) : fgt w 0#64 = true ↔ fisNaN w = false ∧ fsign w = false ∧ 0 < fbits63 w := by
  have hzero : fisNaN 0#64 = false ∧ fkey 0#64 = 0 := by decide
  rw [fgt_iff, hzero.1, hzero.2]
  cases hs : fsign w <;> simp [fkey, hs]

theorem isFinite_or_fisInf {w : Word} (h : fisNaN w = false) : isFinite w = true ∨ fisInf w = true := by
  rw [← Bool.not_eq_true, fisNaN_iff] at h
  rw [isFinite_iff, fisInf_iff]
  omega

/-- A magnitude that is not 0 rounds to a pattern that is not 0 nor beyond infinity's: the smallest subnormal is nearer. -/
theorem NearestEven.bounds {n low : Nat} (h : NearestEven n 0 low) (hn : n ≠ 0) : 0 < low ∧ low ≤ infBits := by
  have hinf : 1 < infBits := by decide
  obtain ⟨hlow, -, hnear⟩ | ⟨rfl, -⟩ := h
  · refine ⟨Nat.pos_of_ne_zero ?_, hlow.le⟩
    rintro rfl
    have hone : fmag (fpack false 1) = 1 := by decide
    have hzero : fmag (fpack false 0) = 0 := by decide
    have herr := (hnear 1 hinf).1
    rw [hone, hzero, Nat.shiftLeft_zero, Nat.shiftLeft_zero] at herr
    omega
  · exact ⟨by omega, le_rfl⟩

theorem fsub_pos_of_isFinite {a b : Word} (ha : isFinite a = true) (hb : isFinite b = true) (h : flt b a = true) :
    fgt (fsub a b) 0#64 = true := by
  have hpos : 0 < fexact a - fexact b := sub_pos.2 ((comparisons_exact_of_isFinite hb ha).2.1.1 h)
  obtain ⟨-, -, hsub, -⟩ := arithmeticRoundsOnceToNearestEven a b ha hb
  obtain ⟨hsign, hnear⟩ := hsub hpos.ne'
  obtain ⟨hlow, hinf⟩ := hnear.bounds (Int.natAbs_ne_zero.2 hpos.ne')
  rw [fgt_zero_iff, ← Bool.not_eq_true (fisNaN _), fisNaN_iff]
  exact ⟨hinf.not_gt, by rw [hsign, decide_eq_false hpos.not_gt], hlow⟩

theorem fgt_zero_of_fisInf {w : Word} (h : fisInf w = true) (hs : fsign w = false) : fgt w 0#64 = true := by
  rw [fgt_zero_iff, (fisInf_iff w).1 h]
  exact ⟨fisNaN_of_fisInf h, hs, by decide⟩

/-- An infinity above `b` is positive, and stays as it is. -/
theorem fsub_pos_of_fisInf_left {a b : Word} (ha : fisInf a = true) (hb : fisNaN b = false) (h : fkey b < fkey a) :
    fgt (fsub a b) 0#64 = true := by
  have hapart : isFinite b = true ∨ fsign b ≠ fsign a :=
    (isFinite_or_fisInf hb).imp_right fun hib hs => h.ne (fkey_eq_of_fisInf hib ha hs)
  have hs : fsign a = false := by
    by_contra hs
    have hbeyond := fkey_beyond_of_fisInf ha hapart
    rw [if_pos (by simpa using hs)] at hbeyond
    omega
  have hsub : fsub a b = a := by
    rcases isFinite_or_fisInf hb with hfb | hib
    · exact (sums_of_infinity_and_finite ha hfb).2.1
    · rw [(arithmetic_of_infinities ha hib).2.1, if_neg fun hs => h.ne' (fkey_eq_of_fisInf ha hib hs)]
  rw [hsub]
  exact fgt_zero_of_fisInf ha hs

/-- An infinity below a finite sample is negative, and the difference is the positive one. -/
theorem fsub_pos_of_fisInf_right {a b : Word} (ha : isFinite a = true) (hb : fisInf b = true) (h : fkey b < fkey a) :
    fgt (fsub a b) 0#64 = true := by
  have hs : fsign b = true := by
    by_contra hs
    have hbeyond := fkey_beyond_of_fisInf hb (.inl ha)
    rw [if_neg hs] at hbeyond
    omega
  rw [(sums_of_infinity_and_finite hb ha).2.2.2]
  exact fgt_zero_of_fisInf (by rwa [fisInf_fneg]) (by rw [fsign_fneg, hs, Bool.not_true])

theorem fsub_pos {a b : Word} (h : flt b a = true) : fgt (fsub a b) 0#64 = true := by
  obtain ⟨hb, ha, hkey⟩ := (flt_iff b a).1 h
  rcases isFinite_or_fisInf ha with hfa | hia
  · rcases isFinite_or_fisInf hb with hfb | hib
    · exact fsub_pos_of_isFinite hfa hfb h
    · exact fsub_pos_of_fisInf_right hfa hib hkey
  · exact fsub_pos_of_fisInf_left hia hb hkey

end Sys2Proof.Machine
end

section
/-! The prominence of a Stage A candidate (rules R143, R149): both of its ranges hold a sample below the candidate's. -/

namespace Sys2Proof.Machine

theorem foldMin_le_of_mem {l : List Word} {v : Word} (hmin : fisNaN (foldMin l) = false) (hv : v ∈ l)
    (hn : fisNaN v = false) : fle (foldMin l) v = true := by
  obtain ⟨r, rest, rfl⟩ := List.exists_cons_of_ne_nil (List.ne_nil_of_mem hv)
  have hr : fisNaN r = false := by
    by_contra hr
    rw [Bool.not_eq_false] at hr
    rw [(folds_of_leading_nan hr rest).2, hr] at hmin
    cases hmin
  have hkey := ((foldMin_isFirstMax hr rest).key_le hv).resolve_left (by simp [hn])
  exact (fle_iff _ _).2 ⟨hmin, hn, neg_le_neg_iff.1 hkey⟩

theorem flt_of_fle_of_fgt {a b c : Word} (hab : fle a b = true) (hcb : fgt c b = true) : flt a c = true := by
  obtain ⟨ha, -, hle⟩ := (fle_iff a b).1 hab
  obtain ⟨hc, -, hlt⟩ := (fgt_iff c b).1 hcb
  exact (flt_iff a c).2 ⟨ha, hc, hle.trans_lt hlt⟩

theorem sampleAt_mem_slice {x : List Word} {lo hi i : Nat} (hlo : lo ≤ i) (hi' : i ≤ hi) (hlt : hi < x.length) :
    sampleAt x i ∈ slice x lo hi := by
  rw [slice_eq_map hlt]
  exact List.mem_map_of_mem (List.mem_range'_1.2 (by omega))

/-- The minimum of a range whose first sample is no NaN is no NaN. -/
theorem not_nan_foldMin_slice {x : List Word} {lo hi : Nat} (hle : lo ≤ hi) (hlt : hi < x.length)
    (h : fisNaN (sampleAt x lo) = false) : fisNaN (foldMin (slice x lo hi)) = false := by
  have hcons : slice x lo hi = sampleAt x lo :: (List.range' (lo + 1) (hi - lo)).map (sampleAt x) := by
    rw [slice_eq_map hlt, show hi + 1 - lo = hi - lo + 1 by omega, List.range'_succ, List.map_cons]
  rw [hcons]
  obtain ⟨-, -, -, -, -, hmin⟩ := foldMin_isFirstMax h ((List.range' (lo + 1) (hi - lo)).map (sampleAt x))
  exact hmin

theorem getD_rel_of_pairwise {R : Nat → Nat → Prop} {C : List Nat} (h : C.Pairwise R) {i j : Nat} (hij : i < j)
    (hj : j < C.length) : R (C.getD i 0) (C.getD j 0) := by
  rw [List.getD_eq_getElem _ _ (hij.trans hj), List.getD_eq_getElem _ _ hj]
  exact List.pairwise_iff_getElem.1 h i j _ hj hij

section Candidate

variable {x : List Word} {k : Nat} (hk : k < (stageA x).length)
include hk

/-- Candidate `k` of Stage A: a rise into it, and a fall at its plateau's end. -/
theorem stageA_getD :
    1 ≤ (stageA x).getD k 0 ∧ plateauEnd x ((stageA x).getD k 0) < x.length ∧
    fgt (sampleAt x ((stageA x).getD k 0)) (sampleAt x ((stageA x).getD k 0 - 1)) = true ∧
    fgt (sampleAt x ((stageA x).getD k 0)) (sampleAt x (plateauEnd x ((stageA x).getD k 0))) = true := by
  obtain ⟨hpos, -, hcand⟩ := mem_stageA.1 (getD_mem hk)
  obtain ⟨hrise, hin, hfall⟩ := (isCandidate_iff _ _).1 hcand
  exact ⟨hpos, hin, hrise, hfall⟩

theorem leftBound_lt : leftBound x (stageA x) k < (stageA x).getD k 0 := by
  obtain ⟨hpos, -⟩ := stageA_getD hk
  rcases leftBound_spec (x := x) hk with ⟨-, hlo⟩ | ⟨k', hlt, -, -, hlo⟩
  · omega
  · have hgap := getD_rel_of_pairwise (stageA_gaps x) hlt hk
    omega

/-- The right range reaches the plateau's end: the samples before it are not taller. -/
theorem plateauEnd_le_rightBound :
    plateauEnd x ((stageA x).getD k 0) ≤ rightBound x (stageA x) k ∧ rightBound x (stageA x) k < x.length := by
  obtain ⟨-, hin, -⟩ := stageA_getD hk
  rcases rightBound_spec (x := x) (C := stageA x) (k := k) with ⟨-, hhi⟩ | ⟨k', hlt, hk', htall, -, hhi⟩
  · omega
  · have hgap := getD_rel_of_pairwise (stageA_gaps x) hlt hk'
    obtain ⟨-, hbefore⟩ := mem_stageA_bounds (getD_mem hk')
    refine ⟨?_, by omega⟩
    rw [hhi]
    by_contra hshort
    have heq := feq_plateau hin (by omega) (Nat.lt_of_not_le hshort)
    exact ((fgt_iff _ _).1 htall).2.2.ne' ((feq_iff _ _).1 heq).2.2

theorem leftMin_lt (h : fisNaN (leftMin x (stageA x) k) = false) :
    flt (leftMin x (stageA x) k) (sampleAt x ((stageA x).getD k 0)) = true := by
  obtain ⟨hpos, hin, hrise, -⟩ := stageA_getD hk
  have hlo := leftBound_lt hk
  have hend := lt_plateauEnd x ((stageA x).getD k 0)
  have hmem := sampleAt_mem_slice (x := x) (lo := leftBound x (stageA x) k) (i := (stageA x).getD k 0 - 1)
    (by omega) le_rfl (by omega)
  exact flt_of_fle_of_fgt (foldMin_le_of_mem h hmem ((fgt_iff _ _).1 hrise).2.1) hrise

/-- The sample after a candidate is equal to it, or is its fall. -/
theorem not_nan_sampleAt_succ : fisNaN (sampleAt x ((stageA x).getD k 0 + 1)) = false := by
  obtain ⟨-, hin, -, hfall⟩ := stageA_getD hk
  rcases (Nat.succ_le_of_lt (lt_plateauEnd x ((stageA x).getD k 0))).lt_or_eq with hlt | heq
  · exact ((feq_iff _ _).1 (feq_plateau hin (Nat.lt_succ_self _) hlt)).1
  · rw [← heq] at hfall
    exact ((fgt_iff _ _).1 hfall).2.1

theorem rightMin_lt : flt (rightMin x (stageA x) k) (sampleAt x ((stageA x).getD k 0)) = true := by
  obtain ⟨-, -, -, hfall⟩ := stageA_getD hk
  obtain ⟨hle, hlt⟩ := plateauEnd_le_rightBound hk
  have hend := lt_plateauEnd x ((stageA x).getD k 0)
  have hmin := not_nan_foldMin_slice (by omega) hlt (not_nan_sampleAt_succ hk)
  have hmem := sampleAt_mem_slice (Nat.succ_le_of_lt hend) hle hlt
  exact flt_of_fle_of_fgt (foldMin_le_of_mem hmin hmem ((fgt_iff _ _).1 hfall).2.1) hfall

/-- A left minimum that is a NaN is never taken: it is not greater than the right one. -/
theorem prominenceRef_lt : flt (prominenceRef x (stageA x) k) (sampleAt x ((stageA x).getD k 0)) = true := by
  rw [prominenceRef_eq]
  split
  next hgt => exact leftMin_lt hk ((fgt_iff _ _).1 hgt).1
  next => exact rightMin_lt hk

theorem prominence_pos : fgt (prominence x (stageA x) k) 0#64 = true := fsub_pos (prominenceRef_lt hk)

end Candidate

/-- Settles O35: the reference is below the candidate (`prominenceRef_lt`), so the rounded difference is above 0 (`fsub_pos`). -/
theorem prominenceIsPositive : Obligations.ProminenceIsPositive := fun _ _ hk =>
  ⟨((flt_iff _ _).1 (prominenceRef_lt hk)).1, prominenceRef_lt hk, ((fgt_iff _ _).1 (prominence_pos hk)).1, prominence_pos hk⟩

end Sys2Proof.Machine
end

section
/-! Stage B (rule R144): a part of its list, by positions in it. -/

namespace Sys2Proof.Machine

theorem map_getD_range (C : List Nat) : (List.range C.length).map (fun k => C.getD k 0) = C := by
  refine List.ext_getElem (by simp) fun k _ hk => ?_
  rw [List.getElem_map, List.getElem_range, List.getD_eq_getElem _ _ hk]

theorem stageB_sublist (x : List Word) (C : List Nat) (thr : Word) : List.Sublist (stageB x C thr) C := by
  have hsub := (List.filter_sublist (p := fun k => !fle (prominence x C k) thr)
    (l := List.range C.length)).map (fun k => C.getD k 0)
  rwa [map_getD_range] at hsub

theorem mem_stageB {x : List Word} {C : List Nat} {thr : Word} {q : Nat} :
    q ∈ stageB x C thr ↔ ∃ k, k < C.length ∧ C.getD k 0 = q ∧ fle (prominence x C k) thr = false := by
  simp only [stageB, List.mem_map, List.mem_filter, List.mem_range, Bool.not_eq_true', and_assoc]
  exact exists_congr fun _ => and_congr_right fun _ => and_comm

/-- A list without repetitions holds a value at one position only. -/
theorem getD_mem_stageB {x : List Word} {C : List Nat} (hC : C.Nodup) {thr : Word} {k : Nat} (hk : k < C.length) :
    C.getD k 0 ∈ stageB x C thr ↔ fle (prominence x C k) thr = false := by
  rw [mem_stageB]
  refine ⟨?_, fun h => ⟨k, hk, rfl, h⟩⟩
  rintro ⟨k', hk', heq, h⟩
  rw [List.getD_eq_getElem _ _ hk, List.getD_eq_getElem _ _ hk', hC.getElem_inj_iff] at heq
  rwa [heq] at h

theorem fle_eq_false_iff {a b : Word} (ha : fisNaN a = false) (hb : fisNaN b = false) :
    fle a b = false ↔ fgt a b = true := by
  obtain ⟨hgt, -, hle, -⟩ := comparisons_eq_of_not_nan ha hb
  rw [hgt, hle, decide_eq_false_iff_not, decide_eq_true_iff, not_le]

theorem stageA_ascending (x : List Word) : (stageA x).Pairwise (fun p q => p < q) :=
  (stageAFindsPlateauMaxima x).1

/-- Settles O36: against an enabled threshold, no NaN, a positive prominence is either at most it or above it. -/
theorem stageBKeepsTheProminent : Obligations.StageBKeepsTheProminent := by
  refine fun x thr => ⟨stageB_sublist x _ thr, fun _ => mem_stageB, fun hthr k hk => ?_⟩
  obtain ⟨hthr, -⟩ := (fgt_iff _ _).1 hthr
  obtain ⟨hprom, -⟩ := (fgt_iff _ _).1 (prominence_pos hk)
  rw [getD_mem_stageB (stageA_ascending x).nodup hk, fle_eq_false_iff hprom hthr]

end Sys2Proof.Machine
end

section
/-! Stage C's order (rule R145): candidates sorted so that the taller, then the earlier, come first. -/

namespace Sys2Proof.Machine

/-- Insertion into a sorted list, for a transitive relation that compares the new element with those of the list. -/
theorem pairwise_orderedInsert_of_comparable {α : Type} {r : α → α → Prop} [DecidableRel r] [IsTrans α r] {a : α}
    {l : List α} (hl : l.Pairwise r) (hcomp : ∀ b ∈ l, r a b ∨ r b a) : (l.orderedInsert r a).Pairwise r := by
  induction l with
  | nil => exact List.pairwise_singleton r a
  | cons b l ih =>
    obtain ⟨hb, hl'⟩ := List.pairwise_cons.1 hl
    obtain ⟨hab, hcomp'⟩ := List.forall_mem_cons.1 hcomp
    rw [List.orderedInsert_cons]
    split
    next h =>
      refine List.pairwise_cons.2 ⟨fun c hc => ?_, hl⟩
      rcases List.mem_cons.1 hc with rfl | hc
      · exact h
      · exact trans_of r h (hb c hc)
    next h =>
      refine List.pairwise_cons.2 ⟨fun c hc => ?_, ih hl' hcomp'⟩
      rcases (List.mem_orderedInsert r).1 hc with rfl | hc
      · exact hab.resolve_left h
      · exact hb c hc

/-- `List.pairwise_insertionSort` for a relation that is total on the list's pairs alone. -/
theorem pairwise_insertionSort_of_comparable {α : Type} {r : α → α → Prop} [DecidableRel r] [IsTrans α r] {l : List α}
    (hl : l.Pairwise (fun a b => r a b ∨ r b a)) : (l.insertionSort r).Pairwise r := by
  induction l with
  | nil => exact List.Pairwise.nil
  | cons a l ih =>
    obtain ⟨ha, hl⟩ := List.pairwise_cons.1 hl
    exact pairwise_orderedInsert_of_comparable (ih hl) fun b hb => ha b ((List.mem_insertionSort r).1 hb)

theorem comesBefore_iff (x : List Word) (p q : Nat) :
    comesBefore x p q = true ↔ fisNaN (sampleAt x p) = false ∧ fisNaN (sampleAt x q) = false ∧
      (fkey (sampleAt x q) < fkey (sampleAt x p) ∨ fkey (sampleAt x p) = fkey (sampleAt x q) ∧ p < q) := by
  rw [comesBefore, Bool.or_eq_true, Bool.and_eq_true, fgt_iff, feq_iff, decide_eq_true_iff]
  tauto

theorem comesBefore_trans (x : List Word) {p q r : Nat} (hpq : comesBefore x p q = true) (hqr : comesBefore x q r = true) :
    comesBefore x p r = true := by
  obtain ⟨hp, -, hpq⟩ := (comesBefore_iff x p q).1 hpq
  obtain ⟨-, hr, hqr⟩ := (comesBefore_iff x q r).1 hqr
  exact (comesBefore_iff x p r).2 ⟨hp, hr, by omega⟩

/-- Of two candidates that are no NaNs, one comes before the other. -/
theorem comesBefore_total {x : List Word} {p q : Nat} (hp : fisNaN (sampleAt x p) = false)
    (hq : fisNaN (sampleAt x q) = false) (hlt : p < q) : comesBefore x p q = true ∨ comesBefore x q p = true := by
  simp only [comesBefore_iff, hp, hq, true_and]
  omega

/-- The order in which Stage C takes the candidates. -/
def byHeight (x : List Word) (C : List Nat) : List Nat := C.insertionSort (fun p q => comesBefore x p q = true)

theorem byHeight_perm (x : List Word) (C : List Nat) : List.Perm (byHeight x C) C := List.perm_insertionSort _ C

theorem byHeight_pairwise {x : List Word} {C : List Nat} (hC : C.Pairwise (fun p q => p < q))
    (hn : ∀ p ∈ C, fisNaN (sampleAt x p) = false) : (byHeight x C).Pairwise (fun p q => comesBefore x p q = true) := by
  have htrans : IsTrans Nat (fun p q => comesBefore x p q = true) := ⟨fun _ _ _ => comesBefore_trans x⟩
  exact pairwise_insertionSort_of_comparable
    (hC.imp_of_mem fun hp hq hlt => comesBefore_total (hn _ hp) (hn _ hq) hlt)

end Sys2Proof.Machine
end

section
/-! Stage C's greedy choice (rule R145): what is kept, and why a candidate is dropped. -/

namespace Sys2Proof.Machine

variable {dist : Nat} {K l : List Nat}

/-- A step keeps a candidate that is far from all kept ones, and drops one that is near to a kept one. -/
theorem keepStep_cases (dist : Nat) (K : List Nat) (p : Nat) :
    (keepStep dist K p = K ++ [p] ∧ ∀ q ∈ K, dist < indexDistance p q) ∨
    (keepStep dist K p = K ∧ ∃ q ∈ K, indexDistance p q ≤ dist) := by
  unfold keepStep
  split
  next h => exact .inl ⟨rfl, by simpa using h⟩
  next h => exact .inr ⟨rfl, by simpa using h⟩

/-- What is kept stays kept. -/
theorem subset_foldl_keepStep (dist : Nat) (l K : List Nat) : K ⊆ l.foldl (keepStep dist) K := by
  induction l generalizing K with
  | nil => exact List.Subset.refl K
  | cons p l ih =>
    refine List.Subset.trans ?_ (ih (keepStep dist K p))
    rcases keepStep_cases dist K p with ⟨h, -⟩ | ⟨h, -⟩ <;> rw [h]
    · exact List.subset_append_left K [p]
    · exact List.Subset.refl K

theorem foldl_keepStep_sublist (dist : Nat) (l K : List Nat) : List.Sublist (l.foldl (keepStep dist) K) (K ++ l) := by
  induction l generalizing K with
  | nil => simp
  | cons p l ih =>
    refine (ih (keepStep dist K p)).trans ?_
    rcases keepStep_cases dist K p with ⟨h, -⟩ | ⟨h, -⟩ <;> rw [h]
    · simp
    · exact (List.sublist_cons_self p l).append_left K

theorem indexDistance_comm (p q : Nat) : indexDistance p q = indexDistance q p := by
  unfold indexDistance
  omega

/-- All kept candidates are pairwise farther apart than the distance. -/
theorem foldl_keepStep_far (hK : K.Pairwise (fun p q => dist < indexDistance p q)) :
    (l.foldl (keepStep dist) K).Pairwise (fun p q => dist < indexDistance p q) := by
  induction l generalizing K with
  | nil => exact hK
  | cons p l ih =>
    refine ih ?_
    rcases keepStep_cases dist K p with ⟨h, hfar⟩ | ⟨h, -⟩ <;> rw [h]
    · refine List.pairwise_append.2 ⟨hK, List.pairwise_singleton _ p, fun q hq r hr => ?_⟩
      rw [List.mem_singleton.1 hr, indexDistance_comm]
      exact hfar q hq
    · exact hK

/-- A dropped candidate is near to a kept one that was taken before it. -/
theorem exists_kept_near_of_dropped {R : Nat → Nat → Prop} (hR : (K ++ l).Pairwise R) {p : Nat} (hp : p ∈ l)
    (hdrop : p ∉ l.foldl (keepStep dist) K) : ∃ q ∈ l.foldl (keepStep dist) K, indexDistance p q ≤ dist ∧ R q p := by
  induction l generalizing K with
  | nil => cases hp
  | cons a l ih =>
    obtain ⟨-, -, hbefore⟩ := List.pairwise_append.1 hR
    have hkept := subset_foldl_keepStep dist l (keepStep dist K a)
    rw [List.foldl_cons] at hdrop ⊢
    rcases keepStep_cases dist K a with ⟨h, -⟩ | ⟨h, q, hq, hnear⟩ <;> rw [h] at hdrop hkept ⊢
    · rcases List.mem_cons.1 hp with rfl | hp
      · exact absurd (hkept (List.mem_append_right K (List.mem_singleton_self p))) hdrop
      · exact ih (by simpa using hR) hp hdrop
    · rcases List.mem_cons.1 hp with rfl | hp
      · exact ⟨q, hkept hq, hnear, hbefore q hq p hp⟩
      · exact ih (hR.sublist ((List.sublist_cons_self a l).append_left K)) hp hdrop

/-- The candidates that Stage C keeps, in the order it takes them. -/
def keptOf (x : List Word) (C : List Nat) (dist : Nat) : List Nat := (byHeight x C).foldl (keepStep dist) []

theorem stageC_perm (x : List Word) (C : List Nat) (dist : Nat) : List.Perm (stageC x C dist) (keptOf x C dist) :=
  List.perm_insertionSort _ _

theorem stageC_sorted (x : List Word) (C : List Nat) (dist : Nat) : (stageC x C dist).Pairwise (fun p q => p ≤ q) :=
  List.pairwise_insertionSort _ _

theorem stageC_sublist (x : List Word) {C : List Nat} (dist : Nat) (hC : C.Pairwise (fun p q => p < q)) :
    List.Sublist (stageC x C dist) C := by
  have hsub : List.Subperm (stageC x C dist) C :=
    ((stageC_perm x C dist).subperm.trans (foldl_keepStep_sublist dist (byHeight x C) []).subperm).trans
      (byHeight_perm x C).subperm
  exact List.sublist_of_subperm_of_pairwise hsub (stageC_sorted x C dist) (hC.imp le_of_lt)

theorem stageC_far (x : List Word) (C : List Nat) (dist : Nat) :
    (stageC x C dist).Pairwise (fun p q => dist < q - p) := by
  have hfar : (stageC x C dist).Pairwise (fun p q => dist < indexDistance p q) :=
    ((stageC_perm x C dist).pairwise_iff fun {p q} h => by rwa [indexDistance_comm]).2
      (foldl_keepStep_far List.Pairwise.nil)
  refine ((stageC_sorted x C dist).and hfar).imp ?_
  unfold indexDistance
  omega

theorem exists_stageC_near_of_dropped {x : List Word} {C : List Nat} {dist p : Nat} (hC : C.Pairwise (fun p q => p < q))
    (hn : ∀ p ∈ C, fisNaN (sampleAt x p) = false) (hp : p ∈ C) (hdrop : p ∉ stageC x C dist) :
    ∃ q ∈ stageC x C dist, indexDistance p q ≤ dist ∧ comesBefore x q p = true := by
  simp only [(stageC_perm x C dist).mem_iff] at hdrop ⊢
  exact exists_kept_near_of_dropped (K := []) (byHeight_pairwise hC hn) ((byHeight_perm x C).mem_iff.2 hp) hdrop

/-- Settles O37: Stage C drops a candidate only for a kept one taken before it (`exists_kept_near_of_dropped`). -/
theorem stageCSpacesByHeight : Obligations.StageCSpacesByHeight := by
  intro x C dist hC hn
  have hdropped := fun p hp hdrop => exists_stageC_near_of_dropped (dist := dist) (p := p) hC hn hp hdrop
  refine ⟨stageC_sublist x dist hC, stageC_far x C dist, fun p hp hdrop => ?_, fun hne => ?_⟩
  · obtain ⟨q, hq, hnear, hbefore⟩ := hdropped p hp hdrop
    refine ⟨q, hq, ?_, by simpa [comesBefore] using hbefore⟩
    unfold indexDistance at hnear
    omega
  · obtain ⟨p, hp⟩ := List.exists_mem_of_ne_nil C hne
    by_cases hkept : p ∈ stageC x C dist
    · exact List.ne_nil_of_mem hkept
    · obtain ⟨q, hq, -⟩ := hdropped p hp hkept
      exact List.ne_nil_of_mem hq

end Sys2Proof.Machine
end

section
/-! The peak indices (rules R140, R142, R146, R149): a part of Stage A's list, whatever stages are enabled. -/

namespace Sys2Proof.Machine

/-- The candidates that Stage B leaves, when it is enabled (rule R142). -/
def afterStageB (x : List Word) (thr : Word) : List Nat := if fgt thr 0#64 then stageB x (stageA x) thr else stageA x

theorem peakIndices_eq (x : List Word) (dist : Nat) (thr : Word) :
    peakIndices x dist thr = if x.length < 3 then [] else if dist = 0 then afterStageB x thr
      else stageC x (afterStageB x thr) dist := by
  simp only [peakIndices, afterStageB, gt_iff_lt, Nat.pos_iff_ne_zero, ite_not]

theorem afterStageB_sublist (x : List Word) (thr : Word) : List.Sublist (afterStageB x thr) (stageA x) := by
  unfold afterStageB
  split
  · exact stageB_sublist x (stageA x) thr
  · exact List.Sublist.refl _

theorem peakIndices_sublist (x : List Word) (dist : Nat) (thr : Word) :
    List.Sublist (peakIndices x dist thr) (stageA x) := by
  have hB := afterStageB_sublist x thr
  rw [peakIndices_eq]
  split
  · exact List.nil_sublist _
  · split
    · exact hB
    · exact (stageC_sublist x dist ((stageA_ascending x).sublist hB)).trans hB

/-- Settles O38: what holds of Stage A's candidates holds of a part of them. -/
theorem peakIndicesFitTheRegion : Obligations.PeakIndicesFitTheRegion := by
  intro x dist thr
  have hsub := peakIndices_sublist x dist thr
  refine ⟨(stageA_gaps x).sublist hsub, hsub, fun p hp => ?_, length_peakIndices_le x dist thr⟩
  obtain ⟨hpos, hlt⟩ := mem_stageA_bounds (hsub.subset hp)
  obtain ⟨-, -, hcand⟩ := mem_stageA.1 (hsub.subset hp)
  obtain ⟨hrise, -⟩ := (isCandidate_iff x p).1 hcand
  exact ⟨hpos, by omega, ((fgt_iff _ _).1 hrise).1, hrise⟩

end Sys2Proof.Machine
end

section
/-! The command PEAKS (rules R140, R147, R148): what it writes, and that it leaves all else. -/

namespace Sys2Proof.Machine

variable {s : State}

theorem inputSignal_eq_map (s : State) :
    inputSignal s =
      (List.range s.ops.srcLen.toNat).map (fun k => Memory.readWord s.mem (s.ops.srcBase.toNat + k)) := rfl

theorem peaksOf_eq (s : State) :
    peaksOf s = if s.ops.srcLen.toNat < 3 then []
      else if s.ops.pkMindist = 0#32 then afterStageB (inputSignal s) s.ops.pkMinprom
      else stageC (inputSignal s) (afterStageB (inputSignal s) s.ops.pkMinprom) s.ops.pkMindist.toNat := by
  rw [peaksOf, peakIndices_eq, length_inputSignal]
  simp only [← BitVec.toNat_inj, BitVec.toNat_ofNat, Nat.zero_mod]

/-- The number of peaks fits PK_COUNT. -/
theorem length_peaksOf_lt (s : State) : (peaksOf s).length < 2 ^ 32 := by
  have hle := length_peakIndices_le (inputSignal s) s.ops.pkMindist.toNat s.ops.pkMinprom
  have hlen := s.ops.srcLen.isLt
  rw [length_inputSignal, maxPeaks_eq] at hle
  rw [peaksOf]
  split at hle <;> omega

theorem lt_of_mem_peaksOf {p : Nat} (hp : p ∈ peaksOf s) : p < 2 ^ 64 := by
  obtain ⟨-, hlt⟩ := mem_stageA_bounds ((peakIndices_sublist _ _ _).subset hp)
  have hlen := s.ops.srcLen.isLt
  rw [length_inputSignal] at hlt
  omega

/-- A peak index reads back from the word it was written as. -/
theorem toNat_peakWord {k : Nat} (hk : k < (peaksOf s).length) :
    (((peaksOf s).map (fun p => BitVec.ofNat 64 p)).getD k 0#64).toNat = (peaksOf s).getD k 0 := by
  rw [List.getD_eq_getElem _ _ (by rwa [List.length_map]), List.getElem_map, List.getD_eq_getElem _ _ hk]
  exact toNat_ofNat_of_lt (lt_of_mem_peaksOf (List.getElem_mem hk))

/-- PEAKS, once its check passes, counts and writes the peaks of its input signal and nothing else. -/
theorem exec_peaks_of_passes (h : peaksPasses s) :
    ∃ t, exec .peaks s = .next t ∧ succeeded s t ∧
      (t.pkCount.toNat = (peaksOf s).length ∧
       (∀ k, k < (peaksOf s).length →
         (Memory.readWord t.mem (s.ops.dstBase.toNat + k)).toNat = (peaksOf s).getD k 0) ∧
       sameOutside s.mem t.mem s.ops.dstBase.toNat (peaksOf s).length) ∧
      sameElsewhere s t ∧ t.iir = s.iir := by
  have hexec := exec_of_passes (i := .peaks) ((peaksChecks_eq_noError_iff s).2 h)
  refine ⟨_, hexec, ⟨rfl, rfl⟩, ⟨?_, fun k hk => ?_, fun a ha => ?_⟩, exec_sameElsewhere hexec, rfl⟩
  · exact Nat.mod_eq_of_lt (length_peaksOf_lt s)
  · rw [complete_mem, performOf, performPeaks_mem, Memory.readWord_writeWords _ _ _ _ (by rwa [List.length_map])]
    exact toNat_peakWord hk
  · rw [complete_mem, performOf, performPeaks_mem, Memory.readByte_writeWords_outside _ _ _ _
      (by rw [List.length_map]; omega)]

/-- Settles O20: the peaks PEAKS writes (`exec_peaks_of_passes`) are those the enabled stages leave (`peaksOf_eq`). -/
theorem peaksWritesTheIndices : Obligations.PeaksWritesTheIndices := by
  intro s h
  have hexec := exec_peaks_of_passes h
  rw [peaksOf_eq] at hexec
  exact hexec

end Sys2Proof.Machine
end

section
/-! Samples of pieces of a sequence, and the history buffers (rules R164, R166): what follows the carried history, and what is
carried on. -/

namespace Sys2Proof.Machine

theorem sampleAt_append (l r : List Word) (j : Nat) :
    sampleAt (l ++ r) j = if j < l.length then sampleAt l j else sampleAt r (j - l.length) := by
  unfold sampleAt
  split
  next h => exact List.getD_append _ _ _ _ h
  next h => exact List.getD_append_right _ _ _ _ (not_lt.1 h)

theorem sampleAt_drop (l : List Word) (n k : Nat) : sampleAt (l.drop n) k = sampleAt l (n + k) := by
  simp [sampleAt, List.getD]

theorem sampleAt_take (l : List Word) {n k : Nat} (h : k < n) : sampleAt (l.take n) k = sampleAt l k := by
  simp [sampleAt, List.getD, h]

theorem eq_of_sampleAt_eq {x y : List Word} (hlen : y.length = x.length)
    (h : ∀ i, i < x.length → sampleAt y i = sampleAt x i) : y = x := by
  rw [← map_sampleAt_range x, ← map_sampleAt_range y, hlen]
  exact List.map_congr_left fun i hi => h i (List.mem_range.1 hi)

section History

variable {L : Nat} {h : List Word} (hL : L ≤ h.length)
include hL

/-- An extended sequence of rule R164: the first L entries of a history, then the samples. -/
theorem sampleAt_take_append (v : List Word) (j : Nat) :
    sampleAt (h.take L ++ v) j = if j < L then sampleAt h j else sampleAt v (j - L) := by
  rw [sampleAt_append, List.length_take_of_le hL]
  split
  next hj => exact sampleAt_take h hj
  next => rfl

theorem trailing_eq (v : List Word) : trailing L h v = (h.take L ++ v).drop v.length ++ h.drop L := by
  rw [trailing, lastOf, List.length_append, List.length_take_of_le hL, Nat.add_sub_cancel_left]

theorem take_trailing (v : List Word) : (trailing L h v).take L = (h.take L ++ v).drop v.length := by
  rw [trailing_eq hL, List.take_left' (by simp [hL])]

theorem sampleAt_trailing (v : List Word) {k : Nat} (hk : k < L) :
    sampleAt (trailing L h v) k = sampleAt (h.take L ++ v) (v.length + k) := by
  rw [← sampleAt_take _ hk, take_trailing hL, sampleAt_drop]

/-- The extended sequence of a second call is the one of the joined signal, less the first call's samples. -/
theorem take_trailing_append (v w : List Word) :
    (trailing L h v).take L ++ w = (h.take L ++ (v ++ w)).drop v.length := by
  rw [take_trailing hL, ← List.append_assoc, List.drop_append_of_le_length (l₁ := h.take L ++ v) (by simp)]

/-- Two calls carry on the history that one over the joined signal does. -/
theorem trailing_trailing (v w : List Word) : trailing L (trailing L h v) w = trailing L h (v ++ w) := by
  have hL' : L ≤ (trailing L h v).length := by rwa [length_trailing L h v hL]
  rw [trailing_eq hL', take_trailing_append hL, drop_trailing L h v hL, List.drop_drop, trailing_eq hL, List.length_append]

end History

end Sys2Proof.Machine
end

section
/-! The recursion (rules R164, R165): each output is a function of the samples at most L positions back, which determines the
outputs. -/

namespace Sys2Proof.Machine

/-- Output `i` reads the order, the coefficients but a[0], and the L samples before position `i` and the input at it. -/
theorem outputAt_congr {e e' : Iir} {xe xe' ye ye' : List Word} {i i' : Nat} (horder : e.order = e'.order)
    (hcb : e.cb = e'.cb) (hca : ∀ j, 1 ≤ j → sampleAt e.ca j = sampleAt e'.ca j)
    (hx : ∀ j, j ≤ e'.order → sampleAt xe (e'.order + i - j) = sampleAt xe' (e'.order + i' - j))
    (hy : ∀ j, 1 ≤ j → j ≤ e'.order → sampleAt ye (e'.order + i - j) = sampleAt ye' (e'.order + i' - j)) :
    outputAt e xe ye i = outputAt e' xe' ye' i' := by
  have hseed : sampleAt xe (e'.order + i) = sampleAt xe' (e'.order + i') := hx 0 (Nat.zero_le _)
  rw [outputAt, outputAt, horder, hcb, hseed]
  refine List.foldl_ext _ _ _ fun acc j hj => ?_
  obtain ⟨hpos, hle⟩ : 1 ≤ j ∧ j ≤ e'.order := by rw [List.mem_range'_1] at hj; omega
  rw [lagStep, lagStep, horder, hcb, hca j hpos, hx j hle, hy j hpos hle]

/-- The extended output after its first `n` outputs. -/
def grownOutput (e : Iir) (x : List Word) (n : Nat) : List Word :=
  (List.range n).foldl (fun ye i => ye ++ [outputAt e (extendedInput e x) ye i]) (e.yh.take e.order)

theorem extendedOutput_eq_grownOutput (e : Iir) (x : List Word) : extendedOutput e x = grownOutput e x x.length := rfl

theorem grownOutput_succ (e : Iir) (x : List Word) (n : Nat) :
    grownOutput e x (n + 1) = grownOutput e x n ++ [outputAt e (extendedInput e x) (grownOutput e x n) n] := by
  simp [grownOutput, List.range_succ]

theorem length_grownOutput (e : Iir) (x : List Word) (n : Nat) :
    (grownOutput e x n).length = (e.yh.take e.order).length + n := by
  rw [grownOutput, length_foldl_append_one (fun ye i => outputAt e (extendedInput e x) ye i), List.length_range]

theorem grownOutput_prefix (e : Iir) (x : List Word) {n m : Nat} (h : n ≤ m) : grownOutput e x n <+: grownOutput e x m := by
  induction m, h using Nat.le_induction with
  | base => exact List.prefix_rfl
  | succ m _ ih => exact ih.trans (grownOutput_succ e x m ▸ List.prefix_append _ _)

theorem extendedOutput_eq (e : Iir) (x : List Word) : extendedOutput e x = e.yh.take e.order ++ recursion e x := by
  obtain ⟨r, hr⟩ : e.yh.take e.order <+: extendedOutput e x := grownOutput_prefix e x (Nat.zero_le x.length)
  rw [recursion, ← hr, List.drop_left]

section Determined

variable {e : Iir} (hL : e.order ≤ e.yh.length)
include hL

/-- Rule R165: output `i` of the recursion, over the whole extended output. -/
theorem sampleAt_recursion {x : List Word} {i : Nat} (hi : i < x.length) :
    sampleAt (recursion e x) i = outputAt e (extendedInput e x) (e.yh.take e.order ++ recursion e x) i := by
  have hlen (n : Nat) : (grownOutput e x n).length = e.order + n := by
    rw [length_grownOutput, List.length_take_of_le hL]
  have hprefix {n k : Nat} (hn : n ≤ x.length) (hk : k < e.order + n) :
      sampleAt (extendedOutput e x) k = sampleAt (grownOutput e x n) k := by
    obtain ⟨r, hr⟩ := grownOutput_prefix e x hn
    rw [extendedOutput_eq_grownOutput, ← hr, sampleAt_append, if_pos (by rwa [hlen])]
  rw [← extendedOutput_eq]
  calc sampleAt (recursion e x) i
      = sampleAt (grownOutput e x (i + 1)) (e.order + i) := by
        rw [recursion, sampleAt_drop, List.length_take_of_le hL, hprefix hi (by omega)]
    _ = outputAt e (extendedInput e x) (grownOutput e x i) i := by
        rw [grownOutput_succ, sampleAt_append, hlen, if_neg (lt_irrefl _), Nat.sub_self]
        rfl
    _ = outputAt e (extendedInput e x) (extendedOutput e x) i :=
        outputAt_congr rfl rfl (fun _ _ => rfl) (fun _ _ => rfl) fun j hpos _ => (hprefix hi.le (by omega)).symm

/-- The recursion has one solution. -/
theorem eq_recursion {x y : List Word} (hlen : y.length = x.length)
    (h : ∀ i, i < x.length → sampleAt y i = outputAt e (extendedInput e x) (e.yh.take e.order ++ y) i) :
    y = recursion e x := by
  refine eq_of_sampleAt_eq (by rw [hlen, length_recursion]) fun i hi => ?_
  rw [length_recursion] at hi
  induction i using Nat.strong_induction_on with
  | _ i ih =>
    rw [h i hi, sampleAt_recursion hL hi]
    refine outputAt_congr rfl rfl (fun _ _ => rfl) (fun _ _ => rfl) fun j hpos hle => ?_
    rw [sampleAt_take_append hL, sampleAt_take_append hL]
    split
    · rfl
    · exact ih _ (by omega) (by omega)

end Determined

/-- Settles O39: no output reads a[0] (`outputAt_congr`), and the histories hold inputs and outputs. -/
theorem leadingFeedbackCoefficientIsUnused : Obligations.LeadingFeedbackCoefficientIsUnused := by
  intro e x v
  have hca (j : Nat) (hj : 1 ≤ j) : sampleAt (e.ca.set 0 v) j = sampleAt e.ca j := by
    rw [sampleAt, sampleAt, List.getD_eq_getElem?_getD, List.getD_eq_getElem?_getD, List.getElem?_set_ne (by omega)]
  have hout (xe ye : List Word) (i : Nat) : outputAt { e with ca := e.ca.set 0 v } xe ye i = outputAt e xe ye i :=
    outputAt_congr rfl rfl hca (fun _ _ => rfl) fun _ _ _ => rfl
  have hrec : recursion { e with ca := e.ca.set 0 v } x = recursion e x := by
    simp only [recursion, extendedOutput, extendedInput, hout]
  exact ⟨hrec, congrArg (trailing e.order e.yh) hrec, rfl⟩

end Sys2Proof.Machine
end

section
/-! IIR_CONFIG and IIR_RESET (rules R161, R162): the engine they leave, and that they leave all else. -/

namespace Sys2Proof.Machine

theorem getElem?_paddedCoefs (s : State) (base len : Nat) {k : Nat} (hk : k ≤ s.params.maxOrder) :
    (paddedCoefs s base len)[k]? = some (if k < len then Memory.readWord s.mem (base + k) else 0#64) := by
  simp [paddedCoefs, Nat.lt_succ_of_le hk]

/-- Settles O17: what `performIirConfig` loads, entry by entry (`getElem?_paddedCoefs`). -/
theorem configLoadsTheFilter : Obligations.ConfigLoadsTheFilter := by
  intro s h
  have hexec := exec_of_passes (i := .iirConfig) ((iirConfigChecks_eq_noError_iff s).2 h)
  exact ⟨_, hexec, ⟨rfl, rfl⟩, rfl, rfl, rfl, length_paddedCoefs _ _ _, length_paddedCoefs _ _ _,
    fun k hk => ⟨getElem?_paddedCoefs _ _ _ hk, getElem?_paddedCoefs _ _ _ hk⟩, rfl, rfl, rfl,
    exec_sameElsewhere hexec, rfl⟩

/-- Settles O18: the check of IIR_RESET is CFG alone. -/
theorem resetReturnsTheFilterToIdle : Obligations.ResetReturnsTheFilterToIdle := by
  intro s
  refine ⟨fun hcfg => ?_, fun hcfg => ?_⟩
  · have hexec := exec_of_passes (i := .iirReset) ((iirResetChecks_eq_noError_iff s).2 hcfg)
    exact ⟨_, hexec, ⟨rfl, rfl⟩, rfl, rfl, exec_sameElsewhere hexec, rfl⟩
  · have hcode : iirResetChecks s = .notConfigured := by rw [iirResetChecks, firstFailure_cons, hcfg]; rfl
    rw [exec_of_fails (i := .iirReset) (by rw [checksOf, hcode]; decide), checksOf, hcode]
    rfl

end Sys2Proof.Machine
end

section
/-! IIR_APPLY (rules R163 to R166): its outputs and histories, and that it leaves all else. -/

namespace Sys2Proof.Machine

theorem Iir.Inv.order_le_xh {p : Params} {e : Iir} (h : Iir.Inv p e) : e.order ≤ e.xh.length :=
  h.orderLe.trans_eq h.xhLength.symm

theorem Iir.Inv.order_le_yh {p : Params} {e : Iir} (h : Iir.Inv p e) : e.order ≤ e.yh.length :=
  h.orderLe.trans_eq h.yhLength.symm

/-- An output word of a successful IIR_APPLY, and the engine it leaves. -/
theorem apply_of_success {s t : State} (h : exec .iirApply s = .next t) (ht : t.status.err = false) :
    (∀ k, k < s.ops.srcLen.toNat →
      Memory.readWord t.mem (s.ops.dstBase.toNat + k) = sampleAt (recursion s.iir (inputSignal s)) k) ∧
    t.iir = afterApply s.iir (inputSignal s) := by
  refine ⟨fun k hk => readWord_of_success h ht ?_, ?_⟩
  · simpa [outputOf] using hk
  · obtain ⟨-, rfl⟩ := exec_success h ht
    rfl

section Extended

variable {s : State} (h : s.Inv) {j : Nat} (hj : j < s.iir.order + s.ops.srcLen.toNat)
include h hj

/-- The extended input the command computes with is the one of Safety.lean. -/
theorem sampleAt_extendedInput : sampleAt (extendedInput s.iir (inputSignal s)) j = extIn s j := by
  rw [extendedInput, sampleAt_take_append h.engine.order_le_xh, extIn]
  split
  · rfl
  · exact sampleAt_inputSignal (by omega)

/-- The extended output the command computes is the one of Safety.lean, once its words stand in DMEM. -/
theorem sampleAt_take_append_recursion {t : State} (hexec : exec .iirApply s = .next t) (ht : t.status.err = false) :
    sampleAt (s.iir.yh.take s.iir.order ++ recursion s.iir (inputSignal s)) j = extOut s t j := by
  obtain ⟨hout, -⟩ := apply_of_success hexec ht
  rw [sampleAt_take_append h.engine.order_le_yh, extOut]
  split
  · rfl
  · exact (hout _ (by omega)).symm

end Extended

/-- Settles O19: the words written are the recursion's outputs (`sampleAt_recursion`), and a history holds the last L samples of
its extended sequence (`sampleAt_trailing`). -/
theorem applyFiltersTheBlock : Obligations.ApplyFiltersTheBlock := by
  intro s h hpasses
  have hxh := h.engine.order_le_xh
  have hyh := h.engine.order_le_yh
  have hexec := exec_of_passes (i := .iirApply) ((iirApplyChecks_eq_noError_iff s).2 hpasses)
  have hin := length_inputSignal s
  have hlen : (recursion s.iir (inputSignal s)).length = s.ops.srcLen.toNat := by rw [length_recursion, hin]
  obtain ⟨hout, -⟩ := apply_of_success hexec rfl
  refine ⟨_, hexec, ⟨rfl, rfl⟩, fun i hi => ?_, fun k hk => ⟨?_, ?_⟩, ?_, ?_, drop_trailing _ _ _ hxh,
    drop_trailing _ _ _ hyh, rfl, fun a ha => ?_, exec_sameElsewhere hexec, rfl⟩
  · refine (hout i hi).trans ((sampleAt_recursion hyh (hin ▸ hi)).trans ?_)
    rw [outputAt, sampleAt_extendedInput h (by omega)]
    refine List.foldl_ext _ _ _ fun acc j hj => ?_
    obtain ⟨hpos, -⟩ := List.mem_range'_1.1 hj
    rw [lagStep, sampleAt_extendedInput h (by omega), sampleAt_take_append_recursion h (by omega) hexec rfl]
  · refine (sampleAt_trailing hxh _ hk).trans ?_
    rw [hin]
    exact sampleAt_extendedInput h (by omega)
  · refine (sampleAt_trailing hyh _ hk).trans ?_
    rw [hlen]
    exact sampleAt_take_append_recursion h (by omega) hexec rfl
  · exact (length_trailing _ _ _ hxh).trans h.engine.xhLength
  · exact (length_trailing _ _ _ hyh).trans h.engine.yhLength
  · exact Memory.readByte_writeWords_outside _ _ _ _ (by rw [hlen]; omega)

end Sys2Proof.Machine
end

section
/-! One call over a signal against two over its parts (rule R167), and a reset filter against a fresh one (rule R168). -/

namespace Sys2Proof.Machine

/-- The outputs of two calls are those of one over the joined signal: they solve its recursion. -/
theorem recursion_append {e : Iir} (hxh : e.order ≤ e.xh.length) (hyh : e.order ≤ e.yh.length) (x₁ x₂ : List Word) :
    recursion e (x₁ ++ x₂) = recursion e x₁ ++ recursion (afterApply e x₁) x₂ := by
  have hyh' : e.order ≤ (afterApply e x₁).yh.length := by rwa [afterApply, length_trailing _ _ _ hyh]
  refine (eq_recursion hyh (by simp) fun i hi => ?_).symm
  rw [List.length_append] at hi
  rw [sampleAt_append, length_recursion]
  split
  next hfirst =>
    rw [sampleAt_recursion hyh hfirst]
    refine outputAt_congr rfl rfl (fun _ _ => rfl) (fun j hj => ?_) fun j hpos hj => ?_
    · rw [extendedInput, extendedInput, ← List.append_assoc, sampleAt_append _ x₂,
        if_pos (by rw [List.length_append, List.length_take_of_le hxh]; omega)]
    · rw [← List.append_assoc, sampleAt_append _ (recursion (afterApply e x₁) x₂),
        if_pos (by rw [List.length_append, List.length_take_of_le hyh, length_recursion]; omega)]
  next hsecond =>
    obtain ⟨k, rfl⟩ := Nat.exists_eq_add_of_le (not_lt.1 hsecond)
    rw [Nat.add_sub_cancel_left, sampleAt_recursion hyh' (by omega)]
    refine outputAt_congr rfl rfl (fun _ _ => rfl) (fun j hj => ?_) fun j hpos hj => ?_
    · have hshift : x₁.length + (e.order + k - j) = e.order + (x₁.length + k) - j := by omega
      rw [← hshift, ← sampleAt_drop]
      exact congrArg (sampleAt · _) (take_trailing_append hxh x₁ x₂)
    · have hshift : (recursion e x₁).length + (e.order + k - j) = e.order + (x₁.length + k) - j := by
        rw [length_recursion]; omega
      rw [← hshift, ← sampleAt_drop]
      exact congrArg (sampleAt · _) (take_trailing_append hyh (recursion e x₁) _)

/-- Two calls leave the engine that one over the joined signal does. -/
theorem afterApply_append {e : Iir} (hxh : e.order ≤ e.xh.length) (hyh : e.order ≤ e.yh.length) (x₁ x₂ : List Word) :
    afterApply (afterApply e x₁) x₂ = afterApply e (x₁ ++ x₂) := by
  have hy := trailing_trailing hyh (recursion e x₁) (recursion (afterApply e x₁) x₂)
  rw [← recursion_append hxh hyh] at hy
  exact congrArg₂ (fun xh yh => { e with run := true, xh := xh, yh := yh }) (trailing_trailing hxh x₁ x₂) hy

/-- Settles O40: the outputs of the second call follow the first's (`recursion_append`), and the engine after both is the one
after the joined call (`afterApply_append`). -/
theorem filteringIsContinuousAcrossCalls : Obligations.FilteringIsContinuousAcrossCalls := by
  intro s s₁ s₂ t t₁ t₂ h h₁ h₂ hin ht ht₁ ht₂ hok hok₁ hok₂
  have hxh := h.engine.order_le_xh
  have hyh := h.engine.order_le_yh
  obtain ⟨hout, hiir⟩ := apply_of_success ht hok
  obtain ⟨hout₁, hiir₁⟩ := apply_of_success ht₁ hok₁
  obtain ⟨hout₂, hiir₂⟩ := apply_of_success ht₂ hok₂
  have hlen : s.ops.srcLen.toNat = s₁.ops.srcLen.toNat + s₂.ops.srcLen.toNat := by
    simpa using congrArg List.length hin
  rw [h₁] at hout₁ hiir₁
  rw [h₂, hiir₁] at hout₂ hiir₂
  rw [hin, recursion_append hxh hyh] at hout
  have heng : t₂.iir = t.iir := by rw [hiir₂, hiir, hin, afterApply_append hxh hyh]
  refine ⟨fun k hk => ?_, fun k hk => ?_, congrArg Iir.xh heng, congrArg Iir.yh heng, congrArg Iir.run heng⟩
  · rw [hout k (by omega), hout₁ k hk, sampleAt_append, if_pos (by simpa using hk)]
  · rw [hout _ (by omega), hout₂ k hk, sampleAt_append, length_recursion, length_inputSignal, if_neg (by omega),
      Nat.add_sub_cancel_left]

/-- IIR_RESET leaves the engine that IIR_CONFIG of the same filter loads. -/
theorem performIirReset_iir_eq {s c : State} (hparams : s.params = c.params) (hcfg : s.iir.cfg = true)
    (hcb : (performIirConfig c).iir.cb = s.iir.cb) (hca : (performIirConfig c).iir.ca = s.iir.ca)
    (horder : (performIirConfig c).iir.order = s.iir.order) : (performIirReset s).iir = (performIirConfig c).iir := by
  simp only [performIirReset_iir, hparams, hcfg, ← hcb, ← hca, ← horder]
  rfl

/-- Settles O41: both commands leave one and the same engine (`performIirReset_iir_eq`), and IIR_APPLY is a function of the
engine and the signal (`apply_of_success`). -/
theorem resetEqualsFreshConfiguration : Obligations.ResetEqualsFreshConfiguration := by
  intro s c t u s' c' t' u' hparams ht hu hokt hoku hcb hca horder hs' hc' hin ht' hu' hokt' hoku'
  have heng : t.iir = u.iir := by
    obtain ⟨hcfg, rfl⟩ := exec_success ht hokt
    obtain ⟨-, rfl⟩ := exec_success hu hoku
    exact performIirReset_iir_eq hparams ((iirResetChecks_eq_noError_iff s).1 hcfg) hcb hca horder
  obtain ⟨hout, hiir⟩ := apply_of_success ht' hokt'
  obtain ⟨hout', hiir'⟩ := apply_of_success hu' hoku'
  have hlen : s'.ops.srcLen.toNat = c'.ops.srcLen.toNat := by simpa using congrArg List.length hin
  rw [hs', heng, hin] at hout hiir
  rw [hc'] at hout' hiir'
  refine ⟨fun k hk => ?_, hiir.trans hiir'.symm⟩
  rw [hout k hk, hout' k (hlen ▸ hk)]

end Sys2Proof.Machine
end

section
/-! Which check a command reports when several fail (rule R204). -/

namespace Sys2Proof.Machine

/-- A command reports the code of its checks, whatever it then performs. -/
theorem exec_code (i : Instr) (s : State) : ∃ t, exec i s = .next t ∧ t.errcode.code = checksOf i s := by
  obtain ⟨t, ht, -⟩ := exec_completes i s
  exact ⟨t, ht, congrArg ErrCode.code (exec_errcode ht)⟩

theorem iirResetChecks_eq (s : State) :
    iirResetChecks s = if s.iir.cfg = false then .notConfigured else .noError := by
  rw [iirResetChecks, firstFailure_cons, firstFailure_nil]
  simp only [Bool.not_eq_true']

/-- The code of a chain of three checks before the region check, clause by clause. -/
theorem clauses_of_chain {P Q R V : Prop} [Decidable P] [Decidable Q] [Decidable R] [Decidable V]
    {code a b c d e : ErrorCode} (h : code = if P then a else if Q then b else if R then c else if V then d else e) :
    (P → code = a) ∧ (¬ P → Q → code = b) ∧ (¬ P → ¬ Q → R → code = c) ∧
    (¬ P → ¬ Q → ¬ R → ¬ V → code = e) ∧ (¬ P → ¬ Q → ¬ R → V → code = d) := by
  subst h
  refine ⟨fun hP => if_pos hP, fun hP hQ => ?_, fun hP hQ hR => ?_, fun hP hQ hR hV => ?_, fun hP hQ hR hV => ?_⟩
  · rw [if_neg hP, if_pos hQ]
  · rw [if_neg hP, if_neg hQ, if_pos hR]
  · rw [if_neg hP, if_neg hQ, if_neg hR, if_neg hV]
  · rw [if_neg hP, if_neg hQ, if_neg hR, if_pos hV]

section Chains

variable (s : State) [∀ base n, Decidable (regionOk s base n)]

/-- The region check, which ends every chain that has one. -/
theorem firstFailure_regions (base len base' len' : Nat) :
    firstFailure [(!inRange s.params base len || !inRange s.params base' len', .addressRange)] =
      if regionOk s base len ∧ regionOk s base' len' then .noError else .addressRange := by
  have hregions : (!inRange s.params base len || !inRange s.params base' len') = true ↔
      ¬ (regionOk s base len ∧ regionOk s base' len') := by
    rw [← Bool.not_and, Bool.not_eq_true', ← Bool.not_eq_true, Bool.and_eq_true, inRange_iff, inRange_iff]
    rfl
  simp only [firstFailure_cons, firstFailure_nil, hregions, ite_not]

theorem iirConfigChecks_eq : iirConfigChecks s =
    if s.ops.coefBLen.toNat = 0 ∨ s.ops.coefALen.toNat = 0 then .invalidLength
    else if max s.ops.coefBLen.toNat s.ops.coefALen.toNat = 1 then .invalidLength
    else if s.params.maxOrder < max s.ops.coefBLen.toNat s.ops.coefALen.toNat - 1 then .unsupportedParameter
    else if regionOk s s.ops.coefBBase.toNat s.ops.coefBLen.toNat ∧ regionOk s s.ops.coefABase.toNat s.ops.coefALen.toNat
      then .noError
    else .addressRange := by
  simp only [iirConfigChecks]
  rw [firstFailure_cons, firstFailure_cons, firstFailure_cons, firstFailure_regions]
  simp only [Bool.or_eq_true, decide_eq_true_eq, gt_iff_lt]

theorem iirApplyChecks_eq : iirApplyChecks s =
    if s.iir.cfg = false then .notConfigured
    else if s.ops.srcLen.toNat ≠ s.ops.dstLen.toNat then .lengthMismatch
    else if s.ops.srcLen.toNat = 0 then .invalidLength
    else if regionOk s s.ops.srcBase.toNat s.ops.srcLen.toNat ∧ regionOk s s.ops.dstBase.toNat s.ops.dstLen.toNat
      then .noError
    else .addressRange := by
  rw [iirApplyChecks, srcInRange, dstInRange, firstFailure_cons, firstFailure_cons, firstFailure_cons, firstFailure_regions]
  simp only [Bool.not_eq_true', bne_iff_ne, beq_iff_eq, ne_eq, ← BitVec.toNat_inj, BitVec.toNat_ofNat, Nat.zero_mod]

theorem morphChecks_eq : morphChecks s =
    if s.ops.srcLen.toNat ≠ s.ops.dstLen.toNat then .lengthMismatch
    else if s.ops.winM = 0#32 then .invalidLength
    else if s.params.maxWin < s.ops.winM.toNat then .unsupportedParameter
    else if regionOk s s.ops.srcBase.toNat s.ops.srcLen.toNat ∧ regionOk s s.ops.dstBase.toNat s.ops.dstLen.toNat
      then .noError
    else .addressRange := by
  rw [morphChecks, srcInRange, dstInRange, firstFailure_cons, firstFailure_cons, firstFailure_cons, firstFailure_regions]
  simp only [bne_iff_ne, beq_iff_eq, decide_eq_true_eq, gt_iff_lt, ne_eq, BitVec.toNat_inj]

theorem peaksChecks_eq : peaksChecks s =
    if regionOk s s.ops.srcBase.toNat s.ops.srcLen.toNat ∧
        regionOk s s.ops.dstBase.toNat (if s.ops.srcLen.toNat < 3 then 0 else (s.ops.srcLen.toNat - 1) / 2)
      then .noError
    else .addressRange := by
  rw [peaksChecks, srcInRange, firstFailure_regions, maxPeaks_eq]

end Chains

/-- Settles O9: a command reports the code of its checks (`exec_code`), which are a chain of tests in the rule's order
(`morphChecks_eq` and its like), so each clause is one branch of the chain (`clauses_of_chain`). -/
theorem errorPriorityWithinOneCommand : Obligations.ErrorPriorityWithinOneCommand := by
  classical
  intro s lb la n fits bothFit morphCode
  have morph (i : Instr) (hi : checksOf i s = morphChecks s) : ∃ t, exec i s = .next t ∧ morphCode t.errcode.code := by
    obtain ⟨t, ht, hcode⟩ := exec_code i s
    obtain ⟨mismatch, empty, unsupported, outside, passes⟩ :=
      clauses_of_chain (hcode.trans (hi.trans (morphChecks_eq s)))
    exact ⟨t, ht, mismatch, fun hlen => empty (not_not.2 hlen), fun hlen => unsupported (not_not.2 hlen),
      fun hlen hwin hmax => outside (not_not.2 hlen) hwin (not_lt.2 hmax),
      fun hlen hwin hmax => passes (not_not.2 hlen) hwin (not_lt.2 hmax)⟩
  refine ⟨fun h => ⟨_, coreStep_of_illegal h, rfl⟩, ?config, ?reset, ?apply, fun shift => morph (.dilate shift) rfl,
    fun shift => morph (.erode shift) rfl, morph .opening rfl, ?peaks⟩
  case config =>
    obtain ⟨t, ht, hcode⟩ := exec_code .iirConfig s
    obtain ⟨empty, orderZero, unsupported, outside, passes⟩ := clauses_of_chain (hcode.trans (iirConfigChecks_eq s))
    exact ⟨t, ht, empty, fun hb ha => orderZero (not_or.2 ⟨hb, ha⟩), fun hb ha => unsupported (not_or.2 ⟨hb, ha⟩),
      fun hb ha hone hmax => outside (not_or.2 ⟨hb, ha⟩) hone (not_lt.2 hmax),
      fun hb ha hone hmax => passes (not_or.2 ⟨hb, ha⟩) hone (not_lt.2 hmax)⟩
  case reset =>
    obtain ⟨t, ht, hcode⟩ := exec_code .iirReset s
    have hchain := hcode.trans (iirResetChecks_eq s)
    exact ⟨t, ht, fun hcfg => hchain.trans (if_pos hcfg), fun hcfg => hchain.trans (if_neg (ne_false_of_eq_true hcfg))⟩
  case apply =>
    obtain ⟨t, ht, hcode⟩ := exec_code .iirApply s
    obtain ⟨notConfigured, mismatch, empty, outside, passes⟩ := clauses_of_chain (hcode.trans (iirApplyChecks_eq s))
    exact ⟨t, ht, notConfigured, fun hcfg => mismatch (ne_false_of_eq_true hcfg),
      fun hcfg hlen => empty (ne_false_of_eq_true hcfg) (not_not.2 hlen),
      fun hcfg hlen => outside (ne_false_of_eq_true hcfg) (not_not.2 hlen),
      fun hcfg hlen => passes (ne_false_of_eq_true hcfg) (not_not.2 hlen)⟩
  case peaks =>
    obtain ⟨t, ht, hcode⟩ := exec_code .peaks s
    have hchain := hcode.trans (peaksChecks_eq s)
    exact ⟨t, ht, fun hfit => hchain.trans (if_pos hfit), fun hfit => hchain.trans (if_neg hfit)⟩

end Sys2Proof.Machine
end

section
/-! The block right after power-on reset (rules R230, R240): what its registers read, and that it meets the invariant. -/

namespace Sys2Proof.Machine

section PowerOn

variable (p : Params)

/-- The value of every register after power-on reset: the four constants, and 0. -/
theorem regWord_resetWith (reg : Reg) :
    regWord (State.resetWith p) reg =
      if reg = .id then idWord else if reg = .cfgDmemWords then BitVec.ofNat 64 p.dmemWords
      else if reg = .cfgMaxOrder then BitVec.ofNat 64 p.maxOrder else if reg = .cfgMaxWin then BitVec.ofNat 64 p.maxWin
      else 0#64 := by
  cases reg with
  | status => exact (by decide : statusImage false false false false false = 0#64)
  | errcode => exact (by decide : 0#48 ++ 0#8 ++ errorNumber .noError = 0#64)
  | hosterr => exact (by decide : 0#62 ++ BitVec.ofBool false ++ BitVec.ofBool false = 0#64)
  | ctrl => exact (by decide : 0#63 ++ BitVec.ofBool false = 0#64)
  | _ => rfl

/-- The indices of the four constants (rules R20, R23 to R26). -/
theorem regAt_constant_iff (r : RegIndex) :
    (regAt p r = .id ↔ r = 0x000#11) ∧ (regAt p r = .cfgDmemWords ↔ r = 0x001#11) ∧
    (regAt p r = .cfgMaxOrder ↔ r = 0x002#11) ∧ (regAt p r = .cfgMaxWin ↔ r = 0x003#11) :=
  ⟨regAt_eq_iff rfl (by decide), regAt_eq_iff rfl (by decide), regAt_eq_iff rfl (by decide),
    regAt_eq_iff rfl (by decide)⟩

/-- Power-on reset of a legal block meets the invariant: DMEM lists no cell, no command is pending and the engine is reset
(`Iir.inv_reset`). -/
theorem resetWith_inv (hp : p.wf = true) : (State.resetWith p).Inv where
  paramsLegal := hp
  memCanonical := List.Pairwise.nil
  memInside := List.forall_mem_nil _
  busyClears h := by cases h
  errIffCode := rfl
  engine := Iir.inv_reset p

end PowerOn

/-- Settles O51: an index reads the register it names (`regWord_resetWith`), and only four indices name a constant
(`regAt_constant_iff`); no byte of DMEM is written. -/
theorem powerOnResetState : Obligations.PowerOnResetState := by
  intro p r _
  obtain ⟨hid, hdmem, horder, hwin⟩ := regAt_constant_iff p r
  have hread : regReadValue (State.resetWith p) r = regWord (State.resetWith p) (regAt p r) := regReadValue_of_idle rfl rfl
  refine ⟨?_, rfl, rfl, rfl, fun a => Memory.readByte_unwritten rfl⟩
  rw [hread, regWord_resetWith]
  simp only [hid, hdmem, horder, hwin, idWord]

/-- Settles O53, by `resetWith_inv`. -/
theorem invariantHoldsAtReset : Obligations.InvariantHoldsAtReset :=
  ⟨resetWith_inv, resetWith_inv Config.params (by decide)⟩

end Sys2Proof.Machine
end

section
/-! Soft reset (rule R231): what becomes of DMEM, and that the filter commands then find no configured engine. -/

namespace Sys2Proof.Machine

section Abandoned

variable {s : State}

theorem abandonedMem_of_idle (idle : s.status.busy = false) : abandonedMem s = s.mem := by
  simp [abandonedMem, idle]

theorem abandonedMem_of_busy (busy : s.status.busy = true) :
    abandonedMem s = Memory.writeWords s.mem s.ops.dstBase.toNat
      ((List.range (writeSetWords s)).map (fun k => Config.freeWord (s.draws + k))) := by
  simp [abandonedMem, busy]

/-- A byte lane outside the write set keeps its value, whether or not a command is abandoned. -/
theorem readByte_abandonedMem_outside {a : Nat} (h : inWriteSet s (a / 8) = false) :
    Memory.readByte (abandonedMem s) a = Memory.readByte s.mem a := by
  cases hbusy : s.status.busy with
  | false => rw [abandonedMem_of_idle hbusy]
  | true =>
    have houtside : a / 8 < s.ops.dstBase.toNat ∨ s.ops.dstBase.toNat + writeSetWords s ≤ a / 8 := by
      simpa [inWriteSet, imp_iff_not_or] using h
    rw [abandonedMem_of_busy hbusy]
    exact Memory.readByte_writeWords_outside _ _ _ _ (by simpa using houtside)

/-- The words of an abandoned command's write set take the free values drawn for them (log entry 4). -/
theorem readWord_abandonedMem_of_busy (busy : s.status.busy = true) {k : Nat} (hk : k < writeSetWords s) :
    Memory.readWord (abandonedMem s) (s.ops.dstBase.toNat + k) = Config.freeWord (s.draws + k) := by
  rw [abandonedMem_of_busy busy, Memory.readWord_writeWords _ _ _ _ (by simpa using hk)]
  simp [List.getD, hk]

/-- The write set is the output region, cut at DMEM_WORDS (rule R104). -/
theorem lt_writeSetWords_iff {k : Nat} :
    k < writeSetWords s ↔
      k < writeSetLength s.ops (decode s.cmdLast) ∧ s.ops.dstBase.toNat + k < s.params.dmemWords := by
  rw [writeSetWords, lt_min_iff]
  omega

end Abandoned

/-- IIR_RESET and IIR_APPLY report NOT_CONFIGURED while CFG = 0 (rules R162, R163). -/
theorem exec_not_configured {s : State} (hcfg : s.iir.cfg = false) :
    (∃ u, exec .iirReset s = .next u ∧ u.errcode.code = .notConfigured) ∧
    (∃ u, exec .iirApply s = .next u ∧ u.errcode.code = .notConfigured) := by
  classical
  obtain ⟨u, hreset, hresetCode⟩ := exec_code .iirReset s
  obtain ⟨w, happly, happlyCode⟩ := exec_code .iirApply s
  exact ⟨⟨u, hreset, hresetCode.trans ((iirResetChecks_eq s).trans (if_pos hcfg))⟩,
    ⟨w, happly, happlyCode.trans ((iirApplyChecks_eq s).trans (if_pos hcfg))⟩⟩

/-- Settles O52: the write is a soft reset, whose DMEM is `abandonedMem` and whose engine has CFG = 0 (`exec_not_configured`). -/
theorem softResetState : Obligations.SoftResetState := by
  intro s v hv t
  have ht : t = softReset s := if_pos hv
  clear_value t
  subst ht
  refine ⟨rfl, rfl, abandonedMem_of_idle, fun a => readByte_abandonedMem_outside, fun busy k hinside hk => ?_,
    exec_not_configured rfl⟩
  exact readWord_abandonedMem_of_busy busy (lt_writeSetWords_iff.2 ⟨hk, hinside⟩)

end Sys2Proof.Machine
end
